-- ==== Sys2Proof/Word.lean ====
section
/-! DEFINITION. The widths of the block's values (00_scope.md R5, 10_state.md section 8). -/

namespace Sys2Proof

/-- One byte: a symbol, an input or output byte, the A field of a command (R5, R110). -/
abbrev Byte := BitVec 8

/-- One register word of the window (R72). -/
abbrev Word := BitVec 32

/-- A node index; 0x1FF is NIL (R5, R44). -/
abbrev NodeIdx := BitVec 9

/-- A node weight, WEIGHT_W = 40 bits (R5). -/
abbrev Weight := BitVec 40

/-- A stream counter or TOTAL_BITS, CNT_W = 64 bits (R5). -/
abbrev Count := BitVec 64

/-- An array with one entry for each of the NSYM = 256 symbols (R5, R45 to R47). -/
abbrev Table (α : Type) := Vector α 256

/-- KIND of a node (R44). -/
inductive NodeKind where
  | leaf
  | internal
  deriving DecidableEq, Repr, Inhabited

/-- One entry of the NODE arena (R44). -/
structure Node where
  kind   : NodeKind
  sym    : Byte
  weight : Weight
  left   : NodeIdx
  right  : NodeIdx
  deriving DecidableEq, Repr, Inhabited

end Sys2Proof
end

