-- ==== Sys2Proof/Config.lean ====
section
/-! DEFINITION. What this hardware fixes (00_scope.md R5, 10_state.md R23), and the free values
of spec/93_implementation_defined.md: constants without a body, so that nothing can be proved
about a value the spec leaves open. -/

namespace Sys2Proof

/-- MAX_CODE_LEN. R5 lets a model take it in 1..32; this hardware fixes 32 (D12, log 13). -/
def Config.maxCodeLen : Nat := 32

/-- NODE_MAX (R5). -/
def Config.nodeMax : Nat := 511

/-- NIL, the null node index (R5, R44). -/
def Config.nil : NodeIdx := 0x1FF#9

/-- ID (R23). -/
def Config.idWord : Word := 0x48554646#32

/-- VERSION (R23). -/
def Config.versionWord : Word := 0x00010000#32

/-- CONFIG (R23): MAX_CODE_LEN in 5:0, WEIGHT_W in 15:8, NODE_MAX in 24:16. -/
def Config.configWord : Word := 0x01FF2820#32

/-- WINDOW, the size of the register window in bytes (R5, R70). -/
def Config.window : Nat := 0x4000

/-- HTB_BASE, the platform's base address of the window, left OPEN (R70, U14). Its width of 32 bits is
the model's (DESIGN CHOICE, log 22). -/
opaque Config.htbBase : Word

/-- The value a read returns while R76 makes it open (U1, U2), or where the platform and not the block
answers (U11, log 4): one fresh word per draw (log 3). -/
opaque Config.freeWord : Nat → Word

/-- A free choice among finitely many outcomes: how much of an abandoned command's output was
emitted (U3, U4), and which of its flag writes happened (U3) (log 6, log 7). -/
opaque Config.freeNat : Nat → Nat

/-- A counter or narrower register of a poisoned block (U3, log 6). -/
opaque Config.freeCount : Nat → Count

/-- FREQ or CODE of a poisoned block (U3, log 6). -/
opaque Config.freeTable : Nat → Table Word

/-- LEN of a poisoned block (U3, log 6). -/
opaque Config.freeLens : Nat → Table (BitVec 6)

/-- The NODE arena of a poisoned block (U3, log 6). -/
opaque Config.freeNodes : Nat → List Node

end Sys2Proof
end

