-- ==== Sys2Proof/Syntax.lean ====
section
/-! DEFINITION. The twelve commands of 30_encoding.md R112, one constructor for each row of the
opcode table, with the operands of R111. -/

namespace Sys2Proof

inductive Instr where
  /-- NOP (R250). -/
  | nop
  /-- BUILD_TREE (R140). -/
  | buildTree
  /-- ASSIGN_CODES (R170). -/
  | assignCodes
  /-- ENC_START (R191). -/
  | encStart
  /-- ENC_SYM s, s = A (R197). -/
  | encSym (s : Byte)
  /-- WR_BIT b, b = A[0] with A[7:1] = 0 (R193). -/
  | wrBit (b : Bool)
  /-- WR_CODE L, L = A in 0..MAX_CODE_LEN, the pattern in CMD_ARG (R196). -/
  | wrCode (len : Byte)
  /-- FLUSH (R200). -/
  | flush
  /-- DEC_START (R221). -/
  | decStart
  /-- DEC_BYTE v, v = A (R225). -/
  | decByte (v : Byte)
  /-- DEC_END (R231). -/
  | decEnd
  /-- CLEAR_FREQ (R251). -/
  | clearFreq
  deriving DecidableEq, Repr

end Sys2Proof
end

