-- ==== Sys2Proof/WellFormed.lean ====
section
/-! DEFINITION. Which terms of Instr a command word can stand for. Only WR_CODE's operand has a
range narrower than its type: L ≤ MAX_CODE_LEN (30_encoding.md R111, R115). -/

namespace Sys2Proof

/-- The operand checks of R115 that Instr's types do not already make. -/
def Instr.wellFormed : Instr → Bool
  | .nop => true
  | .buildTree => true
  | .assignCodes => true
  | .encStart => true
  | .encSym _ => true
  | .wrBit _ => true
  | .wrCode len => decide (len.toNat ≤ Config.maxCodeLen)
  | .flush => true
  | .decStart => true
  | .decByte _ => true
  | .decEnd => true
  | .clearFreq => true

end Sys2Proof
end

