-- ==== Sys2Proof/Decode.lean ====
section
/-! DEFINITION. Command words to commands and back (30_encoding.md R110 to R118). -/

namespace Sys2Proof

/-- Why a word is no command: each is BadCommand (R113 to R115). -/
inductive Reject where
  /-- R, bits 31:16, is not 0. -/
  | reservedBitsSet
  /-- OP is above 0x0B (R114). -/
  | reservedOpcode
  /-- A is not 0 and the opcode takes no operand. -/
  | operandNotZero
  /-- WR_BIT with A > 1. -/
  | bitOutOfRange
  /-- WR_CODE with A > MAX_CODE_LEN. -/
  | lengthOutOfRange
  deriving DecidableEq, Repr

/-- OP, bits 7:0 of CMD32 (R110). -/
def opField (w : Word) : Byte := w.extractLsb' 0 8

/-- A, bits 15:8 of CMD32 (R110). -/
def aField (w : Word) : Byte := w.extractLsb' 8 8

/-- R, bits 31:16 of CMD32 (R110). -/
def rField (w : Word) : BitVec 16 := w.extractLsb' 16 16

/-- An opcode without operand requires A = 0 (R111). -/
def noOperand (i : Instr) (a : Byte) : Except Reject Instr :=
  if a = 0 then .ok i else .error .operandNotZero

/-- WR_BIT takes b = A[0] and requires A ≤ 1 (R111, R113). -/
def bitOperand (a : Byte) : Except Reject Instr :=
  if a.toNat > 1 then .error .bitOutOfRange else .ok (.wrBit (a.getLsbD 0))

/-- WR_CODE takes L = A and requires L ≤ MAX_CODE_LEN (R111, R113). -/
def lengthOperand (a : Byte) : Except Reject Instr :=
  if a.toNat > Config.maxCodeLen then .error .lengthOutOfRange else .ok (.wrCode a)

/-- The opcode map of R112, applied to OP and A. -/
def decodeOp (op : Nat) (a : Byte) : Except Reject Instr :=
  match op with
  | 0x00 => noOperand .nop a
  | 0x01 => noOperand .buildTree a
  | 0x02 => noOperand .assignCodes a
  | 0x03 => noOperand .encStart a
  | 0x04 => .ok (.encSym a)
  | 0x05 => bitOperand a
  | 0x06 => lengthOperand a
  | 0x07 => noOperand .flush a
  | 0x08 => noOperand .decStart a
  | 0x09 => .ok (.decByte a)
  | 0x0A => noOperand .decEnd a
  | 0x0B => noOperand .clearFreq a
  | _ => .error .reservedOpcode

/-- Decoding of a command word, in the order of R113. -/
def decode (w : Word) : Except Reject Instr :=
  if rField w ≠ 0 then .error .reservedBitsSet
  else decodeOp (opField w).toNat (aField w)

/-- The OP of each command (R112). -/
def Instr.opcode : Instr → Byte
  | .nop => 0x00
  | .buildTree => 0x01
  | .assignCodes => 0x02
  | .encStart => 0x03
  | .encSym _ => 0x04
  | .wrBit _ => 0x05
  | .wrCode _ => 0x06
  | .flush => 0x07
  | .decStart => 0x08
  | .decByte _ => 0x09
  | .decEnd => 0x0A
  | .clearFreq => 0x0B

/-- The A of each command (R111, R112). -/
def Instr.operand : Instr → Byte
  | .nop => 0
  | .buildTree => 0
  | .assignCodes => 0
  | .encStart => 0
  | .encSym s => s
  | .wrBit b => if b then 1 else 0
  | .wrCode len => len
  | .flush => 0
  | .decStart => 0
  | .decByte v => v
  | .decEnd => 0
  | .clearFreq => 0

/-- The word of a command: OP | (A << 8) (R118). -/
def encode (i : Instr) : Word :=
  i.opcode.setWidth 32 ||| (i.operand.setWidth 32 <<< 8)

/-- What the decoder reads from an instruction of the opcode table: one CMD32 word, given as the
`nbits` low bits of `w`. -/
def decodeTableWord (nbits w : Nat) : Option Instr :=
  let bits := w % 2 ^ nbits
  if bits < 2 ^ 32 then (decode (BitVec.ofNat 32 bits)).toOption else none

end Sys2Proof
end

