-- ==== Sys2Proof/Machine/State.lean ====
section
/-! DEFINITION. The state of one block (10_state.md), as plain data, and its reset value (R55). -/

namespace Sys2Proof.Machine

/-- The values ERR_CODE takes (60_exceptions.md R260); codes 11 to 15 are never raised (U13). -/
inductive ErrCode where
  | none
  | emptyInput
  | codeLengthOverflow
  | truncatedStream
  | corruptStream
  | badFrequency
  | notReady
  | noCode
  | writeAfterFlush
  | badCommand
  | overrun
  deriving DecidableEq, Repr

/-- DEC_STATE (R38); the encoding 3 is never taken (U12). -/
inductive DecState where
  | off
  | active
  | done
  deriving DecidableEq, Repr

/-- One step's worth of input (00_scope.md R7): what the Host, the reset input or the scheduler
does next. Offsets are byte offsets from HTB_BASE (R70), of 32 bits (DESIGN CHOICE, log 22). -/
inductive Event where
  /-- A Host read of the word at `off` (R74, R75). -/
  | read (off : Word)
  /-- A Host write of the bus word `data` at `off` with byte enables `be` (R72, R73, R77). -/
  | write (off : Word) (be : BitVec 4) (data : Word)
  /-- The hardware reset input (R300). -/
  | reset
  /-- The Engine's turn (R310). -/
  | engine
  deriving DecidableEq, Repr

/-- Everything the spec gives the block, one home for each register, and three fields of the
model's own. NODE holds exactly the allocated entries 0..NODE_COUNT−1 (R44). -/
structure State where
  /-- CTRL.IRQ_EN (R24). -/
  irqEn : Bool
  /-- STATUS.BUSY (R25, R50). -/
  busy : Bool
  /-- CMD (R26). -/
  cmd : Word
  /-- CMD_ARG (R27). -/
  cmdArg : Word
  /-- PEND_CMD, hidden (R50). -/
  pendCmd : Word
  /-- ERR_CODE (R28). -/
  errCode : ErrCode
  /-- ERR_CMD (R29). -/
  errCmd : Word
  /-- ERR_INFO0 (R30). -/
  errInfo0 : Word
  /-- ERR_INFO1 (R30). -/
  errInfo1 : Word
  /-- POISONED, hidden (R49). -/
  poisoned : Bool
  /-- TREE_VALID (R48). -/
  treeValid : Bool
  /-- ROOT (R31). -/
  root : NodeIdx
  /-- NODE_COUNT (R32). -/
  nodeCount : BitVec 10
  /-- LEAF_COUNT (R33). -/
  leafCount : BitVec 9
  /-- NODE (R44). -/
  nodes : List Node
  /-- CODES_VALID (R48). -/
  codesValid : Bool
  /-- TOTAL_BITS (R34). -/
  totalBits : Count
  /-- CODE (R46). -/
  code : Table Word
  /-- LEN (R47). -/
  len : Table (BitVec 6)
  /-- FREQ (R45). -/
  freq : Table Word
  /-- ENC_ACC.ACC (R35). -/
  acc : Byte
  /-- ENC_ACC.ACC_N (R35). -/
  accN : BitVec 4
  /-- ENC_BITS (R36). -/
  encBits : Count
  /-- ENC_FLUSHED (R37). -/
  encFlushed : Bool
  /-- ENC_OUT, oldest byte first (R52). -/
  encOut : List Byte
  /-- DEC_STATE (R38). -/
  decState : DecState
  /-- DEC_REMAIN (R39). -/
  decRemain : Count
  /-- DEC_POS (R40). -/
  decPos : NodeIdx
  /-- DEC_BYTES (R41). -/
  decBytes : Count
  /-- DEC_EXTRA (R42). -/
  decExtra : Count
  /-- DEC_SYMS (R43). -/
  decSyms : Count
  /-- DEC_OUT, oldest byte first (R52). -/
  decOut : List Byte
  /-- The model's own: the accesses, resets and Engine turns to come, the next one first
  (DESIGN CHOICE, log 1). -/
  agenda : List Event
  /-- The model's own: the words returned to Host reads, the oldest first (DESIGN CHOICE, log 2). -/
  rdata : List Word
  /-- The model's own: how many free values have been drawn (DESIGN CHOICE, log 3). -/
  draws : Nat
  deriving DecidableEq, Repr

/-- Why a step stops: there is no reason. A step never fails (R7): the block's own errors are next
states, in FAULT (R263). -/
inductive Fault where
  deriving DecidableEq, Repr

/-- Why a step is refused. -/
inductive Refusal where
  /-- Raised by an arm of `exec` that has no meaning yet; no arm of this model does. Safe. -/
  | notModelled (mnemonic : String)
  deriving DecidableEq, Repr

/-- The state after reset at the start of a run (R55). Every value is the spec's, but for the
model's own three fields (log 1, log 2, log 3). -/
def State.reset : State where
  irqEn := false
  busy := false
  cmd := 0
  cmdArg := 0
  pendCmd := 0
  errCode := .none
  errCmd := 0
  errInfo0 := 0
  errInfo1 := 0
  poisoned := false
  treeValid := false
  root := Config.nil
  nodeCount := 0
  leafCount := 0
  nodes := []
  codesValid := false
  totalBits := 0
  code := Vector.replicate 256 0
  len := Vector.replicate 256 0
  freq := Vector.replicate 256 0
  acc := 0
  accN := 0
  encBits := 0
  encFlushed := false
  encOut := []
  decState := .off
  decRemain := 0
  decPos := Config.nil
  decBytes := 0
  decExtra := 0
  decSyms := 0
  decOut := []
  agenda := []
  rdata := []
  draws := 0

end Sys2Proof.Machine
end

