-- ==== Sys2Proof/Machine/Ops.lean ====
section
/-! DEFINITION. The operations the commands and the Host accesses share: the symbol arrays, the
node arena, the output streams, invalidation, the free values, taking an error and leaving FAULT
by a reset. -/

namespace Sys2Proof.Machine

/-! ### Symbol arrays (R45 to R47) -/

/-- Element `x` of an array indexed by symbol. -/
def entry {α : Type} (t : Table α) (x : Byte) : α := t[x.toNat]'x.isLt

/-- The array with element `x` replaced. -/
def put {α : Type} (t : Table α) (x : Byte) (v : α) : Table α := t.set x.toNat v x.isLt

/-- The array that holds `v` everywhere. -/
def fill {α : Type} (v : α) : Table α := Vector.replicate 256 v

/-- The symbols 0..255 in ascending order. -/
def symbols : List Byte := (List.range 256).map (BitVec.ofNat 8)

/-- The array whose element `x` is `f x`. -/
def tabulate {α : Type} (f : Byte → α) : Table α :=
  ⟨(symbols.map f).toArray, by simp [symbols]⟩

/-- The elements of an array with their symbols, in ascending order. -/
def cells {α : Type} (t : Table α) : List (Byte × α) := symbols.zip t.toList

/-! ### The node arena (R44) -/

/-- What an entry that is not allocated reads as (R44). -/
def zeroNode : Node := ⟨.leaf, 0, 0, 0, 0⟩

/-- NODE[i]. Rules read only allocated entries; in states no run reaches an index at or above
NODE_COUNT reads as zero, as it does for the Host (DESIGN CHOICE, log 9). -/
def State.node (s : State) (i : NodeIdx) : Node :=
  if i.toNat < s.nodeCount.toNat then s.nodes.getD i.toNat zeroNode else zeroNode

/-! ### Output streams (R52, R10) -/

/-- `emit_enc(b)` (R10). -/
def State.emitEnc (s : State) (b : Byte) : State := { s with encOut := s.encOut ++ [b] }

/-- `emit_dec(b)` (R10). -/
def State.emitDec (s : State) (b : Byte) : State := { s with decOut := s.decOut ++ [b] }

/-- What stands in a stream when a command that turned `before` into `after` is abandoned: the
bytes of before and a prefix of the new ones, chosen by `k` (R268, R302, log 7). -/
def partialOutput (before after : List Byte) (k : Nat) : List Byte :=
  after.take (before.length + k % (after.length - before.length + 1))

/-! ### Invalidation (R56 to R58) -/

/-- `InvalidateCodes()` (R57). -/
def State.invalidateCodes (s : State) : State :=
  { s with code := fill 0, len := fill 0, totalBits := 0, codesValid := false, decState := .off }

/-- `InvalidateTree()` (R58). Every NODE entry then reads 0. -/
def State.invalidateTree (s : State) : State :=
  { s with nodeCount := 0, leafCount := 0, nodes := [], root := Config.nil,
           treeValid := false }.invalidateCodes

/-! ### Taking an error, and leaving FAULT -/

/-- The block is in FAULT exactly when ERR_CODE ≠ 0 (R51, R263). -/
def State.inFault (s : State) : Bool := s.errCode != .none

/-- `raise E(i0, i1)` in a command: latch the error with the word being executed, which is
PEND_CMD, and end the command (R261). The Engine step that runs the command clears BUSY (R310). -/
def State.raise (s : State) (e : ErrCode) (i0 i1 : Word) : State :=
  { s with errCode := e, errCmd := s.pendCmd, errInfo0 := i0, errInfo1 := i1 }

/-- The end of an Engine step: BUSY <- 0 (R310). PEND_CMD is hidden and keeps its value (DEDUCED,
log 15). -/
def State.finish (s : State) : State := { s with busy := false }

/-- The reset of R300, the only way out of FAULT (R265, R275): every piece of state takes its value
of R55; bytes already emitted are not retracted. The model's own fields stay (log 1 to log 3). -/
def State.toReset (s : State) : State :=
  { State.reset with
    encOut := s.encOut, decOut := s.decOut,
    agenda := s.agenda, rdata := s.rdata, draws := s.draws }

/-! ### The Host's side of the bus -/

/-- The word `v` is returned to the Host (R75; the list is the model's own, log 2). -/
def State.respond (s : State) (v : Word) : State := { s with rdata := s.rdata ++ [v] }

/-- `k` free values have been drawn (log 3). -/
def State.drawn (s : State) (k : Nat) : State := { s with draws := s.draws + k }

/-- An accepted write of `w` to CMD (R26, R311). -/
def State.issue (s : State) (w : Word) : State := { s with cmd := w, pendCmd := w, busy := true }

/-- An accepted write of `v` to FREQ[x] (R252). -/
def State.writeFreq (s : State) (x : Byte) (v : Word) : State :=
  { s with freq := put s.freq x v }.invalidateTree

end Sys2Proof.Machine
end

