-- ==== Sys2Proof/Machine/Flags.lean ====
section
/-! DEFINITION. The flags and the registers made of fields: STATUS, ERR_CODE, CTRL, ENC_ACC and
NODE's DESC (10_state.md R24, R25, R28, R35, R44; 60_exceptions.md R260, R272). -/

namespace Sys2Proof.Machine

/-- The number of an error in ERR_CODE (R260). -/
def ErrCode.toBits : ErrCode → BitVec 4
  | .none => 0
  | .emptyInput => 1
  | .codeLengthOverflow => 2
  | .truncatedStream => 3
  | .corruptStream => 4
  | .badFrequency => 5
  | .notReady => 6
  | .noCode => 7
  | .writeAfterFlush => 8
  | .badCommand => 9
  | .overrun => 10

/-- The value of DEC_STATE in STATUS[6:5] (R38). -/
def DecState.toBits : DecState → BitVec 2
  | .off => 0
  | .active => 1
  | .done => 2

/-- The level of the output `irq` = STATUS.ERR AND CTRL.IRQ_EN (R272). -/
def State.irq (s : State) : Bool := s.inFault && s.irqEn

/-- STATUS (R25). -/
def State.statusWord (s : State) : Word :=
  (0#24 ++ BitVec.ofBool s.irq ++ s.decState.toBits ++ BitVec.ofBool s.encFlushed
    ++ BitVec.ofBool s.codesValid ++ BitVec.ofBool s.treeValid ++ BitVec.ofBool s.inFault
    ++ BitVec.ofBool s.busy : BitVec (24 + 1 + 2 + 1 + 1 + 1 + 1 + 1))

/-- CTRL: SOFT_RESET reads 0 (R24). -/
def State.ctrlWord (s : State) : Word :=
  (0#30 ++ BitVec.ofBool s.irqEn ++ 0#1 : BitVec (30 + 1 + 1))

/-- ENC_ACC: ACC in 7:0, ACC_N in 11:8 (R35). -/
def State.encAccWord (s : State) : Word := (0#20 ++ s.accN ++ s.acc : BitVec (20 + 4 + 8))

/-- DESC of a node (R44). -/
def Node.descWord (n : Node) : Word :=
  (BitVec.ofBool (n.kind == .internal) ++ 0#4 ++ n.right ++ n.left ++ 0#1 ++ n.sym
    : BitVec (1 + 4 + 9 + 9 + 1 + 8))

/-- The low word of a 64-bit register (R79). -/
def lowWord (c : Count) : Word := c.extractLsb' 0 32

/-- The high word of a 64-bit register (R79). -/
def highWord (c : Count) : Word := c.extractLsb' 32 32

end Sys2Proof.Machine
end

