-- ==== Sys2Proof/Machine/Operands.lean ====
section
/-! DEFINITION. The operand forms of 30_encoding.md R111 and the bit order of the streams
(20_memory.md R83, R85). No operand is sign-extended, scaled or shifted. -/

namespace Sys2Proof.Machine

/-- The bits P[L−1], ..., P[0] in the order they enter the stream (R85, R195). -/
def codeBits (p : Word) (len : Nat) : List Bool :=
  (List.range len).map fun i => p.getLsbD (len - 1 - i)

/-- The bits of a byte in stream order, bit 7 first (R83). -/
def byteBits (v : Byte) : List Bool := (List.range 8).map fun i => v.getLsbD (7 - i)

/-- The integer value of a bit string, its first bit the most significant (R9). -/
def bitsValue (bits : List Bool) : Nat := bits.foldl (fun v b => 2 * v + b.toNat) 0

/-- WR_CODE: L is A, P is CMD_ARG (R111). -/
def State.wrCodeBits (s : State) (len : Byte) : List Bool := codeBits s.cmdArg len.toNat

/-- ENC_SYM: the code of the symbol A (R111, R197). -/
def State.symbolBits (s : State) (x : Byte) : List Bool :=
  codeBits (entry s.code x) (entry s.len x).toNat

/-- DEC_BYTE: of the byte A, the leading min(8, DEC_REMAIN) bits are meaningful (R226). -/
def State.meaningfulBits (s : State) (v : Byte) : List Bool :=
  (byteBits v).take s.decRemain.toNat

end Sys2Proof.Machine
end

