-- ==== Sys2Proof/Machine/BitReader.lean ====
section
/-! DEFINITION. BitReader and the decoder state machine: DEC_START, DEC_BYTE, DEC_END
(44_bit_reader.md). -/

namespace Sys2Proof.Machine

/-- The child an edge bit selects (R224). -/
def Node.child (n : Node) (bit : Bool) : NodeIdx := if bit then n.right else n.left

/-- A leaf is reached: emit its symbol, count it and go back to the root (R224, R228). -/
def State.emitSymbol (s : State) (x : Byte) : State :=
  { s.emitDec x with decSyms := s.decSyms + 1, decPos := s.root }

/-- `Step(bit)` (R224): `.error` is the state in which the command ended by an error. -/
def State.decodeBit (s : State) (bit : Bool) : Except State State :=
  let s := { s with decRemain := s.decRemain - 1 }
  let child := Node.child (s.node s.decPos) bit
  if child = Config.nil then .error (s.raise .corruptStream 1 (s.decPos.setWidth 32))
  else
    match (s.node child).kind with
    | .leaf => .ok (s.emitSymbol (s.node child).sym)
    | .internal => .ok { s with decPos := child }

/-- Decode steps on bits in stream order, up to the first error (R225). -/
def State.decodeBits (s : State) : List Bool → Except State State
  | [] => .ok s
  | bit :: bits =>
    match s.decodeBit bit with
    | .error t => .error t
    | .ok t => t.decodeBits bits

/-- The end of a DEC_BYTE: is the budget exhausted, and at the root (R225, R229). -/
def State.checkBudget (s : State) : State :=
  if s.decRemain = 0 then
    if s.decPos = s.root then { s with decState := .done }
    else s.raise .corruptStream 0 (s.decPos.setWidth 32)
  else s

/-- DEC_START (R221). -/
def execDecStart (s : State) : Host.Outcome State Fault Refusal :=
  if s.treeValid = false ∨ s.codesValid = false then .next (s.raise .notReady 0 0)
  else
    .next { s with decRemain := s.totalBits, decPos := s.root, decBytes := 0, decExtra := 0,
                   decSyms := 0,
                   decState := if s.totalBits = 0 then .done else .active }

/-- DEC_BYTES counts an accepted byte (R225). -/
def State.countByte (s : State) : State := { s with decBytes := s.decBytes + 1 }

/-- The decode steps of one byte, and the check of the budget when none of them failed (R225). -/
def State.decodeByte (s : State) (v : Byte) : State :=
  match s.decodeBits (s.meaningfulBits v) with
  | .error t => t
  | .ok t => t.checkBudget

/-- DEC_BYTE v (R225, R233). -/
def execDecByte (v : Byte) (s : State) : Host.Outcome State Fault Refusal :=
  match s.decState with
  | .off => .next (s.raise .notReady 0 0)
  | .done => .next { s with decExtra := s.decExtra + 1 }
  | .active => .next (s.countByte.decodeByte v)

/-- DEC_END (R231, R232). -/
def execDecEnd (s : State) : Host.Outcome State Fault Refusal :=
  match s.decState with
  | .off => .next (s.raise .notReady 0 0)
  | .active => .next (s.raise .truncatedStream (lowWord s.decBytes) (lowWord s.decRemain))
  | .done => .next s

end Sys2Proof.Machine
end

