-- ==== Sys2Proof/Machine/BitWriter.lean ====
section
/-! DEFINITION. BitWriter: ENC_START, WR_BIT, WR_CODE, ENC_SYM, FLUSH (43_bit_writer.md). -/

namespace Sys2Proof.Machine

/-- `WriteBit(b)` (R190). -/
def State.writeBit (s : State) (b : Bool) : State :=
  let acc : Byte := (s.acc.extractLsb' 0 7 ++ BitVec.ofBool b : BitVec (7 + 1))
  let s := { s with acc := acc, accN := s.accN + 1, encBits := s.encBits + 1 }
  if s.accN = 8 then { s.emitEnc s.acc with acc := 0, accN := 0 } else s

/-- The bits of a code, written in stream order: `WriteCode` (R195) for `codeBits`. -/
def State.writeBits (s : State) (bits : List Bool) : State := bits.foldl State.writeBit s

/-- ENC_START (R191). -/
def execEncStart (s : State) : Host.Outcome State Fault Refusal :=
  .next { s with acc := 0, accN := 0, encBits := 0, encFlushed := false }

/-- WR_BIT b (R193). -/
def execWrBit (b : Bool) (s : State) : Host.Outcome State Fault Refusal :=
  if s.encFlushed then .next (s.raise .writeAfterFlush 0 0)
  else .next (s.writeBit b)

/-- WR_CODE L (R196). -/
def execWrCode (len : Byte) (s : State) : Host.Outcome State Fault Refusal :=
  if s.encFlushed then .next (s.raise .writeAfterFlush 0 0)
  else .next (s.writeBits (s.wrCodeBits len))

/-- ENC_SYM x (R197, R198). -/
def execEncSym (x : Byte) (s : State) : Host.Outcome State Fault Refusal :=
  if s.codesValid = false then .next (s.raise .notReady 0 0)
  else if s.encFlushed then .next (s.raise .writeAfterFlush 0 0)
  else if entry s.len x = 0 then .next (s.raise .noCode (x.setWidth 32) 0)
  else .next (s.writeBits (s.symbolBits x))

/-- The partial byte, zero-padded on its low-order bits (R200, R201). -/
def State.paddedAcc (s : State) : Byte := s.acc <<< (8 - s.accN.toNat)

/-- A partial byte, if there is one, goes to ENC_OUT padded, and leaves the accumulator empty (R200,
R202). -/
def State.drain (s : State) : State :=
  if s.accN = 0 then s else { s.emitEnc s.paddedAcc with acc := 0, accN := 0 }

/-- FLUSH (R200). -/
def execFlush (s : State) : Host.Outcome State Fault Refusal :=
  if s.encFlushed then .next (s.raise .writeAfterFlush 0 0)
  else .next { s.drain with encFlushed := true }

end Sys2Proof.Machine
end

