-- ==== Sys2Proof/Machine/CodeAssigner.lean ====
section
/-! DEFINITION. CodeAssigner: ASSIGN_CODES (42_code_assigner.md R170 to R177). -/

namespace Sys2Proof.Machine

/-- The nodes an internal node pushes, the left one to be visited first: edge 0 to LEFT, edge 1 to
RIGHT unless it is NIL (R170, R172). -/
def childVisits (n : Node) (path : List Bool) : List (NodeIdx × List Bool) :=
  (n.left, path ++ [false]) :: (if n.right = Config.nil then [] else [(n.right, path ++ [true])])

/-- The depth-first traversal of R172 over a stack of nodes with their paths, collecting each
leaf's symbol and path, the last one first. A node's depth is the length of its path. One
repetition visits one node, so NODE_COUNT repetitions visit a whole tree (log 10). -/
def visitTree (s : State) :
    Nat → List (NodeIdx × List Bool) → List (Byte × List Bool) → List (Byte × List Bool)
  | 0, _, found => found
  | _ + 1, [], found => found
  | fuel + 1, (x, path) :: stack, found =>
    match (s.node x).kind with
    | .leaf => visitTree s fuel stack (((s.node x).sym, path) :: found)
    | .internal => visitTree s fuel (childVisits (s.node x) path ++ stack) found

/-- Every leaf of the tree with its path from ROOT. -/
def State.leafPaths (s : State) : List (Byte × List Bool) :=
  visitTree s s.nodeCount.toNat [(s.root, [])] []

/-- path[x], empty for a symbol that is no leaf (R170). -/
def pathIn (found : List (Byte × List Bool)) (x : Byte) : List Bool := (found.lookup x).getD []

/-- The smallest symbol deeper than MAX_CODE_LEN (R173). -/
def tooDeep (found : List (Byte × List Bool)) : Option Byte :=
  symbols.find? fun x => decide ((pathIn found x).length > Config.maxCodeLen)

/-- Σ FREQ[x] × LEN[x], computed exactly (R175). -/
def bitBudget (f : Table Word) (len : Table (BitVec 6)) : Nat :=
  (List.zipWith (fun n l => n.toNat * l.toNat) f.toList len.toList).sum

/-- CODE and LEN of the paths, TOTAL_BITS and CODES_VALID <- 1 (R170, R174, R175). -/
def State.storeCodes (s : State) (found : List (Byte × List Bool)) : State :=
  let len : Table (BitVec 6) := tabulate fun x => BitVec.ofNat 6 (pathIn found x).length
  { s with code := tabulate fun x => BitVec.ofNat 32 (bitsValue (pathIn found x)),
           len := len,
           totalBits := BitVec.ofNat 64 (bitBudget s.freq len),
           codesValid := true }

/-- ASSIGN_CODES (R170). -/
def execAssignCodes (s : State) : Host.Outcome State Fault Refusal :=
  if s.treeValid = false then .next (s.raise .notReady 0 0)
  else
    let s := s.invalidateCodes
    let found := s.leafPaths
    match tooDeep found with
    | some x =>
      .next (s.raise .codeLengthOverflow (x.setWidth 32) (BitVec.ofNat 32 (pathIn found x).length))
    | none => .next (s.storeCodes found)

end Sys2Proof.Machine
end

