-- ==== Sys2Proof/Machine/Control.lean ====
section
/-! DEFINITION. The control commands NOP and CLEAR_FREQ (45_control.md R250, R251). -/

namespace Sys2Proof.Machine

/-- NOP (R250). -/
def execNop (s : State) : Host.Outcome State Fault Refusal := .next s

/-- CLEAR_FREQ (R251). -/
def execClearFreq (s : State) : Host.Outcome State Fault Refusal :=
  .next { s with freq := fill 0 }.invalidateTree

end Sys2Proof.Machine
end

