-- ==== Sys2Proof/Machine/TreeBuilder.lean ====
section
/-! DEFINITION. TreeBuilder: BUILD_TREE (41_tree_builder.md R140 to R149). -/

namespace Sys2Proof.Machine

/-- The symbols of non-zero frequency, ascending: the seeding order (R141). -/
def leafSymbols (f : Table Word) : List Byte := ((cells f).filter fun c => c.2 != 0).map Prod.fst

/-- The smallest symbol whose frequency has bit 31 set (R142). -/
def badSymbol (f : Table Word) : Option Byte :=
  ((cells f).find? fun c => c.2.getLsbD 31).map Prod.fst

/-- The leaf of symbol `x` (R140). -/
def leafNode (f : Table Word) (x : Byte) : Node :=
  ⟨.leaf, x, (entry f x).setWidth 40, Config.nil, Config.nil⟩

/-- The arena after seeding: node k is the leaf of the k-th symbol (R141). -/
def seedArena (f : Table Word) : List Node := (leafSymbols f).map (leafNode f)

/-- NODE[x].WEIGHT during the construction. -/
def weightOf (arena : List Node) (x : Nat) : Weight := (arena.getD x zeroNode).weight

/-- The candidate order: weight first, then node index (R144). -/
def comesBefore (arena : List Node) (x y : Nat) : Bool :=
  decide (weightOf arena x < weightOf arena y) ||
    (weightOf arena x == weightOf arena y && decide (x < y))

/-- The candidate of the smallest key among `x` and `xs` (R144). -/
def leastOf (arena : List Node) (x : Nat) (xs : List Nat) : Nat :=
  xs.foldl (fun best y => if comesBefore arena y best then y else best) x

/-- `Q.removeMin()` (R144): the node removed and the candidates left. -/
def removeMin (arena : List Node) : List Nat → Option (Nat × List Nat)
  | [] => none
  | x :: xs =>
    let m := leastOf arena x xs
    some (m, (x :: xs).erase m)

/-- The internal node made of `a`, removed first, and `b` (R145). -/
def mergeNode (arena : List Node) (a b : Nat) : Node :=
  ⟨.internal, 0, weightOf arena a + weightOf arena b, BitVec.ofNat 9 a, BitVec.ofNat 9 b⟩

/-- The merge step of R145, repeated while the list holds more than one node. Each repetition
takes one node off the list, so as many repetitions as the list is long are enough. -/
def mergeLoop : Nat → List Node → List Nat → List Node × List Nat
  | 0, arena, q => (arena, q)
  | fuel + 1, arena, q =>
    match removeMin arena q with
    | none => (arena, q)
    | some (a, q1) =>
      match removeMin arena q1 with
      | none => (arena, q)
      | some (b, q2) => mergeLoop fuel (arena ++ [mergeNode arena a b]) (q2 ++ [arena.length])

/-- The root above the only leaf (R147). -/
def singleRoot (leaf : Node) : Node := ⟨.internal, 0, leaf.weight, 0, Config.nil⟩

/-- The arena and the root index built from a frequency table with at least one symbol. -/
def buildArena (f : Table Word) : List Node × Nat :=
  match seedArena f with
  | [leaf] => ([leaf, singleRoot leaf], 1)
  | leaves =>
    let (arena, q) := mergeLoop leaves.length leaves (List.range leaves.length)
    (arena, q.headD 0)

/-- NODE_COUNT <- k, LEAF_COUNT <- n, ROOT <- root, TREE_VALID <- 1 (R148). -/
def State.storeTree (s : State) (arena : List Node) (root leaves : Nat) : State :=
  { s with nodes := arena, nodeCount := BitVec.ofNat 10 arena.length,
           leafCount := BitVec.ofNat 9 leaves, root := BitVec.ofNat 9 root, treeValid := true }

/-- BUILD_TREE (R140). -/
def execBuildTree (s : State) : Host.Outcome State Fault Refusal :=
  let s := s.invalidateTree
  match badSymbol s.freq with
  | some x => .next (s.raise .badFrequency (x.setWidth 32) (entry s.freq x))
  | none =>
    if (leafSymbols s.freq).isEmpty then .next (s.raise .emptyInput 0 0)
    else
      let (arena, root) := buildArena s.freq
      .next (s.storeTree arena root (leafSymbols s.freq).length)

end Sys2Proof.Machine
end

