-- ==== Sys2Proof/Machine/Dispatch.lean ====
section
/-! DEFINITION. One arm for each command (30_encoding.md R112). -/

namespace Sys2Proof.Machine

def exec (i : Instr) (s : State) : Host.Outcome State Fault Refusal :=
  match i with
  | .nop => Sys2Proof.Machine.execNop s
  | .buildTree => Sys2Proof.Machine.execBuildTree s
  | .assignCodes => Sys2Proof.Machine.execAssignCodes s
  | .encStart => Sys2Proof.Machine.execEncStart s
  | .encSym x => Sys2Proof.Machine.execEncSym x s
  | .wrBit b => Sys2Proof.Machine.execWrBit b s
  | .wrCode len => Sys2Proof.Machine.execWrCode len s
  | .flush => Sys2Proof.Machine.execFlush s
  | .decStart => Sys2Proof.Machine.execDecStart s
  | .decByte v => Sys2Proof.Machine.execDecByte v s
  | .decEnd => Sys2Proof.Machine.execDecEnd s
  | .clearFreq => Sys2Proof.Machine.execClearFreq s

end Sys2Proof.Machine
end

