-- ==== Sys2Proof/Machine/Engine.lean ====
section
/-! DEFINITION. The Engine step (70_reset_and_hazards.md R310), what an abandoned command leaves
behind, Overrun (60_exceptions.md R268) and the resets (70_reset_and_hazards.md R300 to R302). -/

namespace Sys2Proof.Machine

/-- The end of the Engine step for a command's outcome: BUSY <- 0 (R310). -/
def finishOutcome : Host.Outcome State Fault Refusal → Host.Outcome State Fault Refusal
  | .next t => .next t.finish
  | .fault r => .fault r
  | .refused r => .refused r

/-- The Engine's turn (R310): decode PEND_CMD, run the command or take BadCommand (R113), clear
BUSY. With BUSY = 0, and in FAULT (R264), the Engine does nothing. -/
def engineTurn (s : State) : Host.Outcome State Fault Refusal :=
  if s.busy && !s.inFault then
    match decode s.pendCmd with
    | .ok i => finishOutcome (exec i s)
    | .error _ => finishOutcome (.next (s.raise .badCommand 0 0))
  else .next s

/-- The state the pending command would reach if the Engine ran it now. -/
def State.completed (s : State) : State :=
  match engineTurn s with
  | .next t => t
  | .fault _ => s
  | .refused _ => s

/-- The state after the first writes of the pending command: the invalidation that BUILD_TREE and
ASSIGN_CODES begin with (R140, R170). No other command writes a flag twice. -/
def State.begun (s : State) : State :=
  match decode s.pendCmd with
  | .ok .buildTree => s.invalidateTree
  | .ok .assignCodes => if s.treeValid then s.invalidateCodes else s
  | _ => s

/-- ENC_OUT and DEC_OUT when the pending command is abandoned: each gains a free prefix of what
the command would have emitted (R268, R302, U3, U4, log 7). -/
def State.abandonOutput (s : State) : State :=
  { s with
    encOut := partialOutput s.encOut s.completed.encOut (Config.freeNat s.draws),
    decOut := partialOutput s.decOut s.completed.decOut (Config.freeNat (s.draws + 1)),
    draws := s.draws + 2 }

/-- One of the values a flag passes through while the pending command runs: before it, after its
first writes, after it. Which one is free (R268, log 6). -/
def State.midway {α : Type} (s : State) (flag : State → α) (k : Nat) : α :=
  match k % 3 with
  | 0 => flag s
  | 1 => flag s.begun
  | _ => flag s.completed

/-- What an Overrun leaves in the state other than STATUS, the error registers and the streams: any
value (R268, U3). The flags that STATUS shows exactly (R76) have a value the abandoned command
passes through, and IRQ_EN, which no command writes, stays (DEDUCED, log 6). -/
def State.scrambled (s : State) : State :=
  let d := s.draws
  { s with
    treeValid := s.midway State.treeValid (Config.freeNat d),
    codesValid := s.midway State.codesValid (Config.freeNat (d + 1)),
    encFlushed := s.midway State.encFlushed (Config.freeNat (d + 2)),
    decState := s.midway State.decState (Config.freeNat (d + 3)),
    cmd := Config.freeWord d,
    cmdArg := Config.freeWord (d + 1),
    totalBits := Config.freeCount d,
    encBits := Config.freeCount (d + 1),
    decRemain := Config.freeCount (d + 2),
    decBytes := Config.freeCount (d + 3),
    decExtra := Config.freeCount (d + 4),
    decSyms := Config.freeCount (d + 5),
    root := (Config.freeCount (d + 6)).setWidth 9,
    nodeCount := (Config.freeCount (d + 7)).setWidth 10,
    leafCount := (Config.freeCount (d + 8)).setWidth 9,
    decPos := (Config.freeCount (d + 9)).setWidth 9,
    acc := (Config.freeCount (d + 10)).setWidth 8,
    accN := (Config.freeCount (d + 11)).setWidth 4,
    nodes := Config.freeNodes d,
    freq := Config.freeTable d,
    code := Config.freeTable (d + 1),
    len := Config.freeLens d,
    draws := d + 12 }

/-- Overrun: a write of `v` at word offset `a` while BUSY (R268). The write is not performed and
the pending command is abandoned. -/
def State.overrun (s : State) (a : Nat) (v : Word) : State :=
  let out := s.abandonOutput
  { s.drawn 2 |>.scrambled with
    encOut := out.encOut, decOut := out.decOut,
    errCode := .overrun, errCmd := s.pendCmd, errInfo0 := BitVec.ofNat 32 a, errInfo1 := v,
    poisoned := true, busy := false }

/-- A reset, hardware or soft (R300). If it falls on a pending command, that command is abandoned
with a free prefix of its output and no error (R302). -/
def State.resetStep (s : State) : State :=
  if s.busy then s.abandonOutput.toReset else s.toReset

end Sys2Proof.Machine
end

