-- ==== Sys2Proof/Machine/Window.lean ====
section
/-! DEFINITION. What the Host reads at each offset of the register window (20_memory.md R75, R76,
R80). -/

namespace Sys2Proof.Machine

/-- The offset with bits 1:0 cleared (R72). -/
def wordOffset (off : Word) : Nat := off.toNat / 4 * 4

/-- Whether the block decodes the offset (R72). -/
def decodes (off : Word) : Bool := decide (off.toNat < Config.window)

/-- The offset of CTRL (R24). -/
def ctrlOffset : Nat := 0x00C

/-- The symbol whose entry stands at offset `a` of an array that begins at `base` (R45 to R47). -/
def symbolAt (base a : Nat) : Byte := BitVec.ofNat 8 ((a - base) / 4)

/-- Registers 0x000 to 0x3FF (R80); reserved offsets read 0. -/
def State.controlWord (s : State) (a : Nat) : Word :=
  match a with
  | 0x000 => Config.idWord
  | 0x004 => Config.versionWord
  | 0x008 => Config.configWord
  | 0x00C => s.ctrlWord
  | 0x010 => s.statusWord
  | 0x014 => s.cmd
  | 0x018 => s.cmdArg
  | 0x01C => s.errCode.toBits.setWidth 32
  | 0x020 => s.errCmd
  | 0x024 => s.errInfo0
  | 0x028 => s.errInfo1
  | 0x02C => s.root.setWidth 32
  | 0x030 => s.nodeCount.setWidth 32
  | 0x034 => s.leafCount.setWidth 32
  | 0x038 => lowWord s.totalBits
  | 0x03C => highWord s.totalBits
  | 0x040 => s.encAccWord
  | 0x048 => lowWord s.encBits
  | 0x04C => highWord s.encBits
  | 0x050 => lowWord s.decRemain
  | 0x054 => highWord s.decRemain
  | 0x058 => s.decPos.setWidth 32
  | 0x060 => lowWord s.decBytes
  | 0x064 => highWord s.decBytes
  | 0x068 => lowWord s.decExtra
  | 0x06C => highWord s.decExtra
  | 0x070 => lowWord s.decSyms
  | 0x074 => highWord s.decSyms
  | _ => 0

/-- The word at byte `k` of node `i` (R44): all four words of an entry at or above NODE_COUNT
read 0. -/
def State.nodeWord (s : State) (i k : Nat) : Word :=
  if i < s.nodeCount.toNat then
    let n := s.nodes.getD i zeroNode
    match k with
    | 0x0 => Node.descWord n
    | 0x4 => n.weight.setWidth 32
    | 0x8 => (n.weight.extractLsb' 32 8).setWidth 32
    | _ => 0
  else 0

/-- The register at the word offset `a` (R75, R80). -/
def State.register (s : State) (a : Nat) : Word :=
  if a < 0x400 then s.controlWord a
  else if a < 0x800 then entry s.freq (symbolAt 0x400 a)
  else if a < 0xC00 then entry s.code (symbolAt 0x800 a)
  else if a < 0x1000 then (entry s.len (symbolAt 0xC00 a)).setWidth 32
  else if a < 0x2000 then 0
  else s.nodeWord ((a - 0x2000) / 16) (a % 16)

/-- The registers that read exactly in every state: ID, VERSION, CONFIG, STATUS (R76). -/
def alwaysExact (a : Nat) : Bool := a == 0x000 || a == 0x004 || a == 0x008 || a == 0x010

/-- ERR_CODE, ERR_CMD, ERR_INFO0, ERR_INFO1, which a poisoned block still reads exactly (R76). -/
def errorRegister (a : Nat) : Bool := a == 0x01C || a == 0x020 || a == 0x024 || a == 0x028

/-- A read of `a` returns any value (R76). -/
def State.readIsOpen (s : State) (a : Nat) : Bool :=
  (s.busy && !alwaysExact a) || (s.poisoned && !(alwaysExact a || errorRegister a))

end Sys2Proof.Machine
end

