-- ==== Sys2Proof/Machine/Bus.lean ====
section
/-! DEFINITION. Host reads and writes of the register window (20_memory.md R72 to R78,
45_control.md R252 to R254). -/

namespace Sys2Proof.Machine

/-- A Host read at `off` (R72, R75, R76): the register's value, or a fresh free word where the spec
leaves the value open and where the platform answers instead of the block (U11, log 4). No state of
the block changes. -/
def hostRead (off : Word) (s : State) : Host.Outcome State Fault Refusal :=
  if decodes off && !s.readIsOpen (wordOffset off) then
    .next (s.respond (s.register (wordOffset off)))
  else .next ((s.respond (Config.freeWord s.draws)).drawn 1)

/-- A write of `v` to CTRL (R253, R301): the soft reset when v[0] = 1, then IRQ_EN <- v[1]. -/
def State.writeCtrl (s : State) (v : Word) : State :=
  { (if v.getLsbD 0 then s.resetStep else s) with irqEn := v.getLsbD 1 }

/-- An accepted write of `v` to the register at word offset `a`, CTRL apart (R77): CMD, CMD_ARG and
FREQ; every other offset is read-only or reserved. -/
def State.writeRegister (s : State) (a : Nat) (v : Word) : State :=
  if a = 0x014 then s.issue v
  else if a = 0x018 then { s with cmdArg := v }
  else if 0x400 ≤ a ∧ a < 0x800 then s.writeFreq (symbolAt 0x400 a) v
  else s

/-- All four byte enables are set (R73). -/
def fullWord (be : BitVec 4) : Bool := be == 0xF#4

/-- A Host write of `v` at `off` with byte enables `be`, accepted in the order of R78. A write
without all byte enables is dropped, but raises Overrun while BUSY like any other (R73, log 5). The
block does not decode a write outside the window (R72, log 4). -/
def hostWrite (off : Word) (be : BitVec 4) (v : Word) (s : State) :
    Host.Outcome State Fault Refusal :=
  let a := wordOffset off
  if decodes off then
    if a = ctrlOffset then .next (if fullWord be then s.writeCtrl v else s)
    else if s.busy then .next (s.overrun a v)
    else if fullWord be && !s.inFault then .next (s.writeRegister a v)
    else .next s
  else .next s

/-- What one entry of the agenda does (00_scope.md R7). -/
def runEvent (e : Event) (s : State) : Host.Outcome State Fault Refusal :=
  match e with
  | .read off => hostRead off s
  | .write off be v => hostWrite off be v s
  | .reset => .next s.resetStep
  | .engine => engineTurn s

/-- The agenda's next entry taken off, or the Engine's turn when there is none (R310, R325,
log 1). -/
def State.nextEvent (s : State) : Event × State :=
  match s.agenda with
  | [] => (.engine, s)
  | e :: rest => (e, { s with agenda := rest })

/-- The machine about to run the command word `w`: what an accepted write of `w` to CMD leaves
(R311), with the Engine to move next and no error latched, since in FAULT the Engine executes
nothing (R264) (log 11). -/
def State.loadCommand (s : State) (w : Word) : State :=
  { s.issue w with errCode := .none, agenda := .engine :: s.agenda }

end Sys2Proof.Machine
end

