-- ==== Sys2Proof/Machine/Step.lean ====
section
/-! DEFINITION. One step of the block (00_scope.md R7). -/

namespace Sys2Proof.Machine

/-- One step: the next entry of the agenda, or the Engine's turn when the agenda is empty. -/
def step (s : State) : Host.Outcome State Fault Refusal :=
  runEvent s.nextEvent.1 s.nextEvent.2

/-- `s` with the command given by the `nbits` low bits of `w` issued, so that the next step is the
Engine step that runs it (log 11). -/
def State.withFetchWord (s : State) (nbits w : Nat) : State :=
  s.loadCommand (BitVec.ofNat 32 (w % 2 ^ nbits))

end Sys2Proof.Machine
end

