-- ==== Sys2Proof/Machine/HostSide.lean ====
section
/-! DEFINITION. The Host's side, as functions that run the machine: the bus operations and
pseudo-instructions of 30_encoding.md R119 and R120, the sequences of 70_reset_and_hazards.md R320
and R321, and the header layout of 20_memory.md R96. No rule of the block depends on them. -/

namespace Sys2Proof.Machine

/-- The Host bus operations of R119. -/
inductive HostOp where
  /-- `W off, v`: MemWrite(off, 4, v). -/
  | w (off : Word) (v : Word)
  /-- `R off`: MemRead(off, 4). -/
  | r (off : Word)
  /-- `POLL`: repeat `R 0x010` until bit 0 is 0. -/
  | poll
  deriving DecidableEq, Repr

/-- The steps that one bus operation takes from state `s` (R119). STATUS reads BUSY exactly in every
state (R76), so POLL reads once when BUSY is 0. When it is 1, `late` reads see it before the Engine's
turn, and the read after that turn ends the loop (R310, U5, log 16). -/
def HostOp.events (late : Nat) (s : State) : HostOp → List Event
  | .w off v => [.write off 0xF v]
  | .r off => [.read off]
  | .poll =>
    if s.busy then List.replicate late (.read 0x010) ++ [.engine, .read 0x010]
    else [.read 0x010]

/-- As many steps from `s` as there are events, with these on the agenda. -/
def runEvents (es : List Event) (s : State) : Host.Outcome State Fault Refusal :=
  Sys2Proof.core.run es.length { s with agenda := es }

/-- A listing run from `s`, one operation after the other, each from the state that the one before
it leaves. `late k` is how many reads operation number k makes in vain, if it is a POLL that finds
BUSY = 1 (log 16). -/
def runListing (late : Nat → Nat) : List HostOp → State → Host.Outcome State Fault Refusal
  | [], s => .next s
  | op :: ops, s =>
    match runEvents (op.events (late 0) s) s with
    | .next t => runListing (fun k => late (k + 1)) ops t
    | .fault r => .fault r
    | .refused r => .refused r

/-- The offset of FREQ[x] (R45). -/
def freqOffset (x : Byte) : Word := BitVec.ofNat 32 (0x400 + 4 * x.toNat)

/-- `CMD c` for a command other than WR_CODE (R120). -/
def cmdOps (i : Instr) : List HostOp := [.w 0x014 (encode i), .poll]

/-- `WR_CODE L, P` (R120). -/
def wrCodeOps (len : Byte) (p : Word) : List HostOp :=
  [.w 0x018 p, .w 0x014 (encode (.wrCode len)), .poll]

/-- `SETFREQ x, n` (R120). -/
def setFreqOps (x : Byte) (n : Word) : List HostOp := [.w (freqOffset x) n]

/-- `LOADFREQ t` (R120). -/
def loadFreqOps (t : Table Word) : List HostOp := symbols.flatMap fun x => setFreqOps x (entry t x)

/-- `SRESET` (R120). -/
def sresetOps : List HostOp := [.w 0x00C 1]

/-- `ENCODE x` (R120). -/
def encodeOps (xs : List Byte) : List HostOp := xs.flatMap fun x => cmdOps (.encSym x)

/-- `DECODE y` (R120). -/
def decodeOps (ys : List Byte) : List HostOp := ys.flatMap fun y => cmdOps (.decByte y)

/-- The frequency table that counts a byte string (R320). -/
def counts (xs : List Byte) : Table Word := tabulate fun x => BitVec.ofNat 32 (xs.count x)

/-- The encode sequence of R320. -/
def encodeSequence (xs : List Byte) : List HostOp :=
  sresetOps ++ loadFreqOps (counts xs)
    ++ cmdOps .buildTree ++ [.r 0x010]
    ++ cmdOps .assignCodes ++ [.r 0x010]
    ++ cmdOps .encStart ++ encodeOps xs ++ cmdOps .flush ++ [.r 0x010]

/-- The decode sequence of R321 for a header and a payload. -/
def decodeSequence (h : Table Word) (payload : List Byte) : List HostOp :=
  sresetOps ++ loadFreqOps h
    ++ cmdOps .buildTree ++ [.r 0x010]
    ++ cmdOps .assignCodes ++ [.r 0x010]
    ++ cmdOps .decStart ++ decodeOps payload ++ cmdOps .decEnd ++ [.r 0x010]

/-- The four bytes of a header entry, little-endian (R96). -/
def headerEntryBytes (n : Word) : List Byte := (List.range 4).map fun k => n.extractLsb' (8 * k) 8

/-- The header of an encoded file: 256 entries, entry x at file offset 4·x (R96). -/
def headerBytes (t : Table Word) : List Byte := symbols.flatMap fun x => headerEntryBytes (entry t x)

/-- The header entry of symbol `x` read from a file (R96, R99): the byte at 4·x + k holds bits
8k+7:8k. -/
def headerEntry (file : List Byte) (x : Byte) : Word :=
  let b := fun k => file.getD (4 * x.toNat + k) 0
  (b 3 ++ b 2 ++ b 1 ++ b 0 : BitVec (8 + 8 + 8 + 8))

/-- The platform's bus address of an offset of the window (R70). That an address has 32 bits, and the
sum is modulo 2^32, is the model's (DESIGN CHOICE, log 22). -/
def busAddress (off : Word) : Word := Config.htbBase + off

/-- The block with an agenda given to it. -/
def State.withAgenda (s : State) (es : List Event) : State := { s with agenda := es }

end Sys2Proof.Machine
end

