-- ==== Sys2Proof/Safety.lean ====
section
/-! DEFINITION. The terms claims are stated in: what an instruction leaves unchanged, the bits of
the encoded stream, the tree that the arena spells, and the invariant of 10_state.md R54. -/

namespace Sys2Proof.Machine

/-! ### Frames: the parts of State that a command may leave unchanged -/

/-- FREQ (R45). -/
def SameFreq (s t : State) : Prop := t.freq = s.freq

/-- The tree: TREE_VALID, ROOT, NODE_COUNT, LEAF_COUNT, NODE. -/
def SameTree (s t : State) : Prop :=
  t.treeValid = s.treeValid ∧ t.root = s.root ∧ t.nodeCount = s.nodeCount ∧
    t.leafCount = s.leafCount ∧ t.nodes = s.nodes

/-- The codes: CODES_VALID, TOTAL_BITS, CODE, LEN. -/
def SameCodes (s t : State) : Prop :=
  t.codesValid = s.codesValid ∧ t.totalBits = s.totalBits ∧ t.code = s.code ∧ t.len = s.len

/-- The BitWriter: ACC, ACC_N, ENC_BITS, ENC_FLUSHED, ENC_OUT. -/
def SameWriter (s t : State) : Prop :=
  t.acc = s.acc ∧ t.accN = s.accN ∧ t.encBits = s.encBits ∧ t.encFlushed = s.encFlushed ∧
    t.encOut = s.encOut

/-- The decoder: DEC_STATE, DEC_REMAIN, DEC_POS, DEC_BYTES, DEC_EXTRA, DEC_SYMS, DEC_OUT. -/
def SameDecoder (s t : State) : Prop :=
  t.decState = s.decState ∧ t.decRemain = s.decRemain ∧ t.decPos = s.decPos ∧
    t.decBytes = s.decBytes ∧ t.decExtra = s.decExtra ∧ t.decSyms = s.decSyms ∧
    t.decOut = s.decOut

/-- ERR_CODE, ERR_CMD, ERR_INFO0, ERR_INFO1. -/
def SameErrors (s t : State) : Prop :=
  t.errCode = s.errCode ∧ t.errCmd = s.errCmd ∧ t.errInfo0 = s.errInfo0 ∧
    t.errInfo1 = s.errInfo1

/-- CTRL.IRQ_EN, BUSY, CMD, CMD_ARG, PEND_CMD, POISONED. -/
def SameControl (s t : State) : Prop :=
  t.irqEn = s.irqEn ∧ t.busy = s.busy ∧ t.cmd = s.cmd ∧ t.cmdArg = s.cmdArg ∧
    t.pendCmd = s.pendCmd ∧ t.poisoned = s.poisoned

/-- The model's own fields: agenda, rdata, draws. -/
def SameModel (s t : State) : Prop :=
  t.agenda = s.agenda ∧ t.rdata = s.rdata ∧ t.draws = s.draws

/-! ### The encoded stream (R190, R194) -/

/-- R54 (g): ACC_N ≤ 7 and ACC < 2^ACC_N. -/
def WriterOk (s : State) : Prop := s.accN.toNat ≤ 7 ∧ s.acc.toNat < 2 ^ s.accN.toNat

/-- The bits held by the accumulator, the oldest first (R35). -/
def State.accBits (s : State) : List Bool :=
  (List.range s.accN.toNat).map fun i => s.acc.getLsbD (s.accN.toNat - 1 - i)

/-- Every bit that has entered ENC_OUT or the accumulator, in stream order. -/
def State.encStream (s : State) : List Bool := s.encOut.flatMap byteBits ++ s.accBits

/-! ### The tree that the arena spells (R150) -/

/-- A coding tree: a leaf, the one-symbol tree of R147, or an internal node with two children. -/
inductive CodeTree where
  | leaf (x : Byte)
  | single (x : Byte)
  | node (l r : CodeTree)
  deriving DecidableEq, Repr

/-- The number of arena entries of a tree. -/
def CodeTree.size : CodeTree → Nat
  | .leaf _ => 1
  | .single _ => 2
  | .node l r => 1 + l.size + r.size

/-- Every leaf's symbol with its path from the root, a left edge false and a right edge true
(R172). -/
def CodeTree.paths : CodeTree → List (Byte × List Bool)
  | .leaf x => [(x, [])]
  | .single x => [(x, [false])]
  | .node l r =>
    l.paths.map (fun e => (e.1, false :: e.2)) ++ r.paths.map (fun e => (e.1, true :: e.2))

/-- The symbols of the leaves, from left to right. -/
def CodeTree.symbols (t : CodeTree) : List Byte := t.paths.map Prod.fst

/-- The path of the leaf of `x`, empty when there is none. -/
def CodeTree.path (t : CodeTree) (x : Byte) : List Bool := (t.paths.lookup x).getD []

/-- The sum of the leaves' frequencies (R152). -/
def CodeTree.weight (f : Table Word) (t : CodeTree) : Nat :=
  (t.symbols.map fun x => (entry f x).toNat).sum

/-- Every internal node has two children. -/
def CodeTree.full : CodeTree → Bool
  | .leaf _ => true
  | .single _ => false
  | .node l r => l.full && r.full

/-- A tree BUILD_TREE can make: one symbol under a root of its own, or two children everywhere
(R147, R150). -/
def CodeTree.isWhole : CodeTree → Bool
  | .leaf _ => false
  | .single _ => true
  | .node l r => l.full && r.full

/-- The tree starts at an internal node. -/
def CodeTree.isInner : CodeTree → Bool
  | .leaf _ => false
  | .single _ => true
  | .node _ _ => true

/-- An allocated entry of the arena, of the given kind. -/
def State.allocated (s : State) (i : NodeIdx) (k : NodeKind) : Prop :=
  i.toNat < s.nodeCount.toNat ∧ i ≠ Config.nil ∧ (s.node i).kind = k

/-- Node `i` is the leaf of `x` (R44, R140). -/
def SpellsLeaf (s : State) (i : NodeIdx) (x : Byte) : Prop :=
  s.allocated i .leaf ∧ (s.node i).sym = x ∧ (s.node i).left = Config.nil ∧
    (s.node i).right = Config.nil ∧ (s.node i).weight.toNat = (entry s.freq x).toNat

/-- The arena spells the tree from node `i` down, weights included (R44, R150, R152). -/
def Spells (s : State) : NodeIdx → CodeTree → Prop
  | i, .leaf x => SpellsLeaf s i x
  | i, .single x =>
    s.allocated i .internal ∧ (s.node i).sym = 0 ∧ (s.node i).right = Config.nil ∧
      (s.node i).weight.toNat = (CodeTree.single x).weight s.freq ∧
      SpellsLeaf s (s.node i).left x
  | i, .node l r =>
    s.allocated i .internal ∧ (s.node i).sym = 0 ∧
      (s.node i).weight.toNat = (CodeTree.node l r).weight s.freq ∧
      Spells s (s.node i).left l ∧ Spells s (s.node i).right r

/-- `t` is the tree in the arena: it hangs from ROOT, it takes up all NODE_COUNT entries, and its
leaves are exactly the symbols of non-zero frequency, each once (R150). -/
structure TreeIs (s : State) (t : CodeTree) : Prop where
  whole : t.isWhole = true
  spells : Spells s s.root t
  size : t.size = s.nodeCount.toNat
  leaves : t.symbols.Perm (leafSymbols s.freq)
  leafCount : s.leafCount.toNat = t.symbols.length

/-- CODE, LEN and TOTAL_BITS are those of the tree `t` (R174, R175, R177). -/
structure CodesAre (s : State) (t : CodeTree) : Prop where
  depth : ∀ x, (t.path x).length ≤ Config.maxCodeLen
  len : ∀ x, entry s.len x = BitVec.ofNat 6 (t.path x).length
  code : ∀ x, entry s.code x = BitVec.ofNat 32 (bitsValue (t.path x))
  budget : s.totalBits = BitVec.ofNat 64 (bitBudget s.freq s.len)

/-! ### Decoding on a tree (R224, R226, R228, R230) -/

/-- One bit from position `pos` of the tree `root`: the symbol of a leaf that is reached, and the
new position; nothing when the child is missing. -/
def CodeTree.step (root : CodeTree) : CodeTree → Bool → Option (List Byte × CodeTree)
  | .leaf _, _ => none
  | .single x, bit => if bit then none else some ([x], root)
  | .node l r, bit =>
    match if bit then r else l with
    | .leaf x => some ([x], root)
    | .single x => some ([], .single x)
    | .node a b => some ([], .node a b)

/-- What decoding some bits gives: the symbols, the position, the number of bits read, and whether
the last one selected a missing child. -/
structure Decoded where
  out : List Byte
  pos : CodeTree
  used : Nat
  missing : Bool
  deriving DecidableEq, Repr

/-- Bits decoded one after the other from position `pos`, up to a missing child. -/
def CodeTree.decode (root : CodeTree) : CodeTree → List Bool → Decoded
  | pos, [] => ⟨[], pos, 0, false⟩
  | pos, bit :: bits =>
    match root.step pos bit with
    | none => ⟨[], pos, 1, true⟩
    | some (out, pos') =>
      let d := root.decode pos' bits
      ⟨out ++ d.out, d.pos, d.used + 1, d.missing⟩

/-! ### The invariant -/

/-- The eight invariants of 10_state.md R54. -/
structure Rule54 (s : State) : Prop where
  a : s.treeValid = false → s.nodeCount = 0 ∧ s.leafCount = 0 ∧ s.root = Config.nil
  b : s.codesValid = true → s.treeValid = true ∧ 1 ≤ s.totalBits.toNat
  c : s.codesValid = false →
    s.totalBits = 0 ∧ ∀ x, entry s.code x = 0 ∧ entry s.len x = 0
  d : s.decState ≠ .off →
    s.codesValid = true ∧ (s.decPos = s.root ∨ s.allocated s.decPos .internal)
  e : s.decState = .done → s.decRemain = 0 ∧ s.decPos = s.root
  f : s.decState = .active → 1 ≤ s.decRemain.toNat ∨ s.errCode = .corruptStream
  g : WriterOk s
  h : s.encFlushed = true → s.accN = 0 ∧ s.acc = 0

/-- What holds in every state that a run reaches: R54 while POISONED = 0, with what makes it
inductive (the arena spells a tree, the codes are that tree's, the walk stands inside it), and the
rules on BUSY, FAULT and POISONED that hold always (R49, R50, R264). -/
structure Inv (s : State) : Prop where
  poisoned : s.poisoned = true ↔ s.errCode = .overrun
  busy : s.busy = true → s.errCode = .none ∧ s.pendCmd = s.cmd
  arena : s.poisoned = false → s.nodes.length = s.nodeCount.toNat
  rule54 : s.poisoned = false → Rule54 s
  tree : s.poisoned = false → s.treeValid = true →
    ∃ t, TreeIs s t ∧ (s.codesValid = true → CodesAre s t)
  walk : s.poisoned = false → s.decState ≠ .off →
    ∃ u : CodeTree, u.isInner = true ∧ Spells s s.decPos u

end Sys2Proof.Machine
end

