-- ==== Sys2Proof/Certificates/Slice0/Obligations.lean ====
section
/-! DEFINITION. The statements for the provers. Each formalises rules of spec/ or, where its
docstring says so, a choice of the model. -/

open Sys2Proof Sys2Proof.Machine

/-! ### Encoding and decoding -/

/-- R111 to R118: a word decodes to a command exactly when it is the word of that command and the
command is well formed. Every bit of the word is accounted for. -/
def Obligations.DecodeIsInverseOfEncode : Prop :=
  ∀ (w : Word) (i : Instr), decode w = .ok i ↔ (i.wellFormed = true ∧ encode i = w)

/-- R113, R115: the words that are no command, by their bits. -/
def Obligations.IllegalWordsExactly : Prop :=
  ∀ w : Word, (∃ r, decode w = .error r) ↔
    (w.extractLsb' 16 16 ≠ 0 ∨
      0x0B < (w.extractLsb' 0 8).toNat ∨
      ((w.extractLsb' 0 8).toNat ∈ [0x00, 0x01, 0x02, 0x03, 0x07, 0x08, 0x0A, 0x0B] ∧
        w.extractLsb' 8 8 ≠ 0) ∨
      ((w.extractLsb' 0 8).toNat = 0x05 ∧ 1 < (w.extractLsb' 8 8).toNat) ∨
      ((w.extractLsb' 0 8).toNat = 0x06 ∧ 32 < (w.extractLsb' 8 8).toNat))

/-- R112 and the vectors of 95_test_vectors.md: one word of each family. -/
def Obligations.WordsOfTheSpecDecode : Prop :=
  decode 0x00000000 = .ok .nop ∧ decode 0x00000001 = .ok .buildTree ∧
  decode 0x00000002 = .ok .assignCodes ∧ decode 0x00000105 = .ok (.wrBit true) ∧
  decode 0x00002006 = .ok (.wrCode 32) ∧ decode 0x00006204 = .ok (.encSym 0x62) ∧
  decode 0x0000AA09 = .ok (.decByte 0xAA) ∧ decode 0x0000000A = .ok .decEnd ∧
  decode 0x0000000B = .ok .clearFreq

/-! ### Steps -/

/-- R7 (the order of the steps is the model's input, log 1): a step takes the next entry of the
agenda off and does it, and is the Engine's turn when the agenda is empty. -/
def Obligations.StepTakesTheNextEvent : Prop :=
  (∀ (s : State) (e : Event) (rest : List Event),
    step { s with agenda := e :: rest } = runEvent e { s with agenda := rest }) ∧
  (∀ s : State, s.agenda = [] → step s = runEvent .engine s)

/-- R310: with a command pending and no error, the Engine's step decodes PEND_CMD, runs exactly that
command, and then clears BUSY. The first clause is the Engine's turn taken from the agenda, the
second the one it takes when the agenda is empty. -/
def Obligations.EngineRunsTheDecodedCommand : Prop :=
  ∀ (s : State) (i : Instr), s.busy = true → s.errCode = .none → decode s.pendCmd = .ok i →
    (∀ (rest : List Event) (t : State), exec i { s with agenda := rest } = .next t →
      step { s with agenda := .engine :: rest } = .next { t with busy := false }) ∧
    (∀ t : State, s.agenda = [] → exec i s = .next t → step s = .next { t with busy := false })

/-- R113, R114, R261: the Engine's step on a word that is no command takes BadCommand, records the
word, clears BUSY and changes nothing else. -/
def Obligations.IllegalWordTakesBadCommand : Prop :=
  ∀ s : State, s.busy = true → s.errCode = .none →
    (s.pendCmd.extractLsb' 16 16 ≠ 0 ∨ 0x0B < (s.pendCmd.extractLsb' 0 8).toNat ∨
      ((s.pendCmd.extractLsb' 0 8).toNat ∈ [0x00, 0x01, 0x02, 0x03, 0x07, 0x08, 0x0A, 0x0B] ∧
        s.pendCmd.extractLsb' 8 8 ≠ 0) ∨
      ((s.pendCmd.extractLsb' 0 8).toNat = 0x05 ∧ 1 < (s.pendCmd.extractLsb' 8 8).toNat) ∨
      ((s.pendCmd.extractLsb' 0 8).toNat = 0x06 ∧ 32 < (s.pendCmd.extractLsb' 8 8).toNat)) →
    runEvent .engine s = .next { s with
      errCode := .badCommand, errCmd := s.pendCmd, errInfo0 := 0, errInfo1 := 0, busy := false }

/-- R310, R264: with no command pending, and in FAULT, the Engine does nothing. -/
def Obligations.EngineRestsWhenIdleOrInFault : Prop :=
  ∀ s : State, (s.busy = false ∨ s.errCode ≠ .none) → runEvent .engine s = .next s

/-- R7, R72: a step never fails, from any state. An access at an offset of 0x4000 or more is not
decoded by the block: a write there changes nothing, even while BUSY, and a read there changes
nothing of the block; that it answers some word is the model's choice (log 4). -/
def Obligations.StepNeverFails : Prop :=
  (∀ s : State, ∃ t, step s = .next t) ∧
  (∀ (s : State) (off : Word), 0x4000 ≤ off.toNat →
    (∀ be v, runEvent (.write off be v) s = .next s) ∧
    ∃ v k, runEvent (.read off) s = .next { s with rdata := s.rdata ++ [v], draws := k })

/-! ### Reset -/

/-- R55, as the Host reads it: after reset ID, VERSION and CONFIG hold their constants, ROOT and
DEC_POS hold NIL, every other word of the window is 0, and the hidden and output state is clear. -/
def Obligations.WindowAfterReset : Prop :=
  (∀ a : Nat, a < 0x4000 → a % 4 = 0 → State.reset.register a =
    if a = 0x000 then 0x48554646 else if a = 0x004 then 0x00010000
    else if a = 0x008 then 0x01FF2820 else if a = 0x02C ∨ a = 0x058 then 0x1FF else 0) ∧
  State.reset.poisoned = false ∧ State.reset.pendCmd = 0 ∧ State.reset.encOut = [] ∧
  State.reset.decOut = []

/-- R300, R302: the hardware reset puts every piece of state at its reset value from any state,
retracts no byte, adds none when no command is pending, and otherwise adds to each stream at most
bytes that the abandoned command would have emitted. -/
def Obligations.HardwareResetFromAnyState : Prop :=
  ∀ s : State, ∃ t, runEvent .reset s = .next t ∧
    t = { State.reset with encOut := t.encOut, decOut := t.decOut, agenda := s.agenda,
                           rdata := s.rdata, draws := t.draws } ∧
    s.encOut <+: t.encOut ∧ s.decOut <+: t.decOut ∧
    (s.busy = false → t.encOut = s.encOut ∧ t.decOut = s.decOut) ∧
    (∀ u, s.busy = true → runEvent .engine s = .next u →
      t.encOut <+: u.encOut ∧ t.decOut <+: u.decOut)

/-- R301, R253: a write to CTRL is accepted in every state. With v[0] = 1 it is the reset and then
sets IRQ_EN <- v[1]; with v[0] = 0 it only sets IRQ_EN <- v[1]. SOFT_RESET reads 0. -/
def Obligations.CtrlWriteResets : Prop :=
  ∀ (s : State) (v : Word),
    (v.getLsbD 0 = true → ∃ t, runEvent .reset s = .next t ∧
      runEvent (.write 0x00C 0xF v) s = .next { t with irqEn := v.getLsbD 1 }) ∧
    (v.getLsbD 0 = false →
      runEvent (.write 0x00C 0xF v) s = .next { s with irqEn := v.getLsbD 1 }) ∧
    (s.register 0x00C).getLsbD 0 = false

/-! ### Errors -/

/-- R261: taking an error latches its code, the word being executed and its two context values, and
changes nothing else. -/
def Obligations.RaiseLatchesTheError : Prop :=
  ∀ (s : State) (e : ErrCode) (i0 i1 : Word),
    s.raise e i0 i1 = { s with errCode := e, errCmd := s.pendCmd, errInfo0 := i0, errInfo1 := i1 }

/-- R264 to R266, R28: in FAULT with no command pending, nothing but a reset changes the error
registers or anything else of the block: a write only sets IRQ_EN, and only through CTRL. -/
def Obligations.FaultIsLatched : Prop :=
  ∀ (s t : State) (e : Event), s.errCode ≠ .none → s.busy = false → e ≠ .reset →
    (∀ off v, e = .write off 0xF v → wordOffset off = 0x00C → v.getLsbD 0 = false) →
    runEvent e s = .next t →
    t = { s with irqEn := t.irqEn, rdata := t.rdata, draws := t.draws } ∧
    ((∀ off v, e = .write off 0xF v → wordOffset off ≠ 0x00C) → t.irqEn = s.irqEn)

/-- R268: a write other than to CTRL while BUSY is Overrun: the error registers name the pending
command, the offset and the data, POISONED is set, BUSY is cleared, IRQ_EN stays, and each stream
gains at most bytes that the abandoned command would have emitted. That IRQ_EN stays is the model's
reading of what R268 leaves open (DEDUCED, log 6), and so is that a write without all byte enables
puts its whole bus word in ERR_INFO1 (DEDUCED, log 5). -/
def Obligations.WriteWhileBusyIsOverrun : Prop :=
  ∀ (s : State) (off v : Word) (be : BitVec 4), s.busy = true → off.toNat < 0x4000 →
    wordOffset off ≠ 0x00C →
    ∃ t, runEvent (.write off be v) s = .next t ∧
      t.errCode = .overrun ∧ t.errCmd = s.pendCmd ∧
      t.errInfo0 = (off.extractLsb' 2 30 ++ 0#2 : BitVec (30 + 2)) ∧ t.errInfo1 = v ∧
      t.poisoned = true ∧ t.busy = false ∧ t.irqEn = s.irqEn ∧
      t.agenda = s.agenda ∧ t.rdata = s.rdata ∧
      s.encOut <+: t.encOut ∧ s.decOut <+: t.decOut ∧
      (∀ u, runEvent .engine s = .next u → t.encOut <+: u.encOut ∧ t.decOut <+: u.decOut)

/-! ### Reads -/

/-- R25, R272: STATUS reads exactly in every state, field by field, and a write to it has no
effect. -/
def Obligations.StatusReadsExactly : Prop :=
  ∀ s : State, ∃ v : Word,
    runEvent (.read 0x010) s = .next { s with rdata := s.rdata ++ [v] } ∧
    v.getLsbD 0 = s.busy ∧ v.getLsbD 1 = (s.errCode != .none) ∧ v.getLsbD 2 = s.treeValid ∧
    v.getLsbD 3 = s.codesValid ∧ v.getLsbD 4 = s.encFlushed ∧
    v.extractLsb' 5 2 = (match s.decState with | .off => 0 | .active => 1 | .done => 2) ∧
    v.getLsbD 7 = (s.errCode != .none && s.irqEn) ∧ v.extractLsb' 8 24 = 0 ∧
    (∀ w, s.busy = false → runEvent (.write 0x010 0xF w) s = .next s)

/-- R75, R81: a read of the window changes no state of the block. The model's own fields record it
(log 2, log 3). R75 and R81 do not speak of offsets of 0x4000 and above: the block does not decode
those (R72), and that a read there answers a word and adds it to rdata is the model's choice (DESIGN
CHOICE, log 4). -/
def Obligations.ReadsChangeNoBlockState : Prop :=
  ∀ (s : State) (off : Word),
    ∃ v k, runEvent (.read off) s = .next { s with rdata := s.rdata ++ [v], draws := k }

/-- R76: ID, VERSION, CONFIG and STATUS read exactly in every state, the four error registers also
in a poisoned block that is not BUSY, and every register when the block is neither. What each
register holds is said by StatusReadsExactly, ArraysReadBack, NodeReadBack and
ControlRegistersReadBack. -/
def Obligations.ExactReads : Prop :=
  ∀ (s : State) (off : Word), off.toNat < 0x4000 →
    (wordOffset off ∈ [0x000, 0x004, 0x008, 0x010] ∨
      (s.busy = false ∧ wordOffset off ∈ [0x01C, 0x020, 0x024, 0x028]) ∨
      (s.busy = false ∧ s.poisoned = false)) →
    runEvent (.read off) s =
      .next { s with rdata := s.rdata ++ [s.register (wordOffset off)] }

/-- R45 to R47, R72, R80: FREQ[x], CODE[x] and LEN[x] read at 0x400, 0x800 and 0xC00 + 4·x, whatever
the offset's two low bits. -/
def Obligations.ArraysReadBack : Prop :=
  ∀ (s : State) (x : Byte) (k : Nat), k < 4 → s.busy = false → s.poisoned = false →
    runEvent (.read (BitVec.ofNat 32 (0x400 + 4 * x.toNat + k))) s =
      .next { s with rdata := s.rdata ++ [entry s.freq x] } ∧
    runEvent (.read (BitVec.ofNat 32 (0x800 + 4 * x.toNat + k))) s =
      .next { s with rdata := s.rdata ++ [entry s.code x] } ∧
    runEvent (.read (BitVec.ofNat 32 (0xC00 + 4 * x.toNat + k))) s =
      .next { s with rdata := s.rdata ++ [(entry s.len x).setWidth 32] }

/-- R44: the four words of NODE[i]: DESC, the low and the high word of WEIGHT, and 0; all 0 at or
above NODE_COUNT. -/
def Obligations.NodeReadBack : Prop :=
  ∀ (s : State) (i : Nat), i < 512 →
    (∀ n, i < s.nodeCount.toNat → s.nodes[i]? = some n →
      (s.register (0x2000 + 16 * i)).getLsbD 31 = (n.kind == .internal) ∧
      (s.register (0x2000 + 16 * i)).extractLsb' 27 4 = 0 ∧
      (s.register (0x2000 + 16 * i)).extractLsb' 18 9 = n.right ∧
      (s.register (0x2000 + 16 * i)).extractLsb' 9 9 = n.left ∧
      (s.register (0x2000 + 16 * i)).getLsbD 8 = false ∧
      (s.register (0x2000 + 16 * i)).extractLsb' 0 8 = n.sym ∧
      s.register (0x2000 + 16 * i + 4) = n.weight.extractLsb' 0 32 ∧
      s.register (0x2000 + 16 * i + 8) = (n.weight.extractLsb' 32 8).setWidth 32 ∧
      s.register (0x2000 + 16 * i + 12) = 0) ∧
    (s.nodeCount.toNat ≤ i → ∀ k ∈ [0, 4, 8, 12], s.register (0x2000 + 16 * i + k) = 0)

/-! ### Writes -/

/-- R311: an accepted write of w to CMD sets CMD, PEND_CMD and BUSY, and nothing else. -/
def Obligations.CmdWriteIssues : Prop :=
  ∀ (s : State) (w : Word), s.busy = false → s.errCode = .none →
    runEvent (.write 0x014 0xF w) s = .next { s with cmd := w, pendCmd := w, busy := true }

/-- R252, R58: an accepted write of v to FREQ[x] stores v, leaves every other frequency alone, and
invalidates the tree and the codes, even when the value does not change. -/
def Obligations.FreqWriteInvalidates : Prop :=
  ∀ (s : State) (x : Byte) (v : Word), s.busy = false → s.errCode = .none →
    ∃ t, runEvent (.write (BitVec.ofNat 32 (0x400 + 4 * x.toNat)) 0xF v) s = .next t ∧
      entry t.freq x = v ∧ (∀ y, y ≠ x → entry t.freq y = entry s.freq y) ∧
      t.treeValid = false ∧ t.nodeCount = 0 ∧ t.leafCount = 0 ∧ t.nodes = [] ∧ t.root = 0x1FF ∧
      t.codesValid = false ∧ t.totalBits = 0 ∧ (∀ y, entry t.code y = 0 ∧ entry t.len y = 0) ∧
      t.decState = .off ∧
      t.decRemain = s.decRemain ∧ t.decPos = s.decPos ∧ t.decBytes = s.decBytes ∧
      t.decExtra = s.decExtra ∧ t.decSyms = s.decSyms ∧ t.decOut = s.decOut ∧
      SameWriter s t ∧ SameErrors s t ∧ SameControl s t ∧ SameModel s t

/-- R73, R77, R254: with no command pending, a write without all four byte enables is dropped; an
accepted write to CMD_ARG sets CMD_ARG and nothing else; a write to any offset but CTRL, CMD,
CMD_ARG and FREQ has no effect. -/
def Obligations.OtherWritesHaveNoEffect : Prop :=
  ∀ (s : State) (off v : Word), off.toNat < 0x4000 → s.busy = false →
    (∀ be, be ≠ 0xF#4 → runEvent (.write off be v) s = .next s) ∧
    (s.errCode = .none →
      runEvent (.write 0x018 0xF v) s = .next { s with cmdArg := v }) ∧
    (wordOffset off ≠ 0x00C → wordOffset off ≠ 0x014 → wordOffset off ≠ 0x018 →
      (wordOffset off < 0x400 ∨ 0x800 ≤ wordOffset off) →
      runEvent (.write off 0xF v) s = .next s)

/-! ### Invalidation -/

/-- R57: InvalidateCodes clears CODE, LEN, TOTAL_BITS and CODES_VALID and stops the decoder; the
decoder's position and counters, and everything else, keep their values. -/
def Obligations.InvalidateCodesClears : Prop :=
  ∀ s : State,
    (∀ x, entry s.invalidateCodes.code x = 0 ∧ entry s.invalidateCodes.len x = 0) ∧
    s.invalidateCodes = { s with code := s.invalidateCodes.code, len := s.invalidateCodes.len,
                                 totalBits := 0, codesValid := false, decState := .off }

/-- R58: InvalidateTree clears NODE_COUNT, so that every NODE entry reads 0, LEAF_COUNT and
TREE_VALID, sets ROOT to NIL, and invalidates the codes. -/
def Obligations.InvalidateTreeClears : Prop :=
  ∀ s : State,
    s.invalidateTree =
      { s.invalidateCodes with nodes := [], nodeCount := 0, leafCount := 0, root := 0x1FF,
                               treeValid := false } ∧
    ∀ i < 512, ∀ k ∈ [0, 4, 8, 12], s.invalidateTree.register (0x2000 + 16 * i + k) = 0

/-! ### Control commands -/

/-- R250: NOP completes in every state and changes nothing. -/
def Obligations.NopCompletes : Prop := ∀ s : State, exec .nop s = .next s

/-- R251: CLEAR_FREQ completes in every state: every frequency is 0, the tree and the codes are
invalid, and the rest is unchanged. -/
def Obligations.ClearFreqCompletes : Prop :=
  ∀ s : State, ∃ t, exec .clearFreq s = .next t ∧ (∀ x, entry t.freq x = 0) ∧
    t = { s.invalidateTree with freq := t.freq }

/-! ### TreeBuilder -/

/-- R142: BUILD_TREE takes BadFrequency for the smallest symbol whose frequency has bit 31 set, with
that symbol and its frequency as context, before anything is built. -/
def Obligations.BuildTreeRejectsBadFrequency : Prop :=
  ∀ (s : State) (x : Byte), (entry s.freq x).getLsbD 31 = true →
    (∀ y : Byte, y.toNat < x.toNat → (entry s.freq y).getLsbD 31 = false) →
    exec .buildTree s = .next { s.invalidateTree with
      errCode := .badFrequency, errCmd := s.pendCmd, errInfo0 := x.setWidth 32,
      errInfo1 := entry s.freq x } ∧
    s.invalidateTree.nodes = [] ∧ s.invalidateTree.nodeCount = 0

/-- R143: BUILD_TREE of a table that is 0 everywhere takes EmptyInput with context 0, 0, and the
tree stays invalid. -/
def Obligations.BuildTreeRejectsEmptyTable : Prop :=
  ∀ s : State, (∀ x, entry s.freq x = 0) →
    ∃ t, exec .buildTree s = .next t ∧
      t.errCode = .emptyInput ∧ t.errInfo0 = 0 ∧ t.errInfo1 = 0 ∧ t.errCmd = s.pendCmd ∧
      t.treeValid = false ∧ t.nodeCount = 0 ∧ t.leafCount = 0 ∧ t.root = 0x1FF ∧
      t.codesValid = false ∧ t.decState = .off ∧
      t = { s.invalidateTree with errCode := t.errCode, errCmd := t.errCmd,
                                  errInfo0 := t.errInfo0, errInfo1 := t.errInfo1 }

/-- R140, R141, R144, R145, R148 to R152, R32: BUILD_TREE of a table with no bit 31 set and some
symbol of non-zero frequency completes: TREE_VALID = 1, the arena spells one tree, with exact
weights, whose leaves are the symbols of non-zero frequency; node k is the leaf of the k-th of them in
ascending order; with two of them or more the arena is what the merge makes of these leaves and the
candidates 0, 1, ..., and ROOT is the candidate it leaves; ROOT is the last node made; NODE_COUNT
follows from LEAF_COUNT; the codes are invalid; FREQ, the writer, the streams and the rest are
unchanged. What the merge does is said by RemoveMinTakesTheSmallestKey and
MergeStepJoinsTheTwoSmallest. -/
def Obligations.BuildTreeCompletes : Prop :=
  ∀ s : State, (∀ x, (entry s.freq x).getLsbD 31 = false) → (∃ x, entry s.freq x ≠ 0) →
    ∃ t tree, exec .buildTree s = .next t ∧ t.treeValid = true ∧ TreeIs t tree ∧
      t.root.toNat + 1 = t.nodeCount.toNat ∧ t.nodes.length = t.nodeCount.toNat ∧
      t.nodeCount.toNat =
        (if t.leafCount.toNat = 1 then 2 else 2 * t.leafCount.toNat - 1) ∧
      leafSymbols s.freq = symbols.filter (fun x => entry s.freq x != 0) ∧
      t.leafCount.toNat = (leafSymbols s.freq).length ∧
      (∀ (k : Nat) (x : Byte), (leafSymbols s.freq)[k]? = some x →
        t.nodes[k]? = some ⟨.leaf, x, (entry s.freq x).setWidth 40, 0x1FF, 0x1FF⟩) ∧
      (2 ≤ (leafSymbols s.freq).length →
        mergeLoop (leafSymbols s.freq).length (t.nodes.take (leafSymbols s.freq).length)
          (List.range (leafSymbols s.freq).length) = (t.nodes, [t.root.toNat])) ∧
      t = { s.invalidateCodes with treeValid := true, root := t.root, nodeCount := t.nodeCount,
                                   leafCount := t.leafCount, nodes := t.nodes }

/-- R147: with exactly one symbol of non-zero frequency, node 0 is its leaf and node 1 the root, an
internal node with LEFT = 0, RIGHT = NIL and the leaf's weight. -/
def Obligations.SingleSymbolTree : Prop :=
  ∀ (s : State) (x : Byte), entry s.freq x ≠ 0 → (entry s.freq x).getLsbD 31 = false →
    (∀ y, y ≠ x → entry s.freq y = 0) →
    ∃ t, exec .buildTree s = .next t ∧ t.nodeCount = 2 ∧ t.leafCount = 1 ∧ t.root = 1 ∧
      t.nodes = [⟨.leaf, x, (entry s.freq x).setWidth 40, 0x1FF, 0x1FF⟩,
                 ⟨.internal, 0, (entry s.freq x).setWidth 40, 0, 0x1FF⟩]

/-- R144: removeMin takes the candidate of the smallest weight, and of the smallest index among
equal weights, off the list, and leaves the others. Only an empty list has none. -/
def Obligations.RemoveMinTakesTheSmallestKey : Prop :=
  (∀ (arena : List Node) (q q' : List Nat) (m : Nat), removeMin arena q = some (m, q') →
    m ∈ q ∧ q' = q.erase m ∧
    ∀ y ∈ q, (weightOf arena m).toNat < (weightOf arena y).toNat ∨
      ((weightOf arena m).toNat = (weightOf arena y).toNat ∧ m ≤ y)) ∧
  (∀ (arena : List Node) (q : List Nat), q ≠ [] → ∃ m q', removeMin arena q = some (m, q'))

/-- R145: the merge makes the node removed first the left child and the second the right child of a
new node, whose weight is their sum and whose index is the next free one. The loop ends when one
candidate is left. -/
def Obligations.MergeStepJoinsTheTwoSmallest : Prop :=
  (∀ (fuel : Nat) (arena : List Node) (q q1 q2 : List Nat) (a b : Nat),
    removeMin arena q = some (a, q1) → removeMin arena q1 = some (b, q2) →
    mergeLoop (fuel + 1) arena q =
      mergeLoop fuel
        (arena ++ [⟨.internal, 0, weightOf arena a + weightOf arena b, BitVec.ofNat 9 a,
                    BitVec.ofNat 9 b⟩])
        (q2 ++ [arena.length])) ∧
  (∀ (fuel : Nat) (arena : List Node) (r : Nat), mergeLoop fuel arena [r] = (arena, [r]))

/-! ### CodeAssigner -/

/-- R171: ASSIGN_CODES with TREE_VALID = 0 takes NotReady with context 0, 0 and changes nothing
else. -/
def Obligations.AssignCodesNeedsATree : Prop :=
  ∀ s : State, s.treeValid = false → exec .assignCodes s = .next { s with
    errCode := .notReady, errCmd := s.pendCmd, errInfo0 := 0, errInfo1 := 0 }

/-- R170, R174 to R177: ASSIGN_CODES on a tree no leaf of which is deeper than 32 completes: every
symbol gets its path as CODE and LEN, a symbol that is no leaf gets 0 and 0, TOTAL_BITS is the exact
sum of FREQ × LEN, CODES_VALID = 1, the decoder is off, and the tree and the rest are unchanged. -/
def Obligations.AssignCodesCompletes : Prop :=
  ∀ (s : State) (tree : CodeTree), s.treeValid = true → TreeIs s tree →
    (∀ x, (tree.path x).length ≤ 32) →
    ∃ t, exec .assignCodes s = .next t ∧ t.codesValid = true ∧
      (∀ x, (entry t.len x).toNat = (tree.path x).length ∧
        (entry t.code x).toNat = bitsValue (tree.path x)) ∧
      (∀ x, entry s.freq x = 0 → entry t.len x = 0 ∧ entry t.code x = 0) ∧
      t.totalBits.toNat = (symbols.map fun x =>
        (entry s.freq x).toNat * (tree.path x).length).sum ∧
      1 ≤ t.totalBits.toNat ∧
      t = { s with codesValid := true, decState := .off, totalBits := t.totalBits,
                   code := t.code, len := t.len }

/-- R173: ASSIGN_CODES on a tree with a leaf deeper than 32 takes CodeLengthOverflow with the
smallest such symbol and its depth, and stores no code; the tree stays valid. -/
def Obligations.AssignCodesOverflows : Prop :=
  ∀ (s : State) (tree : CodeTree) (x : Byte), s.treeValid = true → TreeIs s tree →
    32 < (tree.path x).length →
    (∀ y : Byte, y.toNat < x.toNat → (tree.path y).length ≤ 32) →
    exec .assignCodes s = .next { s.invalidateCodes with
      errCode := .codeLengthOverflow, errCmd := s.pendCmd, errInfo0 := x.setWidth 32,
      errInfo1 := BitVec.ofNat 32 (tree.path x).length }

/-- R180: run again on the same valid tree, after anything that leaves the tree and FREQ alone,
ASSIGN_CODES writes the same CODE, LEN and TOTAL_BITS, and stops a decode in progress. -/
def Obligations.AssignCodesRepeats : Prop :=
  ∀ s t u : State, s.treeValid = true → exec .assignCodes s = .next t → t.codesValid = true →
    SameTree t u → SameFreq t u →
    ∃ u', exec .assignCodes u = .next u' ∧ u'.code = t.code ∧ u'.len = t.len ∧
      u'.totalBits = t.totalBits ∧ u'.codesValid = true ∧ u'.decState = .off

/-- R178: in a state that meets the invariant, with valid codes, no code of a symbol of the table
begins the code of another. -/
def Obligations.CodesArePrefixFree : Prop :=
  ∀ s : State, Inv s → s.poisoned = false → s.codesValid = true →
    ∀ x y : Byte, x ≠ y → entry s.freq x ≠ 0 → entry s.freq y ≠ 0 →
      ¬ s.symbolBits x <+: s.symbolBits y

/-- R179: in a state that meets the invariant with valid codes, the sum of 2^(−LEN) over the symbols
that have a code is 1 with two leaves or more, and 1/2 with one (here times 2^32). -/
def Obligations.KraftSum : Prop :=
  ∀ s : State, Inv s → s.poisoned = false → s.codesValid = true →
    ((leafSymbols s.freq).map fun x => 2 ^ (32 - (entry s.len x).toNat)).sum =
      if s.leafCount = 1 then 2 ^ 31 else 2 ^ 32

/-! ### BitWriter -/

/-- R191: ENC_START completes in every state: it empties the accumulator, clears ENC_BITS and opens
the writer, and changes nothing else. -/
def Obligations.EncStartCompletes : Prop :=
  ∀ s : State, exec .encStart s =
    .next { s with acc := 0, accN := 0, encBits := 0, encFlushed := false }

/-- R190, R193, R194: WR_BIT on an open writer completes: the bit joins the stream at its end,
ENC_BITS goes up by one, the accumulator stays in its range, and nothing else changes. -/
def Obligations.WrBitCompletes : Prop :=
  ∀ (s : State) (b : Bool), s.encFlushed = false → WriterOk s →
    ∃ t, exec (.wrBit b) s = .next t ∧ t.encStream = s.encStream ++ [b] ∧ WriterOk t ∧
      t = { s with acc := t.acc, accN := t.accN, encOut := t.encOut, encBits := s.encBits + 1 }

/-- R195, R196: WR_CODE L on an open writer completes: the bits CMD_ARG[L−1], ..., CMD_ARG[0] join
the stream in that order, ENC_BITS goes up by L, and nothing else changes. For L = 0 nothing does. -/
def Obligations.WrCodeCompletes : Prop :=
  ∀ (s : State) (len : Byte), len.toNat ≤ 32 → s.encFlushed = false → WriterOk s →
    ∃ t, exec (.wrCode len) s = .next t ∧
      t.encStream = s.encStream ++
        (List.range len.toNat).map (fun i => s.cmdArg.getLsbD (len.toNat - 1 - i)) ∧
      WriterOk t ∧ (len = 0 → t = s) ∧
      t = { s with acc := t.acc, accN := t.accN, encOut := t.encOut,
                   encBits := s.encBits + BitVec.ofNat 64 len.toNat }

/-- R197: ENC_SYM x with valid codes, an open writer and a symbol that has a code completes: the
LEN[x] low bits of CODE[x] join the stream, the most significant first, ENC_BITS goes up by LEN[x],
and nothing else changes. -/
def Obligations.EncSymCompletes : Prop :=
  ∀ (s : State) (x : Byte), s.codesValid = true → s.encFlushed = false → entry s.len x ≠ 0 →
    WriterOk s →
    ∃ t, exec (.encSym x) s = .next t ∧
      t.encStream = s.encStream ++ (List.range (entry s.len x).toNat).map
        (fun i => (entry s.code x).getLsbD ((entry s.len x).toNat - 1 - i)) ∧
      WriterOk t ∧
      t = { s with acc := t.acc, accN := t.accN, encOut := t.encOut,
                   encBits := s.encBits + BitVec.ofNat 64 (entry s.len x).toNat }

/-- R197, R198, R270: ENC_SYM x takes NotReady without valid codes, then WriteAfterFlush on a
flushed writer, then NoCode with context x, 0, in that order; it writes no bit. -/
def Obligations.EncSymErrors : Prop :=
  ∀ (s : State) (x : Byte),
    (s.codesValid = false → exec (.encSym x) s = .next { s with
      errCode := .notReady, errCmd := s.pendCmd, errInfo0 := 0, errInfo1 := 0 }) ∧
    (s.codesValid = true → s.encFlushed = true → exec (.encSym x) s = .next { s with
      errCode := .writeAfterFlush, errCmd := s.pendCmd, errInfo0 := 0, errInfo1 := 0 }) ∧
    (s.codesValid = true → s.encFlushed = false → entry s.len x = 0 →
      exec (.encSym x) s = .next { s with
        errCode := .noCode, errCmd := s.pendCmd, errInfo0 := x.setWidth 32, errInfo1 := 0 })

/-- R200, R201: FLUSH on an open writer completes: ENC_OUT then holds exactly the bits of the stream
and at most seven 0 bits after them, the accumulator is empty, the writer is flushed, ENC_BITS and
the rest are unchanged. -/
def Obligations.FlushCompletes : Prop :=
  ∀ s : State, s.encFlushed = false → WriterOk s →
    ∃ t pad, exec .flush s = .next t ∧ pad < 8 ∧
      t.encOut.flatMap byteBits = s.encStream ++ List.replicate pad false ∧
      t = { s with acc := 0, accN := 0, encFlushed := true, encOut := t.encOut }

/-- R203: WR_BIT, WR_CODE and FLUSH on a flushed writer, and ENC_SYM when the codes are valid, take
WriteAfterFlush with context 0, 0 and change nothing else. -/
def Obligations.FlushedWriterRefusesWrites : Prop :=
  ∀ (s : State) (i : Instr), s.encFlushed = true →
    ((∃ b, i = .wrBit b) ∨ (∃ len, i = .wrCode len) ∨ i = .flush ∨
      (s.codesValid = true ∧ ∃ x, i = .encSym x)) →
    exec i s = .next { s with
      errCode := .writeAfterFlush, errCmd := s.pendCmd, errInfo0 := 0, errInfo1 := 0 }

/-! ### BitReader -/

/-- R221, R223: DEC_START with a valid tree and valid codes completes from any decoder state: the
budget is TOTAL_BITS, the walk is at the root, the counters are 0, the decoder is ACTIVE (DONE if
the budget is 0), and nothing else changes. -/
def Obligations.DecStartCompletes : Prop :=
  ∀ s : State, s.treeValid = true → s.codesValid = true →
    exec .decStart s = .next { s with
      decRemain := s.totalBits, decPos := s.root, decBytes := 0, decExtra := 0, decSyms := 0,
      decState := if s.totalBits = 0 then .done else .active }

/-- R222, R225, R231: DEC_START without a valid tree and valid codes, and DEC_BYTE and DEC_END with
the decoder OFF, take NotReady with context 0, 0 and change nothing else. -/
def Obligations.DecoderNotReady : Prop :=
  ∀ (s : State) (i : Instr),
    ((i = .decStart ∧ (s.treeValid = false ∨ s.codesValid = false)) ∨
      (s.decState = .off ∧ ((∃ v, i = .decByte v) ∨ i = .decEnd))) →
    exec i s = .next { s with
      errCode := .notReady, errCmd := s.pendCmd, errInfo0 := 0, errInfo1 := 0 }

/-- R224 to R230: DEC_BYTE of an ACTIVE decoder does what decoding the byte's leading
min(8, DEC_REMAIN) bits on the tree does. It completes without an error while bits remain, completes
DONE when the budget ends at the root, and takes CorruptStream when the budget ends off the root
(reason 0) or a bit selects a missing child (reason 1). The bits read are counted off DEC_REMAIN, the
symbols are emitted and counted, DEC_BYTES counts the byte, and the rest is unchanged. -/
def Obligations.DecByteDecodesOnTheTree : Prop :=
  ∀ (s : State) (v : Byte) (tree pos : CodeTree), s.decState = .active → 1 ≤ s.decRemain.toNat →
    TreeIs s tree → pos.isInner = true → Spells s s.decPos pos →
    ∃ t d, d = tree.decode pos
        (((List.range 8).map fun i => v.getLsbD (7 - i)).take (min 8 s.decRemain.toNat)) ∧
      exec (.decByte v) s = .next t ∧
      Spells t t.decPos d.pos ∧
      t.decRemain.toNat = s.decRemain.toNat - d.used ∧
      t.decOut = s.decOut ++ d.out ∧ t.decSyms = s.decSyms + BitVec.ofNat 64 d.out.length ∧
      (d.missing = true → t.decState = .active ∧ t.errCode = .corruptStream ∧ t.errInfo0 = 1 ∧
        t.errInfo1 = t.decPos.setWidth 32 ∧ t.errCmd = s.pendCmd) ∧
      (d.missing = false → t.decRemain.toNat ≠ 0 → t.decState = .active ∧ SameErrors s t) ∧
      (d.missing = false → t.decRemain.toNat = 0 → t.decPos = t.root →
        t.decState = .done ∧ SameErrors s t) ∧
      (d.missing = false → t.decRemain.toNat = 0 → t.decPos ≠ t.root →
        t.decState = .active ∧ t.errCode = .corruptStream ∧ t.errInfo0 = 0 ∧
        t.errInfo1 = t.decPos.setWidth 32 ∧ t.errCmd = s.pendCmd) ∧
      t = { s with
        decBytes := s.decBytes + 1, decRemain := t.decRemain, decPos := t.decPos,
        decOut := t.decOut, decSyms := t.decSyms, decState := t.decState,
        errCode := t.errCode, errCmd := t.errCmd, errInfo0 := t.errInfo0, errInfo1 := t.errInfo1 }

/-- R235, R228: decoding the path of a symbol's leaf from the root emits exactly that symbol, goes
back to the root and counts one symbol and the path's bits; nothing else changes. -/
def Obligations.PathOfASymbolEmitsIt : Prop :=
  ∀ (s : State) (tree : CodeTree) (x : Byte) (p : List Bool), TreeIs s tree →
    (x, p) ∈ tree.paths → s.decPos = s.root →
    s.decodeBits p = .ok { s with
      decRemain := s.decRemain - BitVec.ofNat 64 p.length, decOut := s.decOut ++ [x],
      decSyms := s.decSyms + 1 }

/-- R227: two bytes that agree on their leading min(8, DEC_REMAIN) bits have the same effect: the
padding bits are not read. -/
def Obligations.PaddingBitsAreIgnored : Prop :=
  ∀ (s : State) (v w : Byte),
    (∀ i, i < min 8 s.decRemain.toNat → v.getLsbD (7 - i) = w.getLsbD (7 - i)) →
    exec (.decByte v) s = exec (.decByte w) s

/-- R233: a DEC_BYTE in DONE counts the byte in DEC_EXTRA and does nothing else. -/
def Obligations.DecByteAfterTheBudget : Prop :=
  ∀ (s : State) (v : Byte), s.decState = .done →
    exec (.decByte v) s = .next { s with decExtra := s.decExtra + 1 }

/-- R231, R232: DEC_END in DONE completes and changes nothing; in ACTIVE it takes TruncatedStream
with the low words of DEC_BYTES and DEC_REMAIN and changes nothing else. -/
def Obligations.DecEndChecksTheBudget : Prop :=
  ∀ s : State,
    (s.decState = .done → exec .decEnd s = .next s) ∧
    (s.decState = .active → exec .decEnd s = .next { s with
      errCode := .truncatedStream, errCmd := s.pendCmd,
      errInfo0 := s.decBytes.extractLsb' 0 32, errInfo1 := s.decRemain.extractLsb' 0 32 })

/-! ### The whole machine -/

/-- R52: in every step ENC_OUT and DEC_OUT only grow at their end. -/
def Obligations.OutputsOnlyGrow : Prop :=
  ∀ s t : State, step s = .next t → s.encOut <+: t.encOut ∧ s.decOut <+: t.decOut

/-- R87: a command emits to at most one of the two streams; only DEC_BYTE to DEC_OUT, only WR_BIT,
WR_CODE, ENC_SYM and FLUSH to ENC_OUT. -/
def Obligations.OneStreamForEachCommand : Prop :=
  ∀ (i : Instr) (s t : State), exec i s = .next t →
    (t.decOut ≠ s.decOut → ∃ v, i = .decByte v) ∧
    (t.encOut ≠ s.encOut →
      (∃ b, i = .wrBit b) ∨ (∃ len, i = .wrCode len) ∨ (∃ x, i = .encSym x) ∨ i = .flush)

/-- R27: no command writes CMD_ARG, and none but WR_CODE reads it: with another value there, every
other command does the same. -/
def Obligations.OnlyWrCodeReadsCmdArg : Prop :=
  ∀ (i : Instr) (s t : State) (v : Word), exec i s = .next t →
    t.cmdArg = s.cmdArg ∧
    ((∀ len, i ≠ .wrCode len) → exec i { s with cmdArg := v } = .next { t with cmdArg := v })

/-- The invariant of the model, R54 with what makes it inductive, holds after reset, whatever the
agenda. -/
def Obligations.ResetMeetsTheInvariant : Prop :=
  ∀ es : List Event, Inv (State.reset.withAgenda es)

/-- R54: every step from every state that meets the invariant keeps it: the flags, the arena, the
codes, the writer and the decoder stay consistent. -/
def Obligations.StepKeepsTheInvariant : Prop :=
  ∀ s t : State, Inv s → step s = .next t → Inv t

/-- R322, R320, R321, R96: for every non-empty byte string whose counts are below 2^31, if the encode
sequence from reset ends without an error, the decode sequence on its header, read back from the file,
and its payload ends without an error, DONE, with no byte left over and the string in DEC_OUT. How many
reads each POLL makes before the Engine's turn is free; that this turn falls into the POLL is the
model's choice (log 16). -/
def Obligations.RoundTrip : Prop :=
  ∀ (xs : List Byte) (late late' : Nat → Nat) (s : State), xs ≠ [] →
    (∀ x, xs.count x < 2 ^ 31) →
    runListing late (encodeSequence xs) State.reset = .next s → s.errCode = .none →
    ∃ t, runListing late'
        (decodeSequence
          (tabulate (headerEntry (headerBytes (counts xs) ++ s.encOut)))
          ((headerBytes (counts xs) ++ s.encOut).drop 1024)) State.reset = .next t ∧
      t.errCode = .none ∧ t.decState = .done ∧ t.decExtra = 0 ∧ t.decOut = xs

/-- R23, R24, R26 to R36, R39 to R43, R80, R260: the word of every register below FREQ, in every
state: the constants of ID, VERSION and CONFIG, IRQ_EN in bit 1 of CTRL, the number of the error in
ERR_CODE, the two words of each 64-bit register, ACC and ACC_N in their fields of ENC_ACC; reserved
offsets and fields read 0. Last, R72: a read at any offset is of the word that the offset lies in. -/
def Obligations.ControlRegistersReadBack : Prop :=
  (∀ s : State,
    s.register 0x000 = 0x48554646 ∧ s.register 0x004 = 0x00010000 ∧
    s.register 0x008 = 0x01FF2820 ∧
    (∀ i < 32, (s.register 0x00C).getLsbD i = (decide (i = 1) && s.irqEn)) ∧
    s.register 0x014 = s.cmd ∧ s.register 0x018 = s.cmdArg ∧
    s.register 0x01C = (match s.errCode with
      | .none => 0 | .emptyInput => 1 | .codeLengthOverflow => 2 | .truncatedStream => 3
      | .corruptStream => 4 | .badFrequency => 5 | .notReady => 6 | .noCode => 7
      | .writeAfterFlush => 8 | .badCommand => 9 | .overrun => 10) ∧
    s.register 0x020 = s.errCmd ∧ s.register 0x024 = s.errInfo0 ∧ s.register 0x028 = s.errInfo1 ∧
    (s.register 0x02C).toNat = s.root.toNat ∧ (s.register 0x030).toNat = s.nodeCount.toNat ∧
    (s.register 0x034).toNat = s.leafCount.toNat ∧
    s.register 0x03C ++ s.register 0x038 = s.totalBits ∧
    (s.register 0x040).extractLsb' 0 8 = s.acc ∧ (s.register 0x040).extractLsb' 8 4 = s.accN ∧
    (s.register 0x040).extractLsb' 12 20 = 0 ∧
    s.register 0x04C ++ s.register 0x048 = s.encBits ∧
    s.register 0x054 ++ s.register 0x050 = s.decRemain ∧
    (s.register 0x058).toNat = s.decPos.toNat ∧
    s.register 0x064 ++ s.register 0x060 = s.decBytes ∧
    s.register 0x06C ++ s.register 0x068 = s.decExtra ∧
    s.register 0x074 ++ s.register 0x070 = s.decSyms ∧
    ∀ a, a = 0x044 ∨ a = 0x05C ∨ (0x078 ≤ a ∧ a < 0x400) ∨ (0x1000 ≤ a ∧ a < 0x2000) →
      s.register a = 0) ∧
  ∀ off : Word, wordOffset off % 4 = 0 ∧ wordOffset off ≤ off.toNat ∧
    off.toNat < wordOffset off + 4
end

