-- ==== Sys2Proof/Laws/State.lean ====
section
/-! SUPPORT. One lemma for each field of State under each shared update, so that no later proof
unfolds an update. -/

namespace Sys2Proof.Machine.State

variable (s : State)

@[simp] theorem reset_irqEn : State.reset.irqEn = false := rfl
@[simp] theorem reset_busy : State.reset.busy = false := rfl
@[simp] theorem reset_cmd : State.reset.cmd = 0 := rfl
@[simp] theorem reset_cmdArg : State.reset.cmdArg = 0 := rfl
@[simp] theorem reset_pendCmd : State.reset.pendCmd = 0 := rfl
@[simp] theorem reset_errCode : State.reset.errCode = .none := rfl
@[simp] theorem reset_errCmd : State.reset.errCmd = 0 := rfl
@[simp] theorem reset_errInfo0 : State.reset.errInfo0 = 0 := rfl
@[simp] theorem reset_errInfo1 : State.reset.errInfo1 = 0 := rfl
@[simp] theorem reset_poisoned : State.reset.poisoned = false := rfl
@[simp] theorem reset_treeValid : State.reset.treeValid = false := rfl
@[simp] theorem reset_root : State.reset.root = Config.nil := rfl
@[simp] theorem reset_nodeCount : State.reset.nodeCount = 0 := rfl
@[simp] theorem reset_leafCount : State.reset.leafCount = 0 := rfl
@[simp] theorem reset_nodes : State.reset.nodes = [] := rfl
@[simp] theorem reset_codesValid : State.reset.codesValid = false := rfl
@[simp] theorem reset_totalBits : State.reset.totalBits = 0 := rfl
@[simp] theorem reset_code : State.reset.code = fill 0 := rfl
@[simp] theorem reset_len : State.reset.len = fill 0 := rfl
@[simp] theorem reset_freq : State.reset.freq = fill 0 := rfl
@[simp] theorem reset_acc : State.reset.acc = 0 := rfl
@[simp] theorem reset_accN : State.reset.accN = 0 := rfl
@[simp] theorem reset_encBits : State.reset.encBits = 0 := rfl
@[simp] theorem reset_encFlushed : State.reset.encFlushed = false := rfl
@[simp] theorem reset_encOut : State.reset.encOut = [] := rfl
@[simp] theorem reset_decState : State.reset.decState = .off := rfl
@[simp] theorem reset_decRemain : State.reset.decRemain = 0 := rfl
@[simp] theorem reset_decPos : State.reset.decPos = Config.nil := rfl
@[simp] theorem reset_decBytes : State.reset.decBytes = 0 := rfl
@[simp] theorem reset_decExtra : State.reset.decExtra = 0 := rfl
@[simp] theorem reset_decSyms : State.reset.decSyms = 0 := rfl
@[simp] theorem reset_decOut : State.reset.decOut = [] := rfl
@[simp] theorem reset_agenda : State.reset.agenda = [] := rfl
@[simp] theorem reset_rdata : State.reset.rdata = [] := rfl
@[simp] theorem reset_draws : State.reset.draws = 0 := rfl

/-! ### emitEnc -/

@[simp] theorem emitEnc_irqEn (b : Byte) : (s.emitEnc b).irqEn = s.irqEn := rfl
@[simp] theorem emitEnc_busy (b : Byte) : (s.emitEnc b).busy = s.busy := rfl
@[simp] theorem emitEnc_cmd (b : Byte) : (s.emitEnc b).cmd = s.cmd := rfl
@[simp] theorem emitEnc_cmdArg (b : Byte) : (s.emitEnc b).cmdArg = s.cmdArg := rfl
@[simp] theorem emitEnc_pendCmd (b : Byte) : (s.emitEnc b).pendCmd = s.pendCmd := rfl
@[simp] theorem emitEnc_errCode (b : Byte) : (s.emitEnc b).errCode = s.errCode := rfl
@[simp] theorem emitEnc_errCmd (b : Byte) : (s.emitEnc b).errCmd = s.errCmd := rfl
@[simp] theorem emitEnc_errInfo0 (b : Byte) : (s.emitEnc b).errInfo0 = s.errInfo0 := rfl
@[simp] theorem emitEnc_errInfo1 (b : Byte) : (s.emitEnc b).errInfo1 = s.errInfo1 := rfl
@[simp] theorem emitEnc_poisoned (b : Byte) : (s.emitEnc b).poisoned = s.poisoned := rfl
@[simp] theorem emitEnc_treeValid (b : Byte) : (s.emitEnc b).treeValid = s.treeValid := rfl
@[simp] theorem emitEnc_root (b : Byte) : (s.emitEnc b).root = s.root := rfl
@[simp] theorem emitEnc_nodeCount (b : Byte) : (s.emitEnc b).nodeCount = s.nodeCount := rfl
@[simp] theorem emitEnc_leafCount (b : Byte) : (s.emitEnc b).leafCount = s.leafCount := rfl
@[simp] theorem emitEnc_nodes (b : Byte) : (s.emitEnc b).nodes = s.nodes := rfl
@[simp] theorem emitEnc_codesValid (b : Byte) : (s.emitEnc b).codesValid = s.codesValid := rfl
@[simp] theorem emitEnc_totalBits (b : Byte) : (s.emitEnc b).totalBits = s.totalBits := rfl
@[simp] theorem emitEnc_code (b : Byte) : (s.emitEnc b).code = s.code := rfl
@[simp] theorem emitEnc_len (b : Byte) : (s.emitEnc b).len = s.len := rfl
@[simp] theorem emitEnc_freq (b : Byte) : (s.emitEnc b).freq = s.freq := rfl
@[simp] theorem emitEnc_acc (b : Byte) : (s.emitEnc b).acc = s.acc := rfl
@[simp] theorem emitEnc_accN (b : Byte) : (s.emitEnc b).accN = s.accN := rfl
@[simp] theorem emitEnc_encBits (b : Byte) : (s.emitEnc b).encBits = s.encBits := rfl
@[simp] theorem emitEnc_encFlushed (b : Byte) : (s.emitEnc b).encFlushed = s.encFlushed := rfl
@[simp] theorem emitEnc_encOut (b : Byte) : (s.emitEnc b).encOut = s.encOut ++ [b] := rfl
@[simp] theorem emitEnc_decState (b : Byte) : (s.emitEnc b).decState = s.decState := rfl
@[simp] theorem emitEnc_decRemain (b : Byte) : (s.emitEnc b).decRemain = s.decRemain := rfl
@[simp] theorem emitEnc_decPos (b : Byte) : (s.emitEnc b).decPos = s.decPos := rfl
@[simp] theorem emitEnc_decBytes (b : Byte) : (s.emitEnc b).decBytes = s.decBytes := rfl
@[simp] theorem emitEnc_decExtra (b : Byte) : (s.emitEnc b).decExtra = s.decExtra := rfl
@[simp] theorem emitEnc_decSyms (b : Byte) : (s.emitEnc b).decSyms = s.decSyms := rfl
@[simp] theorem emitEnc_decOut (b : Byte) : (s.emitEnc b).decOut = s.decOut := rfl
@[simp] theorem emitEnc_agenda (b : Byte) : (s.emitEnc b).agenda = s.agenda := rfl
@[simp] theorem emitEnc_rdata (b : Byte) : (s.emitEnc b).rdata = s.rdata := rfl
@[simp] theorem emitEnc_draws (b : Byte) : (s.emitEnc b).draws = s.draws := rfl

/-! ### emitDec -/

@[simp] theorem emitDec_irqEn (b : Byte) : (s.emitDec b).irqEn = s.irqEn := rfl
@[simp] theorem emitDec_busy (b : Byte) : (s.emitDec b).busy = s.busy := rfl
@[simp] theorem emitDec_cmd (b : Byte) : (s.emitDec b).cmd = s.cmd := rfl
@[simp] theorem emitDec_cmdArg (b : Byte) : (s.emitDec b).cmdArg = s.cmdArg := rfl
@[simp] theorem emitDec_pendCmd (b : Byte) : (s.emitDec b).pendCmd = s.pendCmd := rfl
@[simp] theorem emitDec_errCode (b : Byte) : (s.emitDec b).errCode = s.errCode := rfl
@[simp] theorem emitDec_errCmd (b : Byte) : (s.emitDec b).errCmd = s.errCmd := rfl
@[simp] theorem emitDec_errInfo0 (b : Byte) : (s.emitDec b).errInfo0 = s.errInfo0 := rfl
@[simp] theorem emitDec_errInfo1 (b : Byte) : (s.emitDec b).errInfo1 = s.errInfo1 := rfl
@[simp] theorem emitDec_poisoned (b : Byte) : (s.emitDec b).poisoned = s.poisoned := rfl
@[simp] theorem emitDec_treeValid (b : Byte) : (s.emitDec b).treeValid = s.treeValid := rfl
@[simp] theorem emitDec_root (b : Byte) : (s.emitDec b).root = s.root := rfl
@[simp] theorem emitDec_nodeCount (b : Byte) : (s.emitDec b).nodeCount = s.nodeCount := rfl
@[simp] theorem emitDec_leafCount (b : Byte) : (s.emitDec b).leafCount = s.leafCount := rfl
@[simp] theorem emitDec_nodes (b : Byte) : (s.emitDec b).nodes = s.nodes := rfl
@[simp] theorem emitDec_codesValid (b : Byte) : (s.emitDec b).codesValid = s.codesValid := rfl
@[simp] theorem emitDec_totalBits (b : Byte) : (s.emitDec b).totalBits = s.totalBits := rfl
@[simp] theorem emitDec_code (b : Byte) : (s.emitDec b).code = s.code := rfl
@[simp] theorem emitDec_len (b : Byte) : (s.emitDec b).len = s.len := rfl
@[simp] theorem emitDec_freq (b : Byte) : (s.emitDec b).freq = s.freq := rfl
@[simp] theorem emitDec_acc (b : Byte) : (s.emitDec b).acc = s.acc := rfl
@[simp] theorem emitDec_accN (b : Byte) : (s.emitDec b).accN = s.accN := rfl
@[simp] theorem emitDec_encBits (b : Byte) : (s.emitDec b).encBits = s.encBits := rfl
@[simp] theorem emitDec_encFlushed (b : Byte) : (s.emitDec b).encFlushed = s.encFlushed := rfl
@[simp] theorem emitDec_encOut (b : Byte) : (s.emitDec b).encOut = s.encOut := rfl
@[simp] theorem emitDec_decState (b : Byte) : (s.emitDec b).decState = s.decState := rfl
@[simp] theorem emitDec_decRemain (b : Byte) : (s.emitDec b).decRemain = s.decRemain := rfl
@[simp] theorem emitDec_decPos (b : Byte) : (s.emitDec b).decPos = s.decPos := rfl
@[simp] theorem emitDec_decBytes (b : Byte) : (s.emitDec b).decBytes = s.decBytes := rfl
@[simp] theorem emitDec_decExtra (b : Byte) : (s.emitDec b).decExtra = s.decExtra := rfl
@[simp] theorem emitDec_decSyms (b : Byte) : (s.emitDec b).decSyms = s.decSyms := rfl
@[simp] theorem emitDec_decOut (b : Byte) : (s.emitDec b).decOut = s.decOut ++ [b] := rfl
@[simp] theorem emitDec_agenda (b : Byte) : (s.emitDec b).agenda = s.agenda := rfl
@[simp] theorem emitDec_rdata (b : Byte) : (s.emitDec b).rdata = s.rdata := rfl
@[simp] theorem emitDec_draws (b : Byte) : (s.emitDec b).draws = s.draws := rfl

/-! ### invalidateCodes -/

@[simp] theorem invalidateCodes_irqEn : s.invalidateCodes.irqEn = s.irqEn := rfl
@[simp] theorem invalidateCodes_busy : s.invalidateCodes.busy = s.busy := rfl
@[simp] theorem invalidateCodes_cmd : s.invalidateCodes.cmd = s.cmd := rfl
@[simp] theorem invalidateCodes_cmdArg : s.invalidateCodes.cmdArg = s.cmdArg := rfl
@[simp] theorem invalidateCodes_pendCmd : s.invalidateCodes.pendCmd = s.pendCmd := rfl
@[simp] theorem invalidateCodes_errCode : s.invalidateCodes.errCode = s.errCode := rfl
@[simp] theorem invalidateCodes_errCmd : s.invalidateCodes.errCmd = s.errCmd := rfl
@[simp] theorem invalidateCodes_errInfo0 : s.invalidateCodes.errInfo0 = s.errInfo0 := rfl
@[simp] theorem invalidateCodes_errInfo1 : s.invalidateCodes.errInfo1 = s.errInfo1 := rfl
@[simp] theorem invalidateCodes_poisoned : s.invalidateCodes.poisoned = s.poisoned := rfl
@[simp] theorem invalidateCodes_treeValid : s.invalidateCodes.treeValid = s.treeValid := rfl
@[simp] theorem invalidateCodes_root : s.invalidateCodes.root = s.root := rfl
@[simp] theorem invalidateCodes_nodeCount : s.invalidateCodes.nodeCount = s.nodeCount := rfl
@[simp] theorem invalidateCodes_leafCount : s.invalidateCodes.leafCount = s.leafCount := rfl
@[simp] theorem invalidateCodes_nodes : s.invalidateCodes.nodes = s.nodes := rfl
@[simp] theorem invalidateCodes_codesValid : s.invalidateCodes.codesValid = false := rfl
@[simp] theorem invalidateCodes_totalBits : s.invalidateCodes.totalBits = 0 := rfl
@[simp] theorem invalidateCodes_code : s.invalidateCodes.code = fill 0 := rfl
@[simp] theorem invalidateCodes_len : s.invalidateCodes.len = fill 0 := rfl
@[simp] theorem invalidateCodes_freq : s.invalidateCodes.freq = s.freq := rfl
@[simp] theorem invalidateCodes_acc : s.invalidateCodes.acc = s.acc := rfl
@[simp] theorem invalidateCodes_accN : s.invalidateCodes.accN = s.accN := rfl
@[simp] theorem invalidateCodes_encBits : s.invalidateCodes.encBits = s.encBits := rfl
@[simp] theorem invalidateCodes_encFlushed : s.invalidateCodes.encFlushed = s.encFlushed := rfl
@[simp] theorem invalidateCodes_encOut : s.invalidateCodes.encOut = s.encOut := rfl
@[simp] theorem invalidateCodes_decState : s.invalidateCodes.decState = .off := rfl
@[simp] theorem invalidateCodes_decRemain : s.invalidateCodes.decRemain = s.decRemain := rfl
@[simp] theorem invalidateCodes_decPos : s.invalidateCodes.decPos = s.decPos := rfl
@[simp] theorem invalidateCodes_decBytes : s.invalidateCodes.decBytes = s.decBytes := rfl
@[simp] theorem invalidateCodes_decExtra : s.invalidateCodes.decExtra = s.decExtra := rfl
@[simp] theorem invalidateCodes_decSyms : s.invalidateCodes.decSyms = s.decSyms := rfl
@[simp] theorem invalidateCodes_decOut : s.invalidateCodes.decOut = s.decOut := rfl
@[simp] theorem invalidateCodes_agenda : s.invalidateCodes.agenda = s.agenda := rfl
@[simp] theorem invalidateCodes_rdata : s.invalidateCodes.rdata = s.rdata := rfl
@[simp] theorem invalidateCodes_draws : s.invalidateCodes.draws = s.draws := rfl

/-! ### invalidateTree -/

@[simp] theorem invalidateTree_irqEn : s.invalidateTree.irqEn = s.irqEn := rfl
@[simp] theorem invalidateTree_busy : s.invalidateTree.busy = s.busy := rfl
@[simp] theorem invalidateTree_cmd : s.invalidateTree.cmd = s.cmd := rfl
@[simp] theorem invalidateTree_cmdArg : s.invalidateTree.cmdArg = s.cmdArg := rfl
@[simp] theorem invalidateTree_pendCmd : s.invalidateTree.pendCmd = s.pendCmd := rfl
@[simp] theorem invalidateTree_errCode : s.invalidateTree.errCode = s.errCode := rfl
@[simp] theorem invalidateTree_errCmd : s.invalidateTree.errCmd = s.errCmd := rfl
@[simp] theorem invalidateTree_errInfo0 : s.invalidateTree.errInfo0 = s.errInfo0 := rfl
@[simp] theorem invalidateTree_errInfo1 : s.invalidateTree.errInfo1 = s.errInfo1 := rfl
@[simp] theorem invalidateTree_poisoned : s.invalidateTree.poisoned = s.poisoned := rfl
@[simp] theorem invalidateTree_treeValid : s.invalidateTree.treeValid = false := rfl
@[simp] theorem invalidateTree_root : s.invalidateTree.root = Config.nil := rfl
@[simp] theorem invalidateTree_nodeCount : s.invalidateTree.nodeCount = 0 := rfl
@[simp] theorem invalidateTree_leafCount : s.invalidateTree.leafCount = 0 := rfl
@[simp] theorem invalidateTree_nodes : s.invalidateTree.nodes = [] := rfl
@[simp] theorem invalidateTree_codesValid : s.invalidateTree.codesValid = false := rfl
@[simp] theorem invalidateTree_totalBits : s.invalidateTree.totalBits = 0 := rfl
@[simp] theorem invalidateTree_code : s.invalidateTree.code = fill 0 := rfl
@[simp] theorem invalidateTree_len : s.invalidateTree.len = fill 0 := rfl
@[simp] theorem invalidateTree_freq : s.invalidateTree.freq = s.freq := rfl
@[simp] theorem invalidateTree_acc : s.invalidateTree.acc = s.acc := rfl
@[simp] theorem invalidateTree_accN : s.invalidateTree.accN = s.accN := rfl
@[simp] theorem invalidateTree_encBits : s.invalidateTree.encBits = s.encBits := rfl
@[simp] theorem invalidateTree_encFlushed : s.invalidateTree.encFlushed = s.encFlushed := rfl
@[simp] theorem invalidateTree_encOut : s.invalidateTree.encOut = s.encOut := rfl
@[simp] theorem invalidateTree_decState : s.invalidateTree.decState = .off := rfl
@[simp] theorem invalidateTree_decRemain : s.invalidateTree.decRemain = s.decRemain := rfl
@[simp] theorem invalidateTree_decPos : s.invalidateTree.decPos = s.decPos := rfl
@[simp] theorem invalidateTree_decBytes : s.invalidateTree.decBytes = s.decBytes := rfl
@[simp] theorem invalidateTree_decExtra : s.invalidateTree.decExtra = s.decExtra := rfl
@[simp] theorem invalidateTree_decSyms : s.invalidateTree.decSyms = s.decSyms := rfl
@[simp] theorem invalidateTree_decOut : s.invalidateTree.decOut = s.decOut := rfl
@[simp] theorem invalidateTree_agenda : s.invalidateTree.agenda = s.agenda := rfl
@[simp] theorem invalidateTree_rdata : s.invalidateTree.rdata = s.rdata := rfl
@[simp] theorem invalidateTree_draws : s.invalidateTree.draws = s.draws := rfl

/-! ### raise -/

@[simp] theorem raise_irqEn (e : ErrCode) (i0 i1 : Word) : (s.raise e i0 i1).irqEn = s.irqEn := rfl
@[simp] theorem raise_busy (e : ErrCode) (i0 i1 : Word) : (s.raise e i0 i1).busy = s.busy := rfl
@[simp] theorem raise_cmd (e : ErrCode) (i0 i1 : Word) : (s.raise e i0 i1).cmd = s.cmd := rfl
@[simp] theorem raise_cmdArg (e : ErrCode) (i0 i1 : Word) :
    (s.raise e i0 i1).cmdArg = s.cmdArg := rfl
@[simp] theorem raise_pendCmd (e : ErrCode) (i0 i1 : Word) :
    (s.raise e i0 i1).pendCmd = s.pendCmd := rfl
@[simp] theorem raise_errCode (e : ErrCode) (i0 i1 : Word) : (s.raise e i0 i1).errCode = e := rfl
@[simp] theorem raise_errCmd (e : ErrCode) (i0 i1 : Word) :
    (s.raise e i0 i1).errCmd = s.pendCmd := rfl
@[simp] theorem raise_errInfo0 (e : ErrCode) (i0 i1 : Word) : (s.raise e i0 i1).errInfo0 = i0 := rfl
@[simp] theorem raise_errInfo1 (e : ErrCode) (i0 i1 : Word) : (s.raise e i0 i1).errInfo1 = i1 := rfl
@[simp] theorem raise_poisoned (e : ErrCode) (i0 i1 : Word) :
    (s.raise e i0 i1).poisoned = s.poisoned := rfl
@[simp] theorem raise_treeValid (e : ErrCode) (i0 i1 : Word) :
    (s.raise e i0 i1).treeValid = s.treeValid := rfl
@[simp] theorem raise_root (e : ErrCode) (i0 i1 : Word) : (s.raise e i0 i1).root = s.root := rfl
@[simp] theorem raise_nodeCount (e : ErrCode) (i0 i1 : Word) :
    (s.raise e i0 i1).nodeCount = s.nodeCount := rfl
@[simp] theorem raise_leafCount (e : ErrCode) (i0 i1 : Word) :
    (s.raise e i0 i1).leafCount = s.leafCount := rfl
@[simp] theorem raise_nodes (e : ErrCode) (i0 i1 : Word) : (s.raise e i0 i1).nodes = s.nodes := rfl
@[simp] theorem raise_codesValid (e : ErrCode) (i0 i1 : Word) :
    (s.raise e i0 i1).codesValid = s.codesValid := rfl
@[simp] theorem raise_totalBits (e : ErrCode) (i0 i1 : Word) :
    (s.raise e i0 i1).totalBits = s.totalBits := rfl
@[simp] theorem raise_code (e : ErrCode) (i0 i1 : Word) : (s.raise e i0 i1).code = s.code := rfl
@[simp] theorem raise_len (e : ErrCode) (i0 i1 : Word) : (s.raise e i0 i1).len = s.len := rfl
@[simp] theorem raise_freq (e : ErrCode) (i0 i1 : Word) : (s.raise e i0 i1).freq = s.freq := rfl
@[simp] theorem raise_acc (e : ErrCode) (i0 i1 : Word) : (s.raise e i0 i1).acc = s.acc := rfl
@[simp] theorem raise_accN (e : ErrCode) (i0 i1 : Word) : (s.raise e i0 i1).accN = s.accN := rfl
@[simp] theorem raise_encBits (e : ErrCode) (i0 i1 : Word) :
    (s.raise e i0 i1).encBits = s.encBits := rfl
@[simp] theorem raise_encFlushed (e : ErrCode) (i0 i1 : Word) :
    (s.raise e i0 i1).encFlushed = s.encFlushed := rfl
@[simp] theorem raise_encOut (e : ErrCode) (i0 i1 : Word) :
    (s.raise e i0 i1).encOut = s.encOut := rfl
@[simp] theorem raise_decState (e : ErrCode) (i0 i1 : Word) :
    (s.raise e i0 i1).decState = s.decState := rfl
@[simp] theorem raise_decRemain (e : ErrCode) (i0 i1 : Word) :
    (s.raise e i0 i1).decRemain = s.decRemain := rfl
@[simp] theorem raise_decPos (e : ErrCode) (i0 i1 : Word) :
    (s.raise e i0 i1).decPos = s.decPos := rfl
@[simp] theorem raise_decBytes (e : ErrCode) (i0 i1 : Word) :
    (s.raise e i0 i1).decBytes = s.decBytes := rfl
@[simp] theorem raise_decExtra (e : ErrCode) (i0 i1 : Word) :
    (s.raise e i0 i1).decExtra = s.decExtra := rfl
@[simp] theorem raise_decSyms (e : ErrCode) (i0 i1 : Word) :
    (s.raise e i0 i1).decSyms = s.decSyms := rfl
@[simp] theorem raise_decOut (e : ErrCode) (i0 i1 : Word) :
    (s.raise e i0 i1).decOut = s.decOut := rfl
@[simp] theorem raise_agenda (e : ErrCode) (i0 i1 : Word) :
    (s.raise e i0 i1).agenda = s.agenda := rfl
@[simp] theorem raise_rdata (e : ErrCode) (i0 i1 : Word) : (s.raise e i0 i1).rdata = s.rdata := rfl
@[simp] theorem raise_draws (e : ErrCode) (i0 i1 : Word) : (s.raise e i0 i1).draws = s.draws := rfl

/-! ### finish -/

@[simp] theorem finish_irqEn : s.finish.irqEn = s.irqEn := rfl
@[simp] theorem finish_busy : s.finish.busy = false := rfl
@[simp] theorem finish_cmd : s.finish.cmd = s.cmd := rfl
@[simp] theorem finish_cmdArg : s.finish.cmdArg = s.cmdArg := rfl
@[simp] theorem finish_pendCmd : s.finish.pendCmd = s.pendCmd := rfl
@[simp] theorem finish_errCode : s.finish.errCode = s.errCode := rfl
@[simp] theorem finish_errCmd : s.finish.errCmd = s.errCmd := rfl
@[simp] theorem finish_errInfo0 : s.finish.errInfo0 = s.errInfo0 := rfl
@[simp] theorem finish_errInfo1 : s.finish.errInfo1 = s.errInfo1 := rfl
@[simp] theorem finish_poisoned : s.finish.poisoned = s.poisoned := rfl
@[simp] theorem finish_treeValid : s.finish.treeValid = s.treeValid := rfl
@[simp] theorem finish_root : s.finish.root = s.root := rfl
@[simp] theorem finish_nodeCount : s.finish.nodeCount = s.nodeCount := rfl
@[simp] theorem finish_leafCount : s.finish.leafCount = s.leafCount := rfl
@[simp] theorem finish_nodes : s.finish.nodes = s.nodes := rfl
@[simp] theorem finish_codesValid : s.finish.codesValid = s.codesValid := rfl
@[simp] theorem finish_totalBits : s.finish.totalBits = s.totalBits := rfl
@[simp] theorem finish_code : s.finish.code = s.code := rfl
@[simp] theorem finish_len : s.finish.len = s.len := rfl
@[simp] theorem finish_freq : s.finish.freq = s.freq := rfl
@[simp] theorem finish_acc : s.finish.acc = s.acc := rfl
@[simp] theorem finish_accN : s.finish.accN = s.accN := rfl
@[simp] theorem finish_encBits : s.finish.encBits = s.encBits := rfl
@[simp] theorem finish_encFlushed : s.finish.encFlushed = s.encFlushed := rfl
@[simp] theorem finish_encOut : s.finish.encOut = s.encOut := rfl
@[simp] theorem finish_decState : s.finish.decState = s.decState := rfl
@[simp] theorem finish_decRemain : s.finish.decRemain = s.decRemain := rfl
@[simp] theorem finish_decPos : s.finish.decPos = s.decPos := rfl
@[simp] theorem finish_decBytes : s.finish.decBytes = s.decBytes := rfl
@[simp] theorem finish_decExtra : s.finish.decExtra = s.decExtra := rfl
@[simp] theorem finish_decSyms : s.finish.decSyms = s.decSyms := rfl
@[simp] theorem finish_decOut : s.finish.decOut = s.decOut := rfl
@[simp] theorem finish_agenda : s.finish.agenda = s.agenda := rfl
@[simp] theorem finish_rdata : s.finish.rdata = s.rdata := rfl
@[simp] theorem finish_draws : s.finish.draws = s.draws := rfl

/-! ### toReset -/

@[simp] theorem toReset_irqEn : s.toReset.irqEn = false := rfl
@[simp] theorem toReset_busy : s.toReset.busy = false := rfl
@[simp] theorem toReset_cmd : s.toReset.cmd = 0 := rfl
@[simp] theorem toReset_cmdArg : s.toReset.cmdArg = 0 := rfl
@[simp] theorem toReset_pendCmd : s.toReset.pendCmd = 0 := rfl
@[simp] theorem toReset_errCode : s.toReset.errCode = .none := rfl
@[simp] theorem toReset_errCmd : s.toReset.errCmd = 0 := rfl
@[simp] theorem toReset_errInfo0 : s.toReset.errInfo0 = 0 := rfl
@[simp] theorem toReset_errInfo1 : s.toReset.errInfo1 = 0 := rfl
@[simp] theorem toReset_poisoned : s.toReset.poisoned = false := rfl
@[simp] theorem toReset_treeValid : s.toReset.treeValid = false := rfl
@[simp] theorem toReset_root : s.toReset.root = Config.nil := rfl
@[simp] theorem toReset_nodeCount : s.toReset.nodeCount = 0 := rfl
@[simp] theorem toReset_leafCount : s.toReset.leafCount = 0 := rfl
@[simp] theorem toReset_nodes : s.toReset.nodes = [] := rfl
@[simp] theorem toReset_codesValid : s.toReset.codesValid = false := rfl
@[simp] theorem toReset_totalBits : s.toReset.totalBits = 0 := rfl
@[simp] theorem toReset_code : s.toReset.code = fill 0 := rfl
@[simp] theorem toReset_len : s.toReset.len = fill 0 := rfl
@[simp] theorem toReset_freq : s.toReset.freq = fill 0 := rfl
@[simp] theorem toReset_acc : s.toReset.acc = 0 := rfl
@[simp] theorem toReset_accN : s.toReset.accN = 0 := rfl
@[simp] theorem toReset_encBits : s.toReset.encBits = 0 := rfl
@[simp] theorem toReset_encFlushed : s.toReset.encFlushed = false := rfl
@[simp] theorem toReset_encOut : s.toReset.encOut = s.encOut := rfl
@[simp] theorem toReset_decState : s.toReset.decState = .off := rfl
@[simp] theorem toReset_decRemain : s.toReset.decRemain = 0 := rfl
@[simp] theorem toReset_decPos : s.toReset.decPos = Config.nil := rfl
@[simp] theorem toReset_decBytes : s.toReset.decBytes = 0 := rfl
@[simp] theorem toReset_decExtra : s.toReset.decExtra = 0 := rfl
@[simp] theorem toReset_decSyms : s.toReset.decSyms = 0 := rfl
@[simp] theorem toReset_decOut : s.toReset.decOut = s.decOut := rfl
@[simp] theorem toReset_agenda : s.toReset.agenda = s.agenda := rfl
@[simp] theorem toReset_rdata : s.toReset.rdata = s.rdata := rfl
@[simp] theorem toReset_draws : s.toReset.draws = s.draws := rfl

/-! ### respond -/

@[simp] theorem respond_irqEn (v : Word) : (s.respond v).irqEn = s.irqEn := rfl
@[simp] theorem respond_busy (v : Word) : (s.respond v).busy = s.busy := rfl
@[simp] theorem respond_cmd (v : Word) : (s.respond v).cmd = s.cmd := rfl
@[simp] theorem respond_cmdArg (v : Word) : (s.respond v).cmdArg = s.cmdArg := rfl
@[simp] theorem respond_pendCmd (v : Word) : (s.respond v).pendCmd = s.pendCmd := rfl
@[simp] theorem respond_errCode (v : Word) : (s.respond v).errCode = s.errCode := rfl
@[simp] theorem respond_errCmd (v : Word) : (s.respond v).errCmd = s.errCmd := rfl
@[simp] theorem respond_errInfo0 (v : Word) : (s.respond v).errInfo0 = s.errInfo0 := rfl
@[simp] theorem respond_errInfo1 (v : Word) : (s.respond v).errInfo1 = s.errInfo1 := rfl
@[simp] theorem respond_poisoned (v : Word) : (s.respond v).poisoned = s.poisoned := rfl
@[simp] theorem respond_treeValid (v : Word) : (s.respond v).treeValid = s.treeValid := rfl
@[simp] theorem respond_root (v : Word) : (s.respond v).root = s.root := rfl
@[simp] theorem respond_nodeCount (v : Word) : (s.respond v).nodeCount = s.nodeCount := rfl
@[simp] theorem respond_leafCount (v : Word) : (s.respond v).leafCount = s.leafCount := rfl
@[simp] theorem respond_nodes (v : Word) : (s.respond v).nodes = s.nodes := rfl
@[simp] theorem respond_codesValid (v : Word) : (s.respond v).codesValid = s.codesValid := rfl
@[simp] theorem respond_totalBits (v : Word) : (s.respond v).totalBits = s.totalBits := rfl
@[simp] theorem respond_code (v : Word) : (s.respond v).code = s.code := rfl
@[simp] theorem respond_len (v : Word) : (s.respond v).len = s.len := rfl
@[simp] theorem respond_freq (v : Word) : (s.respond v).freq = s.freq := rfl
@[simp] theorem respond_acc (v : Word) : (s.respond v).acc = s.acc := rfl
@[simp] theorem respond_accN (v : Word) : (s.respond v).accN = s.accN := rfl
@[simp] theorem respond_encBits (v : Word) : (s.respond v).encBits = s.encBits := rfl
@[simp] theorem respond_encFlushed (v : Word) : (s.respond v).encFlushed = s.encFlushed := rfl
@[simp] theorem respond_encOut (v : Word) : (s.respond v).encOut = s.encOut := rfl
@[simp] theorem respond_decState (v : Word) : (s.respond v).decState = s.decState := rfl
@[simp] theorem respond_decRemain (v : Word) : (s.respond v).decRemain = s.decRemain := rfl
@[simp] theorem respond_decPos (v : Word) : (s.respond v).decPos = s.decPos := rfl
@[simp] theorem respond_decBytes (v : Word) : (s.respond v).decBytes = s.decBytes := rfl
@[simp] theorem respond_decExtra (v : Word) : (s.respond v).decExtra = s.decExtra := rfl
@[simp] theorem respond_decSyms (v : Word) : (s.respond v).decSyms = s.decSyms := rfl
@[simp] theorem respond_decOut (v : Word) : (s.respond v).decOut = s.decOut := rfl
@[simp] theorem respond_agenda (v : Word) : (s.respond v).agenda = s.agenda := rfl
@[simp] theorem respond_rdata (v : Word) : (s.respond v).rdata = s.rdata ++ [v] := rfl
@[simp] theorem respond_draws (v : Word) : (s.respond v).draws = s.draws := rfl

/-! ### drawn -/

@[simp] theorem drawn_irqEn (k : Nat) : (s.drawn k).irqEn = s.irqEn := rfl
@[simp] theorem drawn_busy (k : Nat) : (s.drawn k).busy = s.busy := rfl
@[simp] theorem drawn_cmd (k : Nat) : (s.drawn k).cmd = s.cmd := rfl
@[simp] theorem drawn_cmdArg (k : Nat) : (s.drawn k).cmdArg = s.cmdArg := rfl
@[simp] theorem drawn_pendCmd (k : Nat) : (s.drawn k).pendCmd = s.pendCmd := rfl
@[simp] theorem drawn_errCode (k : Nat) : (s.drawn k).errCode = s.errCode := rfl
@[simp] theorem drawn_errCmd (k : Nat) : (s.drawn k).errCmd = s.errCmd := rfl
@[simp] theorem drawn_errInfo0 (k : Nat) : (s.drawn k).errInfo0 = s.errInfo0 := rfl
@[simp] theorem drawn_errInfo1 (k : Nat) : (s.drawn k).errInfo1 = s.errInfo1 := rfl
@[simp] theorem drawn_poisoned (k : Nat) : (s.drawn k).poisoned = s.poisoned := rfl
@[simp] theorem drawn_treeValid (k : Nat) : (s.drawn k).treeValid = s.treeValid := rfl
@[simp] theorem drawn_root (k : Nat) : (s.drawn k).root = s.root := rfl
@[simp] theorem drawn_nodeCount (k : Nat) : (s.drawn k).nodeCount = s.nodeCount := rfl
@[simp] theorem drawn_leafCount (k : Nat) : (s.drawn k).leafCount = s.leafCount := rfl
@[simp] theorem drawn_nodes (k : Nat) : (s.drawn k).nodes = s.nodes := rfl
@[simp] theorem drawn_codesValid (k : Nat) : (s.drawn k).codesValid = s.codesValid := rfl
@[simp] theorem drawn_totalBits (k : Nat) : (s.drawn k).totalBits = s.totalBits := rfl
@[simp] theorem drawn_code (k : Nat) : (s.drawn k).code = s.code := rfl
@[simp] theorem drawn_len (k : Nat) : (s.drawn k).len = s.len := rfl
@[simp] theorem drawn_freq (k : Nat) : (s.drawn k).freq = s.freq := rfl
@[simp] theorem drawn_acc (k : Nat) : (s.drawn k).acc = s.acc := rfl
@[simp] theorem drawn_accN (k : Nat) : (s.drawn k).accN = s.accN := rfl
@[simp] theorem drawn_encBits (k : Nat) : (s.drawn k).encBits = s.encBits := rfl
@[simp] theorem drawn_encFlushed (k : Nat) : (s.drawn k).encFlushed = s.encFlushed := rfl
@[simp] theorem drawn_encOut (k : Nat) : (s.drawn k).encOut = s.encOut := rfl
@[simp] theorem drawn_decState (k : Nat) : (s.drawn k).decState = s.decState := rfl
@[simp] theorem drawn_decRemain (k : Nat) : (s.drawn k).decRemain = s.decRemain := rfl
@[simp] theorem drawn_decPos (k : Nat) : (s.drawn k).decPos = s.decPos := rfl
@[simp] theorem drawn_decBytes (k : Nat) : (s.drawn k).decBytes = s.decBytes := rfl
@[simp] theorem drawn_decExtra (k : Nat) : (s.drawn k).decExtra = s.decExtra := rfl
@[simp] theorem drawn_decSyms (k : Nat) : (s.drawn k).decSyms = s.decSyms := rfl
@[simp] theorem drawn_decOut (k : Nat) : (s.drawn k).decOut = s.decOut := rfl
@[simp] theorem drawn_agenda (k : Nat) : (s.drawn k).agenda = s.agenda := rfl
@[simp] theorem drawn_rdata (k : Nat) : (s.drawn k).rdata = s.rdata := rfl
@[simp] theorem drawn_draws (k : Nat) : (s.drawn k).draws = s.draws + k := rfl

/-! ### issue -/

@[simp] theorem issue_irqEn (w : Word) : (s.issue w).irqEn = s.irqEn := rfl
@[simp] theorem issue_busy (w : Word) : (s.issue w).busy = true := rfl
@[simp] theorem issue_cmd (w : Word) : (s.issue w).cmd = w := rfl
@[simp] theorem issue_cmdArg (w : Word) : (s.issue w).cmdArg = s.cmdArg := rfl
@[simp] theorem issue_pendCmd (w : Word) : (s.issue w).pendCmd = w := rfl
@[simp] theorem issue_errCode (w : Word) : (s.issue w).errCode = s.errCode := rfl
@[simp] theorem issue_errCmd (w : Word) : (s.issue w).errCmd = s.errCmd := rfl
@[simp] theorem issue_errInfo0 (w : Word) : (s.issue w).errInfo0 = s.errInfo0 := rfl
@[simp] theorem issue_errInfo1 (w : Word) : (s.issue w).errInfo1 = s.errInfo1 := rfl
@[simp] theorem issue_poisoned (w : Word) : (s.issue w).poisoned = s.poisoned := rfl
@[simp] theorem issue_treeValid (w : Word) : (s.issue w).treeValid = s.treeValid := rfl
@[simp] theorem issue_root (w : Word) : (s.issue w).root = s.root := rfl
@[simp] theorem issue_nodeCount (w : Word) : (s.issue w).nodeCount = s.nodeCount := rfl
@[simp] theorem issue_leafCount (w : Word) : (s.issue w).leafCount = s.leafCount := rfl
@[simp] theorem issue_nodes (w : Word) : (s.issue w).nodes = s.nodes := rfl
@[simp] theorem issue_codesValid (w : Word) : (s.issue w).codesValid = s.codesValid := rfl
@[simp] theorem issue_totalBits (w : Word) : (s.issue w).totalBits = s.totalBits := rfl
@[simp] theorem issue_code (w : Word) : (s.issue w).code = s.code := rfl
@[simp] theorem issue_len (w : Word) : (s.issue w).len = s.len := rfl
@[simp] theorem issue_freq (w : Word) : (s.issue w).freq = s.freq := rfl
@[simp] theorem issue_acc (w : Word) : (s.issue w).acc = s.acc := rfl
@[simp] theorem issue_accN (w : Word) : (s.issue w).accN = s.accN := rfl
@[simp] theorem issue_encBits (w : Word) : (s.issue w).encBits = s.encBits := rfl
@[simp] theorem issue_encFlushed (w : Word) : (s.issue w).encFlushed = s.encFlushed := rfl
@[simp] theorem issue_encOut (w : Word) : (s.issue w).encOut = s.encOut := rfl
@[simp] theorem issue_decState (w : Word) : (s.issue w).decState = s.decState := rfl
@[simp] theorem issue_decRemain (w : Word) : (s.issue w).decRemain = s.decRemain := rfl
@[simp] theorem issue_decPos (w : Word) : (s.issue w).decPos = s.decPos := rfl
@[simp] theorem issue_decBytes (w : Word) : (s.issue w).decBytes = s.decBytes := rfl
@[simp] theorem issue_decExtra (w : Word) : (s.issue w).decExtra = s.decExtra := rfl
@[simp] theorem issue_decSyms (w : Word) : (s.issue w).decSyms = s.decSyms := rfl
@[simp] theorem issue_decOut (w : Word) : (s.issue w).decOut = s.decOut := rfl
@[simp] theorem issue_agenda (w : Word) : (s.issue w).agenda = s.agenda := rfl
@[simp] theorem issue_rdata (w : Word) : (s.issue w).rdata = s.rdata := rfl
@[simp] theorem issue_draws (w : Word) : (s.issue w).draws = s.draws := rfl

/-! ### writeFreq -/

@[simp] theorem writeFreq_irqEn (x : Byte) (v : Word) : (s.writeFreq x v).irqEn = s.irqEn := rfl
@[simp] theorem writeFreq_busy (x : Byte) (v : Word) : (s.writeFreq x v).busy = s.busy := rfl
@[simp] theorem writeFreq_cmd (x : Byte) (v : Word) : (s.writeFreq x v).cmd = s.cmd := rfl
@[simp] theorem writeFreq_cmdArg (x : Byte) (v : Word) : (s.writeFreq x v).cmdArg = s.cmdArg := rfl
@[simp] theorem writeFreq_pendCmd (x : Byte) (v : Word) :
    (s.writeFreq x v).pendCmd = s.pendCmd := rfl
@[simp] theorem writeFreq_errCode (x : Byte) (v : Word) :
    (s.writeFreq x v).errCode = s.errCode := rfl
@[simp] theorem writeFreq_errCmd (x : Byte) (v : Word) : (s.writeFreq x v).errCmd = s.errCmd := rfl
@[simp] theorem writeFreq_errInfo0 (x : Byte) (v : Word) :
    (s.writeFreq x v).errInfo0 = s.errInfo0 := rfl
@[simp] theorem writeFreq_errInfo1 (x : Byte) (v : Word) :
    (s.writeFreq x v).errInfo1 = s.errInfo1 := rfl
@[simp] theorem writeFreq_poisoned (x : Byte) (v : Word) :
    (s.writeFreq x v).poisoned = s.poisoned := rfl
@[simp] theorem writeFreq_treeValid (x : Byte) (v : Word) :
    (s.writeFreq x v).treeValid = false := rfl
@[simp] theorem writeFreq_root (x : Byte) (v : Word) : (s.writeFreq x v).root = Config.nil := rfl
@[simp] theorem writeFreq_nodeCount (x : Byte) (v : Word) : (s.writeFreq x v).nodeCount = 0 := rfl
@[simp] theorem writeFreq_leafCount (x : Byte) (v : Word) : (s.writeFreq x v).leafCount = 0 := rfl
@[simp] theorem writeFreq_nodes (x : Byte) (v : Word) : (s.writeFreq x v).nodes = [] := rfl
@[simp] theorem writeFreq_codesValid (x : Byte) (v : Word) :
    (s.writeFreq x v).codesValid = false := rfl
@[simp] theorem writeFreq_totalBits (x : Byte) (v : Word) : (s.writeFreq x v).totalBits = 0 := rfl
@[simp] theorem writeFreq_code (x : Byte) (v : Word) : (s.writeFreq x v).code = fill 0 := rfl
@[simp] theorem writeFreq_len (x : Byte) (v : Word) : (s.writeFreq x v).len = fill 0 := rfl
@[simp] theorem writeFreq_freq (x : Byte) (v : Word) :
    (s.writeFreq x v).freq = put s.freq x v := rfl
@[simp] theorem writeFreq_acc (x : Byte) (v : Word) : (s.writeFreq x v).acc = s.acc := rfl
@[simp] theorem writeFreq_accN (x : Byte) (v : Word) : (s.writeFreq x v).accN = s.accN := rfl
@[simp] theorem writeFreq_encBits (x : Byte) (v : Word) :
    (s.writeFreq x v).encBits = s.encBits := rfl
@[simp] theorem writeFreq_encFlushed (x : Byte) (v : Word) :
    (s.writeFreq x v).encFlushed = s.encFlushed := rfl
@[simp] theorem writeFreq_encOut (x : Byte) (v : Word) : (s.writeFreq x v).encOut = s.encOut := rfl
@[simp] theorem writeFreq_decState (x : Byte) (v : Word) : (s.writeFreq x v).decState = .off := rfl
@[simp] theorem writeFreq_decRemain (x : Byte) (v : Word) :
    (s.writeFreq x v).decRemain = s.decRemain := rfl
@[simp] theorem writeFreq_decPos (x : Byte) (v : Word) : (s.writeFreq x v).decPos = s.decPos := rfl
@[simp] theorem writeFreq_decBytes (x : Byte) (v : Word) :
    (s.writeFreq x v).decBytes = s.decBytes := rfl
@[simp] theorem writeFreq_decExtra (x : Byte) (v : Word) :
    (s.writeFreq x v).decExtra = s.decExtra := rfl
@[simp] theorem writeFreq_decSyms (x : Byte) (v : Word) :
    (s.writeFreq x v).decSyms = s.decSyms := rfl
@[simp] theorem writeFreq_decOut (x : Byte) (v : Word) : (s.writeFreq x v).decOut = s.decOut := rfl
@[simp] theorem writeFreq_agenda (x : Byte) (v : Word) : (s.writeFreq x v).agenda = s.agenda := rfl
@[simp] theorem writeFreq_rdata (x : Byte) (v : Word) : (s.writeFreq x v).rdata = s.rdata := rfl
@[simp] theorem writeFreq_draws (x : Byte) (v : Word) : (s.writeFreq x v).draws = s.draws := rfl

/-! ### emitSymbol -/

@[simp] theorem emitSymbol_irqEn (x : Byte) : (s.emitSymbol x).irqEn = s.irqEn := rfl
@[simp] theorem emitSymbol_busy (x : Byte) : (s.emitSymbol x).busy = s.busy := rfl
@[simp] theorem emitSymbol_cmd (x : Byte) : (s.emitSymbol x).cmd = s.cmd := rfl
@[simp] theorem emitSymbol_cmdArg (x : Byte) : (s.emitSymbol x).cmdArg = s.cmdArg := rfl
@[simp] theorem emitSymbol_pendCmd (x : Byte) : (s.emitSymbol x).pendCmd = s.pendCmd := rfl
@[simp] theorem emitSymbol_errCode (x : Byte) : (s.emitSymbol x).errCode = s.errCode := rfl
@[simp] theorem emitSymbol_errCmd (x : Byte) : (s.emitSymbol x).errCmd = s.errCmd := rfl
@[simp] theorem emitSymbol_errInfo0 (x : Byte) : (s.emitSymbol x).errInfo0 = s.errInfo0 := rfl
@[simp] theorem emitSymbol_errInfo1 (x : Byte) : (s.emitSymbol x).errInfo1 = s.errInfo1 := rfl
@[simp] theorem emitSymbol_poisoned (x : Byte) : (s.emitSymbol x).poisoned = s.poisoned := rfl
@[simp] theorem emitSymbol_treeValid (x : Byte) : (s.emitSymbol x).treeValid = s.treeValid := rfl
@[simp] theorem emitSymbol_root (x : Byte) : (s.emitSymbol x).root = s.root := rfl
@[simp] theorem emitSymbol_nodeCount (x : Byte) : (s.emitSymbol x).nodeCount = s.nodeCount := rfl
@[simp] theorem emitSymbol_leafCount (x : Byte) : (s.emitSymbol x).leafCount = s.leafCount := rfl
@[simp] theorem emitSymbol_nodes (x : Byte) : (s.emitSymbol x).nodes = s.nodes := rfl
@[simp] theorem emitSymbol_codesValid (x : Byte) : (s.emitSymbol x).codesValid = s.codesValid := rfl
@[simp] theorem emitSymbol_totalBits (x : Byte) : (s.emitSymbol x).totalBits = s.totalBits := rfl
@[simp] theorem emitSymbol_code (x : Byte) : (s.emitSymbol x).code = s.code := rfl
@[simp] theorem emitSymbol_len (x : Byte) : (s.emitSymbol x).len = s.len := rfl
@[simp] theorem emitSymbol_freq (x : Byte) : (s.emitSymbol x).freq = s.freq := rfl
@[simp] theorem emitSymbol_acc (x : Byte) : (s.emitSymbol x).acc = s.acc := rfl
@[simp] theorem emitSymbol_accN (x : Byte) : (s.emitSymbol x).accN = s.accN := rfl
@[simp] theorem emitSymbol_encBits (x : Byte) : (s.emitSymbol x).encBits = s.encBits := rfl
@[simp] theorem emitSymbol_encFlushed (x : Byte) : (s.emitSymbol x).encFlushed = s.encFlushed := rfl
@[simp] theorem emitSymbol_encOut (x : Byte) : (s.emitSymbol x).encOut = s.encOut := rfl
@[simp] theorem emitSymbol_decState (x : Byte) : (s.emitSymbol x).decState = s.decState := rfl
@[simp] theorem emitSymbol_decRemain (x : Byte) : (s.emitSymbol x).decRemain = s.decRemain := rfl
@[simp] theorem emitSymbol_decPos (x : Byte) : (s.emitSymbol x).decPos = s.root := rfl
@[simp] theorem emitSymbol_decBytes (x : Byte) : (s.emitSymbol x).decBytes = s.decBytes := rfl
@[simp] theorem emitSymbol_decExtra (x : Byte) : (s.emitSymbol x).decExtra = s.decExtra := rfl
@[simp] theorem emitSymbol_decSyms (x : Byte) : (s.emitSymbol x).decSyms = s.decSyms + 1 := rfl
@[simp] theorem emitSymbol_decOut (x : Byte) : (s.emitSymbol x).decOut = s.decOut ++ [x] := rfl
@[simp] theorem emitSymbol_agenda (x : Byte) : (s.emitSymbol x).agenda = s.agenda := rfl
@[simp] theorem emitSymbol_rdata (x : Byte) : (s.emitSymbol x).rdata = s.rdata := rfl
@[simp] theorem emitSymbol_draws (x : Byte) : (s.emitSymbol x).draws = s.draws := rfl

/-! ### storeTree -/

@[simp] theorem storeTree_irqEn (arena : List Node) (root leaves : Nat) :
    (s.storeTree arena root leaves).irqEn = s.irqEn := rfl
@[simp] theorem storeTree_busy (arena : List Node) (root leaves : Nat) :
    (s.storeTree arena root leaves).busy = s.busy := rfl
@[simp] theorem storeTree_cmd (arena : List Node) (root leaves : Nat) :
    (s.storeTree arena root leaves).cmd = s.cmd := rfl
@[simp] theorem storeTree_cmdArg (arena : List Node) (root leaves : Nat) :
    (s.storeTree arena root leaves).cmdArg = s.cmdArg := rfl
@[simp] theorem storeTree_pendCmd (arena : List Node) (root leaves : Nat) :
    (s.storeTree arena root leaves).pendCmd = s.pendCmd := rfl
@[simp] theorem storeTree_errCode (arena : List Node) (root leaves : Nat) :
    (s.storeTree arena root leaves).errCode = s.errCode := rfl
@[simp] theorem storeTree_errCmd (arena : List Node) (root leaves : Nat) :
    (s.storeTree arena root leaves).errCmd = s.errCmd := rfl
@[simp] theorem storeTree_errInfo0 (arena : List Node) (root leaves : Nat) :
    (s.storeTree arena root leaves).errInfo0 = s.errInfo0 := rfl
@[simp] theorem storeTree_errInfo1 (arena : List Node) (root leaves : Nat) :
    (s.storeTree arena root leaves).errInfo1 = s.errInfo1 := rfl
@[simp] theorem storeTree_poisoned (arena : List Node) (root leaves : Nat) :
    (s.storeTree arena root leaves).poisoned = s.poisoned := rfl
@[simp] theorem storeTree_treeValid (arena : List Node) (root leaves : Nat) :
    (s.storeTree arena root leaves).treeValid = true := rfl
@[simp] theorem storeTree_root (arena : List Node) (root leaves : Nat) :
    (s.storeTree arena root leaves).root = BitVec.ofNat 9 root := rfl
@[simp] theorem storeTree_nodeCount (arena : List Node) (root leaves : Nat) :
    (s.storeTree arena root leaves).nodeCount = BitVec.ofNat 10 arena.length := rfl
@[simp] theorem storeTree_leafCount (arena : List Node) (root leaves : Nat) :
    (s.storeTree arena root leaves).leafCount = BitVec.ofNat 9 leaves := rfl
@[simp] theorem storeTree_nodes (arena : List Node) (root leaves : Nat) :
    (s.storeTree arena root leaves).nodes = arena := rfl
@[simp] theorem storeTree_codesValid (arena : List Node) (root leaves : Nat) :
    (s.storeTree arena root leaves).codesValid = s.codesValid := rfl
@[simp] theorem storeTree_totalBits (arena : List Node) (root leaves : Nat) :
    (s.storeTree arena root leaves).totalBits = s.totalBits := rfl
@[simp] theorem storeTree_code (arena : List Node) (root leaves : Nat) :
    (s.storeTree arena root leaves).code = s.code := rfl
@[simp] theorem storeTree_len (arena : List Node) (root leaves : Nat) :
    (s.storeTree arena root leaves).len = s.len := rfl
@[simp] theorem storeTree_freq (arena : List Node) (root leaves : Nat) :
    (s.storeTree arena root leaves).freq = s.freq := rfl
@[simp] theorem storeTree_acc (arena : List Node) (root leaves : Nat) :
    (s.storeTree arena root leaves).acc = s.acc := rfl
@[simp] theorem storeTree_accN (arena : List Node) (root leaves : Nat) :
    (s.storeTree arena root leaves).accN = s.accN := rfl
@[simp] theorem storeTree_encBits (arena : List Node) (root leaves : Nat) :
    (s.storeTree arena root leaves).encBits = s.encBits := rfl
@[simp] theorem storeTree_encFlushed (arena : List Node) (root leaves : Nat) :
    (s.storeTree arena root leaves).encFlushed = s.encFlushed := rfl
@[simp] theorem storeTree_encOut (arena : List Node) (root leaves : Nat) :
    (s.storeTree arena root leaves).encOut = s.encOut := rfl
@[simp] theorem storeTree_decState (arena : List Node) (root leaves : Nat) :
    (s.storeTree arena root leaves).decState = s.decState := rfl
@[simp] theorem storeTree_decRemain (arena : List Node) (root leaves : Nat) :
    (s.storeTree arena root leaves).decRemain = s.decRemain := rfl
@[simp] theorem storeTree_decPos (arena : List Node) (root leaves : Nat) :
    (s.storeTree arena root leaves).decPos = s.decPos := rfl
@[simp] theorem storeTree_decBytes (arena : List Node) (root leaves : Nat) :
    (s.storeTree arena root leaves).decBytes = s.decBytes := rfl
@[simp] theorem storeTree_decExtra (arena : List Node) (root leaves : Nat) :
    (s.storeTree arena root leaves).decExtra = s.decExtra := rfl
@[simp] theorem storeTree_decSyms (arena : List Node) (root leaves : Nat) :
    (s.storeTree arena root leaves).decSyms = s.decSyms := rfl
@[simp] theorem storeTree_decOut (arena : List Node) (root leaves : Nat) :
    (s.storeTree arena root leaves).decOut = s.decOut := rfl
@[simp] theorem storeTree_agenda (arena : List Node) (root leaves : Nat) :
    (s.storeTree arena root leaves).agenda = s.agenda := rfl
@[simp] theorem storeTree_rdata (arena : List Node) (root leaves : Nat) :
    (s.storeTree arena root leaves).rdata = s.rdata := rfl
@[simp] theorem storeTree_draws (arena : List Node) (root leaves : Nat) :
    (s.storeTree arena root leaves).draws = s.draws := rfl

/-! ### storeCodes -/

@[simp] theorem storeCodes_irqEn (found : List (Byte × List Bool)) :
    (s.storeCodes found).irqEn = s.irqEn := rfl
@[simp] theorem storeCodes_busy (found : List (Byte × List Bool)) :
    (s.storeCodes found).busy = s.busy := rfl
@[simp] theorem storeCodes_cmd (found : List (Byte × List Bool)) :
    (s.storeCodes found).cmd = s.cmd := rfl
@[simp] theorem storeCodes_cmdArg (found : List (Byte × List Bool)) :
    (s.storeCodes found).cmdArg = s.cmdArg := rfl
@[simp] theorem storeCodes_pendCmd (found : List (Byte × List Bool)) :
    (s.storeCodes found).pendCmd = s.pendCmd := rfl
@[simp] theorem storeCodes_errCode (found : List (Byte × List Bool)) :
    (s.storeCodes found).errCode = s.errCode := rfl
@[simp] theorem storeCodes_errCmd (found : List (Byte × List Bool)) :
    (s.storeCodes found).errCmd = s.errCmd := rfl
@[simp] theorem storeCodes_errInfo0 (found : List (Byte × List Bool)) :
    (s.storeCodes found).errInfo0 = s.errInfo0 := rfl
@[simp] theorem storeCodes_errInfo1 (found : List (Byte × List Bool)) :
    (s.storeCodes found).errInfo1 = s.errInfo1 := rfl
@[simp] theorem storeCodes_poisoned (found : List (Byte × List Bool)) :
    (s.storeCodes found).poisoned = s.poisoned := rfl
@[simp] theorem storeCodes_treeValid (found : List (Byte × List Bool)) :
    (s.storeCodes found).treeValid = s.treeValid := rfl
@[simp] theorem storeCodes_root (found : List (Byte × List Bool)) :
    (s.storeCodes found).root = s.root := rfl
@[simp] theorem storeCodes_nodeCount (found : List (Byte × List Bool)) :
    (s.storeCodes found).nodeCount = s.nodeCount := rfl
@[simp] theorem storeCodes_leafCount (found : List (Byte × List Bool)) :
    (s.storeCodes found).leafCount = s.leafCount := rfl
@[simp] theorem storeCodes_nodes (found : List (Byte × List Bool)) :
    (s.storeCodes found).nodes = s.nodes := rfl
@[simp] theorem storeCodes_codesValid (found : List (Byte × List Bool)) :
    (s.storeCodes found).codesValid = true := rfl
@[simp] theorem storeCodes_totalBits (found : List (Byte × List Bool)) :
    (s.storeCodes found).totalBits = BitVec.ofNat 64 (bitBudget s.freq (tabulate fun x => BitVec.ofNat 6 (pathIn found x).length)) := rfl
@[simp] theorem storeCodes_code (found : List (Byte × List Bool)) :
    (s.storeCodes found).code = tabulate fun x => BitVec.ofNat 32 (bitsValue (pathIn found x)) := rfl
@[simp] theorem storeCodes_len (found : List (Byte × List Bool)) :
    (s.storeCodes found).len = tabulate fun x => BitVec.ofNat 6 (pathIn found x).length := rfl
@[simp] theorem storeCodes_freq (found : List (Byte × List Bool)) :
    (s.storeCodes found).freq = s.freq := rfl
@[simp] theorem storeCodes_acc (found : List (Byte × List Bool)) :
    (s.storeCodes found).acc = s.acc := rfl
@[simp] theorem storeCodes_accN (found : List (Byte × List Bool)) :
    (s.storeCodes found).accN = s.accN := rfl
@[simp] theorem storeCodes_encBits (found : List (Byte × List Bool)) :
    (s.storeCodes found).encBits = s.encBits := rfl
@[simp] theorem storeCodes_encFlushed (found : List (Byte × List Bool)) :
    (s.storeCodes found).encFlushed = s.encFlushed := rfl
@[simp] theorem storeCodes_encOut (found : List (Byte × List Bool)) :
    (s.storeCodes found).encOut = s.encOut := rfl
@[simp] theorem storeCodes_decState (found : List (Byte × List Bool)) :
    (s.storeCodes found).decState = s.decState := rfl
@[simp] theorem storeCodes_decRemain (found : List (Byte × List Bool)) :
    (s.storeCodes found).decRemain = s.decRemain := rfl
@[simp] theorem storeCodes_decPos (found : List (Byte × List Bool)) :
    (s.storeCodes found).decPos = s.decPos := rfl
@[simp] theorem storeCodes_decBytes (found : List (Byte × List Bool)) :
    (s.storeCodes found).decBytes = s.decBytes := rfl
@[simp] theorem storeCodes_decExtra (found : List (Byte × List Bool)) :
    (s.storeCodes found).decExtra = s.decExtra := rfl
@[simp] theorem storeCodes_decSyms (found : List (Byte × List Bool)) :
    (s.storeCodes found).decSyms = s.decSyms := rfl
@[simp] theorem storeCodes_decOut (found : List (Byte × List Bool)) :
    (s.storeCodes found).decOut = s.decOut := rfl
@[simp] theorem storeCodes_agenda (found : List (Byte × List Bool)) :
    (s.storeCodes found).agenda = s.agenda := rfl
@[simp] theorem storeCodes_rdata (found : List (Byte × List Bool)) :
    (s.storeCodes found).rdata = s.rdata := rfl
@[simp] theorem storeCodes_draws (found : List (Byte × List Bool)) :
    (s.storeCodes found).draws = s.draws := rfl

end Sys2Proof.Machine.State
end

