-- ==== Sys2Proof/Laws/Ops.lean ====
section
/-! SUPPORT. Laws of the symbol arrays and of what is read from a frequency table as a whole. -/

namespace Sys2Proof.Machine

/-! ### The symbols -/

@[simp] theorem symbols_length : symbols.length = 256 := by simp [symbols]

theorem symbols_getElem (i : Nat) (h : i < symbols.length) : symbols[i] = BitVec.ofNat 8 i := by
  simp [symbols]

@[simp] theorem mem_symbols (x : Byte) : x ∈ symbols := by
  simp only [symbols, List.mem_map, List.mem_range]
  exact ⟨x.toNat, x.isLt, by simp⟩

theorem symbols_pairwise_lt : symbols.Pairwise (fun x y : Byte => x.toNat < y.toNat) := by
  rw [symbols, List.pairwise_map]
  refine List.Pairwise.imp_of_mem ?_ List.pairwise_lt_range
  intro a b ha hb hab
  rw [List.mem_range] at ha hb
  simpa [BitVec.toNat_ofNat, Nat.mod_eq_of_lt ha, Nat.mod_eq_of_lt hb] using hab

theorem symbols_nodup : symbols.Nodup :=
  symbols_pairwise_lt.imp fun h e => by simp [e] at h

/-! ### Elements -/

@[simp] theorem entry_put_same {α : Type} (t : Table α) (x : Byte) (v : α) :
    entry (put t x v) x = v := by
  simp [entry, put]

theorem entry_put_other {α : Type} (t : Table α) {x y : Byte} (v : α) (h : y ≠ x) :
    entry (put t x v) y = entry t y := by
  have : x.toNat ≠ y.toNat := fun e => h (BitVec.eq_of_toNat_eq e.symm)
  simp [entry, put, this]

theorem entry_put {α : Type} (t : Table α) (x y : Byte) (v : α) :
    entry (put t x v) y = if y = x then v else entry t y := by
  split
  · subst_vars; simp
  · exact entry_put_other t v ‹_›

@[simp] theorem entry_fill {α : Type} (v : α) (x : Byte) : entry (fill v) x = v := by
  simp [entry, fill]

@[simp] theorem entry_tabulate {α : Type} (f : Byte → α) (x : Byte) :
    entry (tabulate f) x = f x := by
  simp [entry, tabulate, symbols]

/-- Two arrays with the same elements are equal. -/
theorem table_ext {α : Type} {t u : Table α} (h : ∀ x, entry t x = entry u x) : t = u := by
  apply Vector.ext
  intro i hi
  have := h (BitVec.ofNat 8 i)
  simpa [entry, Nat.mod_eq_of_lt hi] using this

theorem toList_eq_map_entry {α : Type} (t : Table α) : t.toList = symbols.map (entry t) := by
  apply List.ext_getElem
  · simp
  · intro i h1 h2
    have hi : i < 256 := by simpa using h1
    simp [symbols, entry, Nat.mod_eq_of_lt hi]

theorem cells_eq_map {α : Type} (t : Table α) :
    cells t = symbols.map fun x => (x, entry t x) := by
  have zip_self : ∀ l : List Byte, l.zip (l.map (entry t)) = l.map fun x => (x, entry t x) := by
    intro l
    induction l with
    | nil => rfl
    | cons x l ih => simp [ih]
  rw [cells, toList_eq_map_entry, zip_self]

/-! ### A frequency table as a whole -/

/-- The leaves of R141 are the symbols of non-zero frequency. -/
theorem leafSymbols_eq_filter (f : Table Word) :
    leafSymbols f = symbols.filter fun x => entry f x != 0 := by
  simp only [leafSymbols, cells_eq_map, List.filter_map, List.map_map]
  simp [Function.comp_def]

@[simp] theorem mem_leafSymbols (f : Table Word) (x : Byte) :
    x ∈ leafSymbols f ↔ entry f x ≠ 0 := by
  simp [leafSymbols_eq_filter]

theorem leafSymbols_nodup (f : Table Word) : (leafSymbols f).Nodup := by
  rw [leafSymbols_eq_filter]
  exact symbols_nodup.filter _

theorem leafSymbols_length_le (f : Table Word) : (leafSymbols f).length ≤ 256 := by
  rw [leafSymbols_eq_filter]
  exact (List.length_filter_le _ _).trans (by simp)

/-- The range check of R142 finds the smallest symbol with bit 31 set. -/
theorem badSymbol_eq_find (f : Table Word) :
    badSymbol f = symbols.find? fun x => (entry f x).getLsbD 31 := by
  simp only [badSymbol, cells_eq_map, List.find?_map, Option.map_map]
  simp [Function.comp_def]

theorem badSymbol_eq_none (f : Table Word) :
    badSymbol f = none ↔ ∀ x, (entry f x).getLsbD 31 = false := by
  simp [badSymbol_eq_find]

/-- `find?` over the symbols gives the least symbol that satisfies the test. -/
theorem find_symbols_eq_some (p : Byte → Bool) (x : Byte) :
    symbols.find? p = some x ↔ p x = true ∧ ∀ y : Byte, y.toNat < x.toNat → p y = false := by
  constructor
  · intro h
    refine ⟨List.find?_some h, fun y hy => ?_⟩
    obtain ⟨_, i, hi, hx, hlt⟩ := List.find?_eq_some_iff_getElem.mp h
    have hi' : i < 256 := by simpa using hi
    rw [symbols_getElem] at hx
    have hxi : x.toNat = i := by rw [← hx]; simpa using hi'
    have := hlt y.toNat (by omega)
    rw [symbols_getElem] at this
    simpa using this
  · rintro ⟨hx, hlt⟩
    refine List.find?_eq_some_iff_getElem.mpr ⟨hx, x.toNat, by simpa using x.isLt, ?_, ?_⟩
    · simp [symbols_getElem]
    · intro j hj
      rw [symbols_getElem]
      have := hlt (BitVec.ofNat 8 j) (by
        have := x.isLt
        simp only [BitVec.toNat_ofNat]
        omega)
      simp [this]

theorem badSymbol_eq_some (f : Table Word) (x : Byte) :
    badSymbol f = some x ↔
      (entry f x).getLsbD 31 = true ∧ ∀ y : Byte, y.toNat < x.toNat → (entry f y).getLsbD 31 = false := by
  rw [badSymbol_eq_find, find_symbols_eq_some]

/-- The bit budget of R175 as the sum over the symbols. -/
theorem bitBudget_eq_sum (f : Table Word) (len : Table (BitVec 6)) :
    bitBudget f len = (symbols.map fun x => (entry f x).toNat * (entry len x).toNat).sum := by
  rw [bitBudget, toList_eq_map_entry, toList_eq_map_entry, List.zipWith_map]
  simp

end Sys2Proof.Machine
end

