-- ==== Sys2Proof/Laws/CodeAssigner.lean ====
section
/-! SUPPORT. What the depth-first traversal finds in an arena that spells a tree, and the codes
ASSIGN_CODES stores (R170 to R177). -/

namespace Sys2Proof.Machine

/-! ### The traversal -/

/-- The nodes that rules read: NODE and NODE_COUNT. What a state spells depends on them and on
FREQ only. -/
theorem spells_congr {s t : State} (hn : t.nodes = s.nodes) (hc : t.nodeCount = s.nodeCount)
    (hf : t.freq = s.freq) {i : NodeIdx} {u : CodeTree} (h : Spells s i u) : Spells t i u := by
  have hnode : ∀ j, t.node j = s.node j := by intro j; simp [State.node, hn, hc]
  have halloc : ∀ j k, s.allocated j k → t.allocated j k := by
    intro j k hj
    simpa [State.allocated, hnode, hc] using hj
  have hleaf : ∀ j x, SpellsLeaf s j x → SpellsLeaf t j x := by
    intro j x ⟨h1, h2⟩
    exact ⟨halloc _ _ h1, by simpa [hnode, hf] using h2⟩
  induction u generalizing i with
  | leaf x => exact hleaf _ _ h
  | single x =>
    obtain ⟨h1, h2, h3, h4, h5⟩ := h
    exact ⟨halloc _ _ h1, by rwa [hnode], by rwa [hnode], by rwa [hnode, hf],
      by rw [hnode]; exact hleaf _ _ h5⟩
  | node l r ihl ihr =>
    obtain ⟨h1, h2, h3, h4, h5⟩ := h
    exact ⟨halloc _ _ h1, by rwa [hnode], by rwa [hnode, hf], by rw [hnode]; exact ihl h4,
      by rw [hnode]; exact ihr h5⟩

theorem Spells.allocated {s : State} {i : NodeIdx} {t : CodeTree} (h : Spells s i t) :
    s.allocated i (if t.isInner then .internal else .leaf) := by
  cases t with
  | leaf x => exact h.1
  | single x => exact h.1
  | node l r => exact h.1

theorem Spells.ne_nil {s : State} {i : NodeIdx} {t : CodeTree} (h : Spells s i t) :
    i ≠ Config.nil := h.allocated.2.1

/-- The paths of a tree under a path that leads to it. -/
def CodeTree.pathsFrom (t : CodeTree) (path : List Bool) : List (Byte × List Bool) :=
  t.paths.map fun e => (e.1, path ++ e.2)

/-- A stack of nodes, each with the tree it is the root of. -/
inductive StackOf (s : State) : List (NodeIdx × List Bool) → List (CodeTree × List Bool) → Prop
  | nil : StackOf s [] []
  | cons {i t p stack trees} : Spells s i t → StackOf s stack trees →
      StackOf s ((i, p) :: stack) ((t, p) :: trees)

/-- With fuel for every node of the stack's trees, the traversal finds every leaf with its path, the
last visited first (R172). -/
theorem visitTree_spec (s : State) :
    ∀ (fuel : Nat) (stack : List (NodeIdx × List Bool)) (trees : List (CodeTree × List Bool))
      (found : List (Byte × List Bool)),
      StackOf s stack trees → (trees.map fun e => e.1.size).sum ≤ fuel →
      visitTree s fuel stack found =
        (trees.flatMap fun e => e.1.pathsFrom e.2).reverse ++ found := by
  intro fuel
  induction fuel with
  | zero =>
    intro stack trees found h hf
    cases h with
    | nil => simp [visitTree]
    | @cons i t p stack trees ht _ =>
      exfalso
      have : 1 ≤ t.size := by cases t <;> simp only [CodeTree.size] <;> omega
      simp only [List.map_cons, List.sum_cons] at hf
      omega
  | succ fuel ih =>
    intro stack trees found h hf
    cases h with
    | nil => simp [visitTree]
    | @cons i t p stack trees ht hrest =>
      simp only [List.map_cons, List.sum_cons] at hf
      cases t with
      | leaf x =>
        have hk : (s.node i).kind = .leaf := ht.1.2.2
        have hs : (s.node i).sym = x := ht.2.1
        simp only [visitTree, hk, hs]
        rw [ih stack trees _ hrest (by simp only [CodeTree.size] at hf; omega)]
        simp [CodeTree.pathsFrom, CodeTree.paths]
      | single x =>
        obtain ⟨h1, _, h3, _, h5⟩ := ht
        have hk : (s.node i).kind = .internal := h1.2.2
        have hchild : childVisits (s.node i) p = [((s.node i).left, p ++ [false])] := by
          simp [childVisits, h3]
        simp only [visitTree, hk, hchild]
        rw [List.singleton_append,
          ih _ ((.leaf x, p ++ [false]) :: trees) found (.cons (t := .leaf x) h5 hrest) (by
            simp only [List.map_cons, List.sum_cons, CodeTree.size] at *; omega)]
        simp [CodeTree.pathsFrom, CodeTree.paths]
      | node l r =>
        obtain ⟨h1, _, _, h4, h5⟩ := ht
        have hk : (s.node i).kind = .internal := h1.2.2
        have hchild : childVisits (s.node i) p =
            [((s.node i).left, p ++ [false]), ((s.node i).right, p ++ [true])] := by
          simp [childVisits, h5.ne_nil]
        simp only [visitTree, hk, hchild]
        have := ih ([((s.node i).left, p ++ [false]), ((s.node i).right, p ++ [true])] ++ stack)
          ((l, p ++ [false]) :: (r, p ++ [true]) :: trees) found (.cons h4 (.cons h5 hrest)) (by
            simp only [List.map_cons, List.sum_cons, CodeTree.size] at *; omega)
        rw [this]
        simp [CodeTree.pathsFrom, CodeTree.paths, Function.comp_def]

/-- The leaves found by ASSIGN_CODES are those of the tree, with their paths (R172). -/
theorem TreeIs.leafPaths {s : State} {t : CodeTree} (h : TreeIs s t) :
    s.leafPaths = t.paths.reverse := by
  rw [State.leafPaths, visitTree_spec s _ _ [(t, [])] [] (.cons h.spells .nil)
    (by simp [h.size])]
  simp [CodeTree.pathsFrom]

/-- The traversal reads the arena only (R170, R180). -/
theorem leafPaths_congr {s t : State} (hn : t.nodes = s.nodes) (hc : t.nodeCount = s.nodeCount)
    (hr : t.root = s.root) : t.leafPaths = s.leafPaths := by
  have hnode : ∀ i, t.node i = s.node i := by intro i; simp [State.node, hn, hc]
  have go : ∀ fuel stack found, visitTree t fuel stack found = visitTree s fuel stack found := by
    intro fuel
    induction fuel with
    | zero => intro stack found; simp [visitTree]
    | succ fuel ih =>
      intro stack found
      match stack with
      | [] => simp [visitTree]
      | (x, p) :: rest => simp only [visitTree, hnode, ih]
  rw [State.leafPaths, State.leafPaths, hc, hr, go]

/-! ### Looking a path up -/

theorem lookup_eq_some_of_mem {l : List (Byte × List Bool)} (hn : (l.map Prod.fst).Nodup)
    {x : Byte} {p : List Bool} (h : (x, p) ∈ l) : l.lookup x = some p := by
  induction l with
  | nil => simp at h
  | cons e l ih =>
    obtain ⟨y, q⟩ := e
    simp only [List.map_cons, List.nodup_cons] at hn
    rcases List.mem_cons.mp h with h | h
    · obtain ⟨rfl, rfl⟩ := Prod.mk.inj h
      simp
    · have hne : x ≠ y := by
        intro e
        exact hn.1 (e ▸ List.mem_map.mpr ⟨(x, p), h, rfl⟩)
      simp [List.lookup_cons, beq_false_of_ne hne, ih hn.2 h]

theorem lookup_eq_none_of_not_mem {l : List (Byte × List Bool)} {x : Byte}
    (h : x ∉ l.map Prod.fst) : l.lookup x = none := by
  induction l with
  | nil => rfl
  | cons e l ih =>
    obtain ⟨y, q⟩ := e
    simp only [List.map_cons, List.mem_cons, not_or] at h
    simp [List.lookup_cons, beq_false_of_ne h.1, ih h.2]

theorem pathIn_of_mem {l : List (Byte × List Bool)} (hn : (l.map Prod.fst).Nodup)
    {x : Byte} {p : List Bool} (h : (x, p) ∈ l) : pathIn l x = p := by
  simp [pathIn, lookup_eq_some_of_mem hn h]

theorem pathIn_of_not_mem {l : List (Byte × List Bool)} {x : Byte}
    (h : x ∉ l.map Prod.fst) : pathIn l x = [] := by
  simp [pathIn, lookup_eq_none_of_not_mem h]

theorem CodeTree.path_eq_pathIn (t : CodeTree) (x : Byte) : t.path x = pathIn t.paths x := rfl

/-- A symbol's path does not depend on the order the leaves were found in (R172). -/
theorem pathIn_perm {l m : List (Byte × List Bool)} (h : l.Perm m) (hn : (l.map Prod.fst).Nodup)
    (x : Byte) : pathIn l x = pathIn m x := by
  by_cases hx : x ∈ l.map Prod.fst
  · obtain ⟨⟨y, p⟩, hp, hy⟩ := List.mem_map.mp hx
    obtain rfl : y = x := hy
    rw [pathIn_of_mem hn hp, pathIn_of_mem ((h.map _).nodup_iff.mp hn) (h.mem_iff.mp hp)]
  · rw [pathIn_of_not_mem hx, pathIn_of_not_mem fun h' => hx ((h.map _).mem_iff.mpr h')]

theorem TreeIs.nodup {s : State} {t : CodeTree} (h : TreeIs s t) : t.symbols.Nodup :=
  h.leaves.nodup_iff.mpr (leafSymbols_nodup _)

/-- path[x] of ASSIGN_CODES is the path in the tree. -/
theorem TreeIs.pathIn_leafPaths {s : State} {t : CodeTree} (h : TreeIs s t) (x : Byte) :
    pathIn s.leafPaths x = t.path x := by
  rw [h.leafPaths, t.path_eq_pathIn]
  refine pathIn_perm (List.reverse_perm _) ?_ x
  rw [List.map_reverse, List.nodup_reverse]
  exact h.nodup

theorem TreeIs.mem_symbols {s : State} {t : CodeTree} (h : TreeIs s t) (x : Byte) :
    x ∈ t.symbols ↔ entry s.freq x ≠ 0 := by
  rw [h.leaves.mem_iff, mem_leafSymbols]

theorem TreeIs.path_of_mem {s : State} {t : CodeTree} (h : TreeIs s t) {x : Byte} {p : List Bool}
    (hp : (x, p) ∈ t.paths) : t.path x = p := pathIn_of_mem h.nodup hp

theorem TreeIs.mem_paths {s : State} {t : CodeTree} (h : TreeIs s t) {x : Byte}
    (hx : entry s.freq x ≠ 0) : (x, t.path x) ∈ t.paths := by
  obtain ⟨⟨y, p⟩, hp, hy⟩ := List.mem_map.mp ((h.mem_symbols x).mpr hx)
  obtain rfl : y = x := hy
  rwa [h.path_of_mem hp]

theorem TreeIs.path_eq_nil {s : State} {t : CodeTree} (h : TreeIs s t) {x : Byte}
    (hx : entry s.freq x = 0) : t.path x = [] :=
  pathIn_of_not_mem fun h' => (h.mem_symbols x).mp h' hx

theorem CodeTree.path_ne_nil_of_isInner {t : CodeTree} (ht : t.isInner = true) {x : Byte}
    {p : List Bool} (hp : (x, p) ∈ t.paths) : p ≠ [] := by
  cases t with
  | leaf y => simp [CodeTree.isInner] at ht
  | single y =>
    simp only [CodeTree.paths, List.mem_singleton, Prod.mk.injEq] at hp
    simp [hp.2]
  | node l r =>
    simp only [CodeTree.paths, List.mem_append, List.mem_map] at hp
    rcases hp with ⟨e, _, he⟩ | ⟨e, _, he⟩
    · rw [← (Prod.mk.inj he).2]; simp
    · rw [← (Prod.mk.inj he).2]; simp

theorem CodeTree.isInner_of_isWhole {t : CodeTree} (h : t.isWhole = true) : t.isInner = true := by
  cases t <;> simp_all [CodeTree.isWhole, CodeTree.isInner]

theorem CodeTree.paths_ne_nil (t : CodeTree) : t.paths ≠ [] := by
  induction t with
  | leaf x => simp [CodeTree.paths]
  | single x => simp [CodeTree.paths]
  | node l r ihl _ => simp [CodeTree.paths, ihl]

/-- A leaf symbol has a code of at least one bit (R153). -/
theorem TreeIs.path_ne_nil {s : State} {t : CodeTree} (h : TreeIs s t) {x : Byte}
    (hx : entry s.freq x ≠ 0) : t.path x ≠ [] :=
  t.path_ne_nil_of_isInner (CodeTree.isInner_of_isWhole h.whole) (h.mem_paths hx)

/-! ### The outcomes of ASSIGN_CODES -/

theorem treeIs_congr {s t : State} (hn : t.nodes = s.nodes) (hc : t.nodeCount = s.nodeCount)
    (hf : t.freq = s.freq) (hr : t.root = s.root) (hl : t.leafCount = s.leafCount) {u : CodeTree}
    (h : TreeIs s u) : TreeIs t u :=
  ⟨h.whole, by rw [hr]; exact spells_congr hn hc hf h.spells, by rw [hc]; exact h.size,
    by rw [hf]; exact h.leaves, by rw [hl]; exact h.leafCount⟩

theorem tooDeep_eq_none (found : List (Byte × List Bool)) :
    tooDeep found = none ↔ ∀ x, (pathIn found x).length ≤ Config.maxCodeLen := by
  simp [tooDeep]

theorem tooDeep_eq_some (found : List (Byte × List Bool)) (x : Byte) :
    tooDeep found = some x ↔ Config.maxCodeLen < (pathIn found x).length ∧
      ∀ y : Byte, y.toNat < x.toNat → (pathIn found y).length ≤ Config.maxCodeLen := by
  simp [tooDeep, find_symbols_eq_some]

/-- What ASSIGN_CODES stores for a tree within the ceiling are that tree's codes (R174, R175). -/
theorem storeCodes_codesAre {s : State} {t : CodeTree} (h : TreeIs s t)
    (hd : ∀ x, (t.path x).length ≤ Config.maxCodeLen) :
    CodesAre (s.storeCodes s.leafPaths) t := by
  refine ⟨hd, fun x => ?_, fun x => ?_, rfl⟩
  · simp [h.pathIn_leafPaths]
  · simp [h.pathIn_leafPaths]

/-- Every outcome of ASSIGN_CODES on a state whose arena spells the tree `t` (R170, R171, R173). -/
theorem execAssignCodes_cases {s : State} {t : CodeTree} (hv : s.treeValid = true)
    (h : TreeIs s t) :
    (∃ x, Config.maxCodeLen < (t.path x).length ∧
        (∀ y : Byte, y.toNat < x.toNat → (t.path y).length ≤ Config.maxCodeLen) ∧
        execAssignCodes s = .next (s.invalidateCodes.raise .codeLengthOverflow (x.setWidth 32)
          (BitVec.ofNat 32 (t.path x).length))) ∨
    ((∀ x, (t.path x).length ≤ Config.maxCodeLen) ∧
      execAssignCodes s = .next (s.invalidateCodes.storeCodes s.invalidateCodes.leafPaths) ∧
      CodesAre (s.invalidateCodes.storeCodes s.invalidateCodes.leafPaths) t) := by
  have h' : TreeIs s.invalidateCodes t :=
    treeIs_congr (s := s) (t := s.invalidateCodes) rfl rfl rfl rfl rfl h
  unfold execAssignCodes
  rw [if_neg (by simp [hv])]
  dsimp only
  cases hd : tooDeep s.invalidateCodes.leafPaths with
  | some x =>
    left
    have := (tooDeep_eq_some _ _).mp hd
    simp only [h'.pathIn_leafPaths] at this ⊢
    exact ⟨x, this.1, this.2, rfl⟩
  | none =>
    right
    have := (tooDeep_eq_none _).mp hd
    simp only [h'.pathIn_leafPaths] at this
    exact ⟨this, rfl, storeCodes_codesAre h' this⟩

end Sys2Proof.Machine
end

