-- ==== Sys2Proof/Laws/BitReader.lean ====
section
/-! SUPPORT. What decode steps do (R224 to R230): which state they may change, that they stay inside
the tree, and that the path of a leaf emits that leaf's symbol. -/

namespace Sys2Proof.Machine

/-- What decode steps leave unchanged, whether or not they end in an error: everything but
DEC_REMAIN, DEC_POS, DEC_SYMS, DEC_OUT and the error registers. -/
structure DecodeFrame (s t : State) : Prop where
  freq : SameFreq s t
  tree : SameTree s t
  codes : SameCodes s t
  writer : SameWriter s t
  control : SameControl s t
  model : SameModel s t
  state : t.decState = s.decState
  bytes : t.decBytes = s.decBytes
  extra : t.decExtra = s.decExtra
  out : ∃ new, t.decOut = s.decOut ++ new

theorem DecodeFrame.refl (s : State) : DecodeFrame s s :=
  ⟨rfl, ⟨rfl, rfl, rfl, rfl, rfl⟩, ⟨rfl, rfl, rfl, rfl⟩, ⟨rfl, rfl, rfl, rfl, rfl⟩,
    ⟨rfl, rfl, rfl, rfl, rfl, rfl⟩, ⟨rfl, rfl, rfl⟩, rfl, rfl, rfl, [], by simp⟩

theorem DecodeFrame.trans {s t u : State} (h : DecodeFrame s t) (g : DecodeFrame t u) :
    DecodeFrame s u := by
  obtain ⟨a1, ⟨a2, a3, a4, a5, a6⟩, ⟨a7, a8, a9, a10⟩, ⟨b1, b2, b3, b4, b5⟩,
    ⟨b6, b7, b8, b9, b10, b11⟩, ⟨c1, c2, c3⟩, c4, c5, c6, n1, c7⟩ := h
  obtain ⟨d1, ⟨d2, d3, d4, d5, d6⟩, ⟨d7, d8, d9, d10⟩, ⟨e1, e2, e3, e4, e5⟩,
    ⟨e6, e7, e8, e9, e10, e11⟩, ⟨f1, f2, f3⟩, f4, f5, f6, n2, f7⟩ := g
  exact ⟨d1.trans a1, ⟨d2.trans a2, d3.trans a3, d4.trans a4, d5.trans a5, d6.trans a6⟩,
    ⟨d7.trans a7, d8.trans a8, d9.trans a9, d10.trans a10⟩,
    ⟨e1.trans b1, e2.trans b2, e3.trans b3, e4.trans b4, e5.trans b5⟩,
    ⟨e6.trans b6, e7.trans b7, e8.trans b8, e9.trans b9, e10.trans b10, e11.trans b11⟩,
    ⟨f1.trans c1, f2.trans c2, f3.trans c3⟩, f4.trans c4, f5.trans c5, f6.trans c6,
    n1 ++ n2, by simp [f7, c7]⟩

theorem DecodeFrame.spells {s t : State} (h : DecodeFrame s t) {i : NodeIdx} {u : CodeTree}
    (hu : Spells s i u) : Spells t i u :=
  spells_congr h.tree.2.2.2.2 h.tree.2.2.1 h.freq hu

theorem DecodeFrame.node {s t : State} (h : DecodeFrame s t) (i : NodeIdx) :
    t.node i = s.node i := by
  simp [State.node, h.tree.2.2.2.2, h.tree.2.2.1]

namespace State

/-- DEC_REMAIN counts a consumed bit (R224). -/
def consume (s : State) : State := { s with decRemain := s.decRemain - 1 }

theorem consume_decRemain (s : State) : s.consume.decRemain = s.decRemain - 1 := rfl

/-- The three outcomes of a decode step (R224): a missing child, a leaf, an internal node. -/
theorem decodeBit_cases (s : State) (bit : Bool) :
    (Node.child (s.node s.decPos) bit = Config.nil ∧ s.decodeBit bit =
      .error (s.consume.raise .corruptStream 1 (s.decPos.setWidth 32))) ∨
    (Node.child (s.node s.decPos) bit ≠ Config.nil ∧
      (s.node (Node.child (s.node s.decPos) bit)).kind = .leaf ∧ s.decodeBit bit =
      .ok (s.consume.emitSymbol (s.node (Node.child (s.node s.decPos) bit)).sym)) ∨
    (Node.child (s.node s.decPos) bit ≠ Config.nil ∧
      (s.node (Node.child (s.node s.decPos) bit)).kind = .internal ∧ s.decodeBit bit =
      .ok { s.consume with decPos := Node.child (s.node s.decPos) bit }) := by
  by_cases hn : Node.child (s.node s.decPos) bit = Config.nil
  · exact .inl ⟨hn, if_pos hn⟩
  · right
    have hstep : s.decodeBit bit =
        match (s.node (Node.child (s.node s.decPos) bit)).kind with
        | .leaf => .ok (s.consume.emitSymbol (s.node (Node.child (s.node s.decPos) bit)).sym)
        | .internal => .ok { s.consume with decPos := Node.child (s.node s.decPos) bit } :=
      if_neg hn
    cases hk : (s.node (Node.child (s.node s.decPos) bit)).kind with
    | leaf => exact .inl ⟨hn, rfl, by rw [hstep, hk]⟩
    | internal => exact .inr ⟨hn, rfl, by rw [hstep, hk]⟩

theorem consume_frame (s : State) : DecodeFrame s s.consume :=
  ⟨rfl, ⟨rfl, rfl, rfl, rfl, rfl⟩, ⟨rfl, rfl, rfl, rfl⟩, ⟨rfl, rfl, rfl, rfl, rfl⟩,
    ⟨rfl, rfl, rfl, rfl, rfl, rfl⟩, ⟨rfl, rfl, rfl⟩, rfl, rfl, rfl, [], by simp [consume]⟩

theorem emitSymbol_frame (s : State) (x : Byte) : DecodeFrame s (s.emitSymbol x) :=
  ⟨rfl, ⟨rfl, rfl, rfl, rfl, rfl⟩, ⟨rfl, rfl, rfl, rfl⟩, ⟨rfl, rfl, rfl, rfl, rfl⟩,
    ⟨rfl, rfl, rfl, rfl, rfl, rfl⟩, ⟨rfl, rfl, rfl⟩, rfl, rfl, rfl, [x], rfl⟩

theorem moveTo_frame (s : State) (i : NodeIdx) : DecodeFrame s { s with decPos := i } :=
  ⟨rfl, ⟨rfl, rfl, rfl, rfl, rfl⟩, ⟨rfl, rfl, rfl, rfl⟩, ⟨rfl, rfl, rfl, rfl, rfl⟩,
    ⟨rfl, rfl, rfl, rfl, rfl, rfl⟩, ⟨rfl, rfl, rfl⟩, rfl, rfl, rfl, [], by simp⟩

theorem raise_frame (s : State) (e : ErrCode) (i0 i1 : Word) : DecodeFrame s (s.raise e i0 i1) :=
  ⟨rfl, ⟨rfl, rfl, rfl, rfl, rfl⟩, ⟨rfl, rfl, rfl, rfl⟩, ⟨rfl, rfl, rfl, rfl, rfl⟩,
    ⟨rfl, rfl, rfl, rfl, rfl, rfl⟩, ⟨rfl, rfl, rfl⟩, rfl, rfl, rfl, [], by simp⟩

theorem consume_errors (s : State) : SameErrors s s.consume := ⟨rfl, rfl, rfl, rfl⟩

/-- A decode step that succeeds changes the decoder only, and counts one bit. -/
theorem decodeBit_ok {s t : State} {bit : Bool} (h : s.decodeBit bit = .ok t) :
    DecodeFrame s t ∧ SameErrors s t ∧ t.decRemain = s.decRemain - 1 := by
  rcases s.decodeBit_cases bit with ⟨_, he⟩ | ⟨_, _, he⟩ | ⟨_, _, he⟩
  · rw [he] at h; cases h
  · rw [he] at h
    obtain rfl := Except.ok.inj h
    exact ⟨s.consume_frame.trans (emitSymbol_frame _ _), s.consume_errors, s.consume_decRemain⟩
  · rw [he] at h
    obtain rfl := Except.ok.inj h
    exact ⟨s.consume_frame.trans (moveTo_frame _ _), s.consume_errors, s.consume_decRemain⟩

/-- A decode step that fails is the missing child of R230: the bit is consumed, DEC_POS stays. -/
theorem decodeBit_error {s t : State} {bit : Bool} (h : s.decodeBit bit = .error t) :
    DecodeFrame s t ∧ t.errCode = .corruptStream ∧ t.errInfo0 = 1 ∧
      t.errInfo1 = s.decPos.setWidth 32 ∧ t.errCmd = s.pendCmd ∧ t.decPos = s.decPos ∧
      t.decRemain = s.decRemain - 1 ∧ t.decSyms = s.decSyms ∧ t.decOut = s.decOut ∧
      Node.child (s.node s.decPos) bit = Config.nil := by
  rcases s.decodeBit_cases bit with ⟨hn, he⟩ | ⟨_, _, he⟩ | ⟨_, _, he⟩
  · rw [he] at h
    obtain rfl := Except.error.inj h
    exact ⟨s.consume_frame.trans (raise_frame _ _ _ _), rfl, rfl, rfl, rfl, rfl, s.consume_decRemain, rfl, rfl, hn⟩
  · rw [he] at h; cases h
  · rw [he] at h; cases h

@[simp] theorem decodeBits_nil (s : State) : s.decodeBits [] = .ok s := rfl

theorem decodeBits_cons_ok {s t : State} {bit : Bool} {bits : List Bool}
    (h : s.decodeBit bit = .ok t) : s.decodeBits (bit :: bits) = t.decodeBits bits := by
  simp [decodeBits, h]

theorem decodeBits_cons_error {s t : State} {bit : Bool} {bits : List Bool}
    (h : s.decodeBit bit = .error t) : s.decodeBits (bit :: bits) = .error t := by
  simp [decodeBits, h]

/-- Bits are decoded one after the other. -/
theorem decodeBits_append_ok {s t : State} {a b : List Bool} (h : s.decodeBits a = .ok t) :
    s.decodeBits (a ++ b) = t.decodeBits b := by
  induction a generalizing s with
  | nil =>
    obtain rfl := Except.ok.inj h
    rfl
  | cons bit a ih =>
    cases hb : s.decodeBit bit with
    | error e => rw [decodeBits_cons_error hb] at h; cases h
    | ok u =>
      rw [decodeBits_cons_ok hb] at h
      rw [List.cons_append, decodeBits_cons_ok hb]
      exact ih h

/-- Decode steps that succeed change the decoder only, and count their bits. -/
theorem decodeBits_ok {s t : State} {bits : List Bool} (h : s.decodeBits bits = .ok t) :
    DecodeFrame s t ∧ SameErrors s t ∧
      t.decRemain = s.decRemain - BitVec.ofNat 64 bits.length := by
  induction bits generalizing s with
  | nil =>
    obtain rfl := Except.ok.inj h
    exact ⟨.refl s, ⟨rfl, rfl, rfl, rfl⟩, by simp⟩
  | cons bit bits ih =>
    cases hb : s.decodeBit bit with
    | error e => rw [decodeBits_cons_error hb] at h; cases h
    | ok u =>
      rw [decodeBits_cons_ok hb] at h
      obtain ⟨f1, ⟨e1, e2, e3, e4⟩, r1⟩ := decodeBit_ok hb
      obtain ⟨f2, ⟨g1, g2, g3, g4⟩, r2⟩ := ih h
      refine ⟨f1.trans f2, ⟨g1.trans e1, g2.trans e2, g3.trans e3, g4.trans e4⟩, ?_⟩
      rw [r2, r1, List.length_cons, BitVec.ofNat_add]
      simp only [BitVec.sub_eq_add_neg, BitVec.neg_add]
      rw [BitVec.add_assoc, BitVec.add_comm (-1)]
      rfl

/-- Decode steps that fail end in the CorruptStream of a missing child (R230). -/
theorem decodeBits_error {s t : State} {bits : List Bool} (h : s.decodeBits bits = .error t) :
    DecodeFrame s t ∧ t.errCode = .corruptStream ∧ t.errInfo0 = 1 ∧
      t.errInfo1 = t.decPos.setWidth 32 ∧ t.errCmd = s.pendCmd ∧
      ∃ bit, Node.child (t.node t.decPos) bit = Config.nil := by
  induction bits generalizing s with
  | nil => cases h
  | cons bit bits ih =>
    cases hb : s.decodeBit bit with
    | error e =>
      rw [decodeBits_cons_error hb] at h
      obtain rfl := Except.error.inj h
      obtain ⟨f, h1, h2, h3, h4, h5, _, _, _, h9⟩ := decodeBit_error hb
      exact ⟨f, h1, h2, by rw [h3, h5], h4, bit, by rw [h5, f.node]; exact h9⟩
    | ok u =>
      rw [decodeBits_cons_ok hb] at h
      obtain ⟨f1, _, _⟩ := decodeBit_ok hb
      obtain ⟨f2, h1, h2, h3, h4, h5⟩ := ih h
      exact ⟨f1.trans f2, h1, h2, h3, h4.trans f1.control.2.2.2.2.1, h5⟩

end State

/-! ### The walk stays inside the tree -/

/-- A decode step from an internal node of the arena that succeeds ends at an internal node. -/
theorem decodeBit_walk {s t : State} {bit : Bool} {r u : CodeTree} (hr : r.isInner = true)
    (hroot : Spells s s.root r) (hu : u.isInner = true) (hpos : Spells s s.decPos u)
    (h : s.decodeBit bit = .ok t) : ∃ v : CodeTree, v.isInner = true ∧ Spells t t.decPos v := by
  obtain ⟨f, _, _⟩ := State.decodeBit_ok h
  rcases s.decodeBit_cases bit with ⟨_, he⟩ | ⟨_, _, he⟩ | ⟨hn, hk, he⟩
  · rw [he] at h; cases h
  · rw [he] at h
    obtain rfl := Except.ok.inj h
    exact ⟨r, hr, f.spells hroot⟩
  · rw [he] at h
    obtain rfl := Except.ok.inj h
    have hchild : ∃ w, Spells s (Node.child (s.node s.decPos) bit) w := by
      cases u with
      | leaf x => simp [CodeTree.isInner] at hu
      | single x =>
        obtain ⟨_, _, h3, _, h5⟩ := hpos
        cases bit with
        | false => exact ⟨.leaf x, h5⟩
        | true => exact absurd h3 hn
      | node a b =>
        obtain ⟨_, _, _, h4, h5⟩ := hpos
        cases bit with
        | false => exact ⟨a, h4⟩
        | true => exact ⟨b, h5⟩
    obtain ⟨w, hw⟩ := hchild
    refine ⟨w, ?_, f.spells hw⟩
    have := hw.allocated.2.2
    rw [hk] at this
    cases hi : w.isInner with
    | true => rfl
    | false => simp [hi] at this

/-- Decode steps stay inside the tree, whether or not they end in an error. -/
theorem decodeBits_walk {s : State} {bits : List Bool} {r u : CodeTree} (hr : r.isInner = true)
    (hroot : Spells s s.root r) (hu : u.isInner = true) (hpos : Spells s s.decPos u) {t : State}
    (h : s.decodeBits bits = .ok t ∨ s.decodeBits bits = .error t) :
    ∃ v : CodeTree, v.isInner = true ∧ Spells t t.decPos v := by
  induction bits generalizing s u with
  | nil =>
    rcases h with h | h
    · obtain rfl := Except.ok.inj h
      exact ⟨u, hu, hpos⟩
    · cases h
  | cons bit bits ih =>
    cases hb : s.decodeBit bit with
    | error e =>
      rw [State.decodeBits_cons_error hb] at h
      rcases h with h | h
      · cases h
      · obtain rfl := Except.error.inj h
        obtain ⟨f, _, _, _, _, h5, _⟩ := State.decodeBit_error hb
        exact ⟨u, hu, by rw [h5]; exact f.spells hpos⟩
    | ok t' =>
      rw [State.decodeBits_cons_ok hb] at h
      obtain ⟨f, _, _⟩ := State.decodeBit_ok hb
      obtain ⟨v, hv, hv'⟩ := decodeBit_walk hr hroot hu hpos hb
      have hroot' : Spells t' t'.root r := by
        rw [f.tree.2.1]; exact f.spells hroot
      exact ih hroot' hv hv' h

/-- In a tree with two children everywhere no decode step fails. -/
theorem decodeBit_full {s : State} {u : CodeTree} (hu : u.isInner = true) (hf : u.full = true)
    (hpos : Spells s s.decPos u) (bit : Bool) : ∃ t, s.decodeBit bit = .ok t := by
  cases u with
  | leaf x => simp [CodeTree.isInner] at hu
  | single x => simp [CodeTree.full] at hf
  | node a b =>
    obtain ⟨_, _, _, h4, h5⟩ := hpos
    rcases s.decodeBit_cases bit with ⟨hn, _⟩ | ⟨_, _, he⟩ | ⟨_, _, he⟩
    · cases bit with
      | false => exact absurd hn h4.ne_nil
      | true => exact absurd hn h5.ne_nil
    · exact ⟨_, he⟩
    · exact ⟨_, he⟩

/-! ### The path of a leaf emits its symbol (R235) -/

/-- One step to a leaf. -/
theorem decodeBit_to_leaf {s : State} {bit : Bool} {x : Byte}
    (h : SpellsLeaf s (Node.child (s.node s.decPos) bit) x) :
    s.decodeBit bit = .ok (s.consume.emitSymbol x) := by
  rcases s.decodeBit_cases bit with ⟨hn, _⟩ | ⟨_, _, he⟩ | ⟨_, hk, _⟩
  · exact absurd hn h.1.2.1
  · rw [he, h.2.1]
  · exact absurd (hk.symm.trans h.1.2.2) (by simp)

/-- One step to an internal node. -/
theorem decodeBit_to_inner {s : State} {bit : Bool} {u : CodeTree} (hu : u.isInner = true)
    (h : Spells s (Node.child (s.node s.decPos) bit) u) :
    s.decodeBit bit = .ok { s.consume with decPos := Node.child (s.node s.decPos) bit } := by
  have hk := h.allocated.2.2
  rw [hu] at hk
  rcases s.decodeBit_cases bit with ⟨hn, _⟩ | ⟨_, hk', _⟩ | ⟨_, _, he⟩
  · exact absurd hn h.ne_nil
  · exact absurd (hk'.symm.trans hk) (by simp)
  · exact he

/-- Decoding the path of a leaf from the tree's top emits exactly that leaf's symbol and goes back
to the root (R224, R228, R235). -/
theorem decodeBits_path {s : State} {u : CodeTree} (hu : u.isInner = true)
    (hpos : Spells s s.decPos u) {x : Byte} {p : List Bool} (hp : (x, p) ∈ u.paths) :
    s.decodeBits p = .ok { s with
      decRemain := s.decRemain - BitVec.ofNat 64 p.length, decOut := s.decOut ++ [x],
      decSyms := s.decSyms + 1, decPos := s.root } := by
  induction u generalizing s p with
  | leaf y => simp [CodeTree.isInner] at hu
  | single y =>
    obtain ⟨_, _, _, _, h5⟩ := hpos
    simp only [CodeTree.paths, List.mem_singleton, Prod.mk.injEq] at hp
    obtain ⟨rfl, rfl⟩ := hp
    rw [State.decodeBits_cons_ok (decodeBit_to_leaf (bit := false) h5)]
    rfl
  | node l r ihl ihr =>
    obtain ⟨_, _, _, h4, h5⟩ := hpos
    have step : ∀ (bit : Bool) (c : CodeTree) (q : List Bool),
        Spells s (Node.child (s.node s.decPos) bit) c → (x, q) ∈ c.paths →
        (∀ {s' : State} {p' : List Bool}, c.isInner = true → Spells s' s'.decPos c →
          (x, p') ∈ c.paths → s'.decodeBits p' = .ok { s' with
            decRemain := s'.decRemain - BitVec.ofNat 64 p'.length, decOut := s'.decOut ++ [x],
            decSyms := s'.decSyms + 1, decPos := s'.root }) →
        s.decodeBits (bit :: q) = .ok { s with
          decRemain := s.decRemain - BitVec.ofNat 64 (q.length + 1), decOut := s.decOut ++ [x],
          decSyms := s.decSyms + 1, decPos := s.root } := by
      intro bit c q hc hq ih
      cases hi : c.isInner with
      | false =>
        cases c with
        | leaf y =>
          simp only [CodeTree.paths, List.mem_singleton, Prod.mk.injEq] at hq
          obtain ⟨rfl, rfl⟩ := hq
          rw [State.decodeBits_cons_ok (decodeBit_to_leaf hc)]
          rfl
        | single y => simp [CodeTree.isInner] at hi
        | node a b => simp [CodeTree.isInner] at hi
      | true =>
        rw [State.decodeBits_cons_ok (decodeBit_to_inner hi hc)]
        have hc' : Spells { s.consume with decPos := Node.child (s.node s.decPos) bit }
            (Node.child (s.node s.decPos) bit) c :=
          spells_congr (s := s) (t := { s.consume with decPos := Node.child (s.node s.decPos) bit })
            rfl rfl rfl hc
        rw [ih hi hc' hq]
        have : s.decRemain - 1 - BitVec.ofNat 64 q.length =
            s.decRemain - BitVec.ofNat 64 (q.length + 1) := by
          rw [BitVec.ofNat_add]
          simp only [BitVec.sub_eq_add_neg, BitVec.neg_add]
          rw [BitVec.add_assoc, BitVec.add_comm (-1)]
          rfl
        simp only [State.consume, this]
    simp only [CodeTree.paths, List.mem_append, List.mem_map] at hp
    rcases hp with ⟨⟨y, q⟩, hq, he⟩ | ⟨⟨y, q⟩, hq, he⟩
    · obtain ⟨rfl, rfl⟩ := Prod.mk.inj he
      exact step false l q h4 hq (fun {_ _} h1 h2 h3 => ihl h1 h2 h3)
    · obtain ⟨rfl, rfl⟩ := Prod.mk.inj he
      exact step true r q h5 hq (fun {_ _} h1 h2 h3 => ihr h1 h2 h3)

/-! ### Decode steps against the tree (R224, R226, R230) -/

/-- One decode step does what one step on the tree does: the missing child, or the symbols and the
position. -/
theorem decodeBit_spec {s : State} {r u : CodeTree} (hroot : Spells s s.root r)
    (hu : u.isInner = true) (hpos : Spells s s.decPos u) (bit : Bool) :
    (r.step u bit = none ∧ Node.child (s.node s.decPos) bit = Config.nil) ∨
    (∃ out u' i, r.step u bit = some (out, u') ∧ (r.isInner = true → u'.isInner = true) ∧
      s.decodeBit bit = .ok { s with
        decRemain := s.decRemain - 1, decPos := i, decOut := s.decOut ++ out,
        decSyms := s.decSyms + BitVec.ofNat 64 out.length } ∧ Spells s i u') := by
  have go : ∀ c : CodeTree, Spells s (Node.child (s.node s.decPos) bit) c →
      (∃ x, c = .leaf x ∧ s.decodeBit bit = .ok { s with
        decRemain := s.decRemain - 1, decPos := s.root, decOut := s.decOut ++ [x],
        decSyms := s.decSyms + BitVec.ofNat 64 1 }) ∨
      (c.isInner = true ∧ s.decodeBit bit = .ok { s with
        decRemain := s.decRemain - 1, decPos := Node.child (s.node s.decPos) bit,
        decOut := s.decOut ++ [], decSyms := s.decSyms + BitVec.ofNat 64 0 }) := by
    intro c hc
    cases hi : c.isInner with
    | false =>
      cases c with
      | leaf x => exact .inl ⟨x, rfl, decodeBit_to_leaf hc⟩
      | single x => simp [CodeTree.isInner] at hi
      | node a b => simp [CodeTree.isInner] at hi
    | true =>
      right
      refine ⟨rfl, ?_⟩
      rw [decodeBit_to_inner hi hc]
      simp [State.consume]
  cases u with
  | leaf x => simp [CodeTree.isInner] at hu
  | single x =>
    obtain ⟨_, _, h3, _, h5⟩ := hpos
    cases bit with
    | true => exact .inl ⟨rfl, h3⟩
    | false => exact .inr ⟨[x], r, s.root, rfl, id, decodeBit_to_leaf h5, hroot⟩
  | node a b =>
    obtain ⟨_, _, _, h4, h5⟩ := hpos
    have hc : Spells s (Node.child (s.node s.decPos) bit) (if bit then b else a) := by
      cases bit
      · exact h4
      · exact h5
    right
    rcases go _ hc with ⟨x, hx, e⟩ | ⟨hi, e⟩
    · exact ⟨[x], r, s.root, by simp [CodeTree.step, hx], id, e, hroot⟩
    · refine ⟨[], if bit then b else a, _, ?_, fun _ => hi, e, hc⟩
      simp only [CodeTree.step]
      generalize (if bit then b else a) = c at *
      cases c with
      | leaf x => simp [CodeTree.isInner] at hi
      | single x => rfl
      | node a b => rfl

/-- What decode steps on `bits` leave in `s` when decoding them on the tree gives `d`, the walk stands
at node `i` and the error registers hold the given values. -/
def State.decodedTo (s : State) (d : Decoded) (i : NodeIdx) (e : ErrCode) (cmd i0 i1 : Word) :
    State :=
  { s with
    decRemain := s.decRemain - BitVec.ofNat 64 d.used, decPos := i,
    decOut := s.decOut ++ d.out, decSyms := s.decSyms + BitVec.ofNat 64 d.out.length,
    errCode := e, errCmd := cmd, errInfo0 := i0, errInfo1 := i1 }

/-- Decode steps do what decoding on the tree does. -/
theorem decodeBits_spec {s : State} {r u : CodeTree} (hr : r.isInner = true)
    (hroot : Spells s s.root r) (hu : u.isInner = true) (hpos : Spells s s.decPos u)
    (bits : List Bool) :
    ∃ i, Spells s i (r.decode u bits).pos ∧ (r.decode u bits).used ≤ bits.length ∧
      ((r.decode u bits).missing = false ∧ (r.decode u bits).used = bits.length ∧
        s.decodeBits bits = .ok
          (s.decodedTo (r.decode u bits) i s.errCode s.errCmd s.errInfo0 s.errInfo1) ∨
      (r.decode u bits).missing = true ∧
        s.decodeBits bits = .error
          (s.decodedTo (r.decode u bits) i .corruptStream s.pendCmd 1 (i.setWidth 32))) := by
  induction bits generalizing s u with
  | nil =>
    refine ⟨s.decPos, hpos, le_rfl, .inl ⟨rfl, rfl, ?_⟩⟩
    simp [CodeTree.decode, State.decodedTo]
  | cons bit bits ih =>
    rcases decodeBit_spec hroot hu hpos bit with ⟨hn, hch⟩ | ⟨out, u', i, hs, hu', he, hi⟩
    · have he : s.decodeBit bit =
          .error (s.consume.raise .corruptStream 1 (s.decPos.setWidth 32)) := by
        rcases s.decodeBit_cases bit with ⟨_, e⟩ | ⟨h, _⟩ | ⟨h, _⟩
        · exact e
        · exact absurd hch h
        · exact absurd hch h
      rw [State.decodeBits_cons_error he]
      simp only [CodeTree.decode, hn]
      refine ⟨s.decPos, hpos, by simp, .inr ⟨trivial, ?_⟩⟩
      simp [State.raise, State.consume, State.decodedTo]
    · rw [State.decodeBits_cons_ok he]
      obtain ⟨j, h1, h2, h3⟩ := @ih
        { s with decRemain := s.decRemain - 1, decPos := i, decOut := s.decOut ++ out,
                 decSyms := s.decSyms + BitVec.ofNat 64 out.length } u'
        (spells_congr (s := s) (by rfl) (by rfl) (by rfl) hroot) (hu' hr)
        (spells_congr (s := s) (by rfl) (by rfl) (by rfl) hi)
      have n1 : s.decRemain - 1 - BitVec.ofNat 64 (r.decode u' bits).used =
          s.decRemain - BitVec.ofNat 64 ((r.decode u' bits).used + 1) := by
        rw [BitVec.ofNat_add]
        simp only [BitVec.sub_eq_add_neg, BitVec.neg_add]
        rw [BitVec.add_assoc, BitVec.add_comm (-1)]
        rfl
      have n2 : s.decSyms + BitVec.ofNat 64 out.length +
          BitVec.ofNat 64 (r.decode u' bits).out.length =
          s.decSyms + BitVec.ofNat 64 (out ++ (r.decode u' bits).out).length := by
        rw [List.length_append, BitVec.ofNat_add, BitVec.add_assoc]
      have n3 : ∀ e c i0 i1, ({ s with
            decRemain := s.decRemain - 1, decPos := i, decOut := s.decOut ++ out,
            decSyms := s.decSyms + BitVec.ofNat 64 out.length } : State).decodedTo
              (r.decode u' bits) j e c i0 i1 =
          s.decodedTo (r.decode u (bit :: bits)) j e c i0 i1 := by
        intro e c i0 i1
        simp only [State.decodedTo, CodeTree.decode, hs, n1, n2, List.append_assoc]
      rw [n3, n3] at h3
      refine ⟨j, ?_, ?_, ?_⟩
      · simp only [CodeTree.decode, hs]
        exact spells_congr (by rfl) (by rfl) (by rfl) h1
      · simp only [CodeTree.decode, hs, List.length_cons]
        omega
      · have hm : (r.decode u (bit :: bits)).missing = (r.decode u' bits).missing := by
          simp only [CodeTree.decode, hs]
        have hused : (r.decode u (bit :: bits)).used = (r.decode u' bits).used + 1 := by
          simp only [CodeTree.decode, hs]
        rw [hm, hused, List.length_cons]
        rcases h3 with ⟨a, b, c⟩ | ⟨a, b⟩
        · exact .inl ⟨a, by omega, c⟩
        · exact .inr ⟨a, b⟩

end Sys2Proof.Machine
end

