-- ==== Sys2Proof/Laws/BitWriter.lean ====
section
/-! SUPPORT. What writing bits does: the bits join the stream in order, the count goes up, the
accumulator stays in range, and nothing else changes (R190, R194, R195). -/

namespace Sys2Proof.Machine

/-! ### The accumulator -/

/-- ACC after a bit has been shifted in (R190). -/
def shiftIn (acc : Byte) (b : Bool) : Byte :=
  (acc.extractLsb' 0 7 ++ BitVec.ofBool b : BitVec (7 + 1))

theorem shiftIn_getLsbD (acc : Byte) (b : Bool) (i : Nat) (h : i < 8) :
    (shiftIn acc b).getLsbD i = if i = 0 then b else acc.getLsbD (i - 1) := by
  unfold shiftIn
  rw [BitVec.getLsbD_append]
  rcases i with _ | i
  · simp
  · simp [show i < 7 by omega]

theorem shiftIn_bits (acc : Byte) (b : Bool) (n : Nat) (h : n ≤ 7) :
    ((List.range (n + 1)).map fun i => (shiftIn acc b).getLsbD (n - i)) =
      ((List.range n).map fun i => acc.getLsbD (n - 1 - i)) ++ [b] := by
  rw [List.range_succ, List.map_append]
  congr 1
  · apply List.map_congr_left
    intro i hi
    rw [List.mem_range] at hi
    rw [shiftIn_getLsbD _ _ _ (by omega), if_neg (by omega)]
    congr 1
    omega
  · have := shiftIn_getLsbD acc b 0 (by omega)
    simpa using this

theorem shiftIn_toNat (acc : Byte) (b : Bool) :
    (shiftIn acc b).toNat = 2 * (acc.toNat % 128) + b.toNat := by
  unfold shiftIn
  rw [BitVec.toNat_append, ← Nat.shiftLeft_add_eq_or_of_lt (BitVec.ofBool b).isLt]
  simp [Nat.shiftLeft_eq]
  omega

theorem byteBits_shiftIn (acc : Byte) (b : Bool) :
    byteBits (shiftIn acc b) = ((List.range 7).map fun i => acc.getLsbD (6 - i)) ++ [b] :=
  shiftIn_bits acc b 7 (by omega)

/-! ### One bit -/

namespace State

variable (s : State) (b : Bool) (bits : List Bool)

@[simp] theorem writeBit_irqEn : (s.writeBit b).irqEn = s.irqEn := by
  unfold writeBit; dsimp only; split <;> rfl

@[simp] theorem writeBit_busy : (s.writeBit b).busy = s.busy := by
  unfold writeBit; dsimp only; split <;> rfl

@[simp] theorem writeBit_cmd : (s.writeBit b).cmd = s.cmd := by
  unfold writeBit; dsimp only; split <;> rfl

@[simp] theorem writeBit_cmdArg : (s.writeBit b).cmdArg = s.cmdArg := by
  unfold writeBit; dsimp only; split <;> rfl

@[simp] theorem writeBit_pendCmd : (s.writeBit b).pendCmd = s.pendCmd := by
  unfold writeBit; dsimp only; split <;> rfl

@[simp] theorem writeBit_errCode : (s.writeBit b).errCode = s.errCode := by
  unfold writeBit; dsimp only; split <;> rfl

@[simp] theorem writeBit_errCmd : (s.writeBit b).errCmd = s.errCmd := by
  unfold writeBit; dsimp only; split <;> rfl

@[simp] theorem writeBit_errInfo0 : (s.writeBit b).errInfo0 = s.errInfo0 := by
  unfold writeBit; dsimp only; split <;> rfl

@[simp] theorem writeBit_errInfo1 : (s.writeBit b).errInfo1 = s.errInfo1 := by
  unfold writeBit; dsimp only; split <;> rfl

@[simp] theorem writeBit_poisoned : (s.writeBit b).poisoned = s.poisoned := by
  unfold writeBit; dsimp only; split <;> rfl

@[simp] theorem writeBit_treeValid : (s.writeBit b).treeValid = s.treeValid := by
  unfold writeBit; dsimp only; split <;> rfl

@[simp] theorem writeBit_root : (s.writeBit b).root = s.root := by
  unfold writeBit; dsimp only; split <;> rfl

@[simp] theorem writeBit_nodeCount : (s.writeBit b).nodeCount = s.nodeCount := by
  unfold writeBit; dsimp only; split <;> rfl

@[simp] theorem writeBit_leafCount : (s.writeBit b).leafCount = s.leafCount := by
  unfold writeBit; dsimp only; split <;> rfl

@[simp] theorem writeBit_nodes : (s.writeBit b).nodes = s.nodes := by
  unfold writeBit; dsimp only; split <;> rfl

@[simp] theorem writeBit_codesValid : (s.writeBit b).codesValid = s.codesValid := by
  unfold writeBit; dsimp only; split <;> rfl

@[simp] theorem writeBit_totalBits : (s.writeBit b).totalBits = s.totalBits := by
  unfold writeBit; dsimp only; split <;> rfl

@[simp] theorem writeBit_code : (s.writeBit b).code = s.code := by
  unfold writeBit; dsimp only; split <;> rfl

@[simp] theorem writeBit_len : (s.writeBit b).len = s.len := by
  unfold writeBit; dsimp only; split <;> rfl

@[simp] theorem writeBit_freq : (s.writeBit b).freq = s.freq := by
  unfold writeBit; dsimp only; split <;> rfl

@[simp] theorem writeBit_encFlushed : (s.writeBit b).encFlushed = s.encFlushed := by
  unfold writeBit; dsimp only; split <;> rfl

@[simp] theorem writeBit_decState : (s.writeBit b).decState = s.decState := by
  unfold writeBit; dsimp only; split <;> rfl

@[simp] theorem writeBit_decRemain : (s.writeBit b).decRemain = s.decRemain := by
  unfold writeBit; dsimp only; split <;> rfl

@[simp] theorem writeBit_decPos : (s.writeBit b).decPos = s.decPos := by
  unfold writeBit; dsimp only; split <;> rfl

@[simp] theorem writeBit_decBytes : (s.writeBit b).decBytes = s.decBytes := by
  unfold writeBit; dsimp only; split <;> rfl

@[simp] theorem writeBit_decExtra : (s.writeBit b).decExtra = s.decExtra := by
  unfold writeBit; dsimp only; split <;> rfl

@[simp] theorem writeBit_decSyms : (s.writeBit b).decSyms = s.decSyms := by
  unfold writeBit; dsimp only; split <;> rfl

@[simp] theorem writeBit_decOut : (s.writeBit b).decOut = s.decOut := by
  unfold writeBit; dsimp only; split <;> rfl

@[simp] theorem writeBit_agenda : (s.writeBit b).agenda = s.agenda := by
  unfold writeBit; dsimp only; split <;> rfl

@[simp] theorem writeBit_rdata : (s.writeBit b).rdata = s.rdata := by
  unfold writeBit; dsimp only; split <;> rfl

@[simp] theorem writeBit_draws : (s.writeBit b).draws = s.draws := by
  unfold writeBit; dsimp only; split <;> rfl

@[simp] theorem writeBit_encBits : (s.writeBit b).encBits = s.encBits + 1 := by
  unfold writeBit; dsimp only; split <;> rfl

/-- A bit that does not fill the byte stays in the accumulator (R190). -/
theorem writeBit_of_lt (h : s.accN.toNat < 7) :
    (s.writeBit b).acc = shiftIn s.acc b ∧ (s.writeBit b).accN = s.accN + 1 ∧
      (s.writeBit b).encOut = s.encOut := by
  have h8 : s.accN + 1 ≠ 8 := by
    intro e
    have := congrArg BitVec.toNat e
    simp [BitVec.toNat_add] at this
    omega
  unfold writeBit
  dsimp only
  rw [if_neg h8]
  exact ⟨rfl, rfl, rfl⟩

/-- The eighth bit emits the byte and empties the accumulator (R190). -/
theorem writeBit_of_eq (h : s.accN.toNat = 7) :
    (s.writeBit b).acc = 0 ∧ (s.writeBit b).accN = 0 ∧
      (s.writeBit b).encOut = s.encOut ++ [shiftIn s.acc b] := by
  have h8 : s.accN + 1 = 8 := by
    apply BitVec.eq_of_toNat_eq
    simp [BitVec.toNat_add, h]
  unfold writeBit
  dsimp only
  rw [if_pos h8]
  exact ⟨rfl, rfl, rfl⟩

/-- A bit written joins the stream at its end and keeps the accumulator in range (R190, R194). -/
theorem writeBit_stream (h : WriterOk s) :
    WriterOk (s.writeBit b) ∧ (s.writeBit b).encStream = s.encStream ++ [b] := by
  obtain ⟨hn, ha⟩ := h
  rcases Nat.lt_or_eq_of_le hn with hlt | heq
  · obtain ⟨h1, h2, h3⟩ := s.writeBit_of_lt b hlt
    have hN : (s.accN + 1).toNat = s.accN.toNat + 1 := by
      simp [BitVec.toNat_add]; omega
    refine ⟨⟨?_, ?_⟩, ?_⟩
    · rw [h2, hN]; omega
    · rw [h1, h2, hN, shiftIn_toNat, Nat.pow_succ]
      have := Nat.mod_le s.acc.toNat 128
      have := b.toNat_le
      omega
    · have := shiftIn_bits s.acc b s.accN.toNat hn
      simp only [encStream, accBits, h1, h2, h3, hN, Nat.add_sub_cancel, this, List.append_assoc]
  · obtain ⟨h1, h2, h3⟩ := s.writeBit_of_eq b heq
    refine ⟨⟨by simp [h2], by simp [h1]⟩, ?_⟩
    simp [encStream, accBits, h1, h2, h3, heq, byteBits_shiftIn]

/-! ### Several bits -/

@[simp] theorem writeBits_nil : s.writeBits [] = s := rfl

@[simp] theorem writeBits_cons : s.writeBits (b :: bits) = (s.writeBit b).writeBits bits := rfl

@[simp] theorem writeBits_irqEn : (s.writeBits bits).irqEn = s.irqEn := by
  induction bits generalizing s with
  | nil => rfl
  | cons b bits ih => simp [ih]

@[simp] theorem writeBits_busy : (s.writeBits bits).busy = s.busy := by
  induction bits generalizing s with
  | nil => rfl
  | cons b bits ih => simp [ih]

@[simp] theorem writeBits_cmd : (s.writeBits bits).cmd = s.cmd := by
  induction bits generalizing s with
  | nil => rfl
  | cons b bits ih => simp [ih]

@[simp] theorem writeBits_cmdArg : (s.writeBits bits).cmdArg = s.cmdArg := by
  induction bits generalizing s with
  | nil => rfl
  | cons b bits ih => simp [ih]

@[simp] theorem writeBits_pendCmd : (s.writeBits bits).pendCmd = s.pendCmd := by
  induction bits generalizing s with
  | nil => rfl
  | cons b bits ih => simp [ih]

@[simp] theorem writeBits_errCode : (s.writeBits bits).errCode = s.errCode := by
  induction bits generalizing s with
  | nil => rfl
  | cons b bits ih => simp [ih]

@[simp] theorem writeBits_errCmd : (s.writeBits bits).errCmd = s.errCmd := by
  induction bits generalizing s with
  | nil => rfl
  | cons b bits ih => simp [ih]

@[simp] theorem writeBits_errInfo0 : (s.writeBits bits).errInfo0 = s.errInfo0 := by
  induction bits generalizing s with
  | nil => rfl
  | cons b bits ih => simp [ih]

@[simp] theorem writeBits_errInfo1 : (s.writeBits bits).errInfo1 = s.errInfo1 := by
  induction bits generalizing s with
  | nil => rfl
  | cons b bits ih => simp [ih]

@[simp] theorem writeBits_poisoned : (s.writeBits bits).poisoned = s.poisoned := by
  induction bits generalizing s with
  | nil => rfl
  | cons b bits ih => simp [ih]

@[simp] theorem writeBits_treeValid : (s.writeBits bits).treeValid = s.treeValid := by
  induction bits generalizing s with
  | nil => rfl
  | cons b bits ih => simp [ih]

@[simp] theorem writeBits_root : (s.writeBits bits).root = s.root := by
  induction bits generalizing s with
  | nil => rfl
  | cons b bits ih => simp [ih]

@[simp] theorem writeBits_nodeCount : (s.writeBits bits).nodeCount = s.nodeCount := by
  induction bits generalizing s with
  | nil => rfl
  | cons b bits ih => simp [ih]

@[simp] theorem writeBits_leafCount : (s.writeBits bits).leafCount = s.leafCount := by
  induction bits generalizing s with
  | nil => rfl
  | cons b bits ih => simp [ih]

@[simp] theorem writeBits_nodes : (s.writeBits bits).nodes = s.nodes := by
  induction bits generalizing s with
  | nil => rfl
  | cons b bits ih => simp [ih]

@[simp] theorem writeBits_codesValid : (s.writeBits bits).codesValid = s.codesValid := by
  induction bits generalizing s with
  | nil => rfl
  | cons b bits ih => simp [ih]

@[simp] theorem writeBits_totalBits : (s.writeBits bits).totalBits = s.totalBits := by
  induction bits generalizing s with
  | nil => rfl
  | cons b bits ih => simp [ih]

@[simp] theorem writeBits_code : (s.writeBits bits).code = s.code := by
  induction bits generalizing s with
  | nil => rfl
  | cons b bits ih => simp [ih]

@[simp] theorem writeBits_len : (s.writeBits bits).len = s.len := by
  induction bits generalizing s with
  | nil => rfl
  | cons b bits ih => simp [ih]

@[simp] theorem writeBits_freq : (s.writeBits bits).freq = s.freq := by
  induction bits generalizing s with
  | nil => rfl
  | cons b bits ih => simp [ih]

@[simp] theorem writeBits_encFlushed : (s.writeBits bits).encFlushed = s.encFlushed := by
  induction bits generalizing s with
  | nil => rfl
  | cons b bits ih => simp [ih]

@[simp] theorem writeBits_decState : (s.writeBits bits).decState = s.decState := by
  induction bits generalizing s with
  | nil => rfl
  | cons b bits ih => simp [ih]

@[simp] theorem writeBits_decRemain : (s.writeBits bits).decRemain = s.decRemain := by
  induction bits generalizing s with
  | nil => rfl
  | cons b bits ih => simp [ih]

@[simp] theorem writeBits_decPos : (s.writeBits bits).decPos = s.decPos := by
  induction bits generalizing s with
  | nil => rfl
  | cons b bits ih => simp [ih]

@[simp] theorem writeBits_decBytes : (s.writeBits bits).decBytes = s.decBytes := by
  induction bits generalizing s with
  | nil => rfl
  | cons b bits ih => simp [ih]

@[simp] theorem writeBits_decExtra : (s.writeBits bits).decExtra = s.decExtra := by
  induction bits generalizing s with
  | nil => rfl
  | cons b bits ih => simp [ih]

@[simp] theorem writeBits_decSyms : (s.writeBits bits).decSyms = s.decSyms := by
  induction bits generalizing s with
  | nil => rfl
  | cons b bits ih => simp [ih]

@[simp] theorem writeBits_decOut : (s.writeBits bits).decOut = s.decOut := by
  induction bits generalizing s with
  | nil => rfl
  | cons b bits ih => simp [ih]

@[simp] theorem writeBits_agenda : (s.writeBits bits).agenda = s.agenda := by
  induction bits generalizing s with
  | nil => rfl
  | cons b bits ih => simp [ih]

@[simp] theorem writeBits_rdata : (s.writeBits bits).rdata = s.rdata := by
  induction bits generalizing s with
  | nil => rfl
  | cons b bits ih => simp [ih]

@[simp] theorem writeBits_draws : (s.writeBits bits).draws = s.draws := by
  induction bits generalizing s with
  | nil => rfl
  | cons b bits ih => simp [ih]

/-- Writing counts the bits (R190, R36). -/
theorem writeBits_encBits :
    (s.writeBits bits).encBits = s.encBits + BitVec.ofNat 64 bits.length := by
  induction bits generalizing s with
  | nil => simp
  | cons b bits ih =>
    rw [writeBits_cons, ih, writeBit_encBits, List.length_cons, BitVec.ofNat_add,
      BitVec.add_assoc, BitVec.add_comm 1]
    rfl

/-- Bits written join the stream in order (R194, R195). -/
theorem writeBits_stream (h : WriterOk s) :
    WriterOk (s.writeBits bits) ∧ (s.writeBits bits).encStream = s.encStream ++ bits := by
  induction bits generalizing s with
  | nil => simpa using h
  | cons b bits ih =>
    obtain ⟨h1, h2⟩ := s.writeBit_stream b h
    obtain ⟨h3, h4⟩ := ih (s.writeBit b) h1
    exact ⟨h3, by simp [h4, h2]⟩

/-- Writing only appends to ENC_OUT (R52). -/
theorem writeBits_encOut_append : ∃ new, (s.writeBits bits).encOut = s.encOut ++ new := by
  induction bits generalizing s with
  | nil => exact ⟨[], by simp⟩
  | cons b bits ih =>
    obtain ⟨new, hnew⟩ := ih (s.writeBit b)
    have : ∃ one, (s.writeBit b).encOut = s.encOut ++ one := by
      unfold writeBit
      dsimp only
      split
      · exact ⟨_, rfl⟩
      · exact ⟨[], by simp⟩
    obtain ⟨one, hone⟩ := this
    exact ⟨one ++ new, by simp [hnew, hone]⟩

/-- Writing changes ACC, ACC_N, ENC_OUT and ENC_BITS, and nothing else. -/
theorem writeBits_frame : ∃ acc accN encOut, s.writeBits bits =
    { s with acc := acc, accN := accN, encOut := encOut,
             encBits := s.encBits + BitVec.ofNat 64 bits.length } := by
  have one : ∀ (s : State) (b : Bool), ∃ acc accN encOut, s.writeBit b =
      { s with acc := acc, accN := accN, encOut := encOut, encBits := s.encBits + 1 } := by
    intro s b
    unfold writeBit
    dsimp only
    split
    · exact ⟨_, _, _, rfl⟩
    · exact ⟨_, _, _, rfl⟩
  induction bits generalizing s with
  | nil => exact ⟨s.acc, s.accN, s.encOut, by simp⟩
  | cons b bits ih =>
    obtain ⟨a1, n1, o1, h1⟩ := one s b
    obtain ⟨a2, n2, o2, h2⟩ := ih (s.writeBit b)
    refine ⟨a2, n2, o2, ?_⟩
    have hn : s.encBits + 1 + BitVec.ofNat 64 bits.length =
        s.encBits + BitVec.ofNat 64 (bits.length + 1) := by
      rw [BitVec.ofNat_add, BitVec.add_assoc, BitVec.add_comm 1]
      rfl
    rw [writeBits_cons, h2, h1, List.length_cons]
    simp only [hn]

end State

end Sys2Proof.Machine
end

