-- ==== Sys2Proof/Laws/Codes.lean ====
section
/-! SUPPORT. The codes of a tree as numbers and as bits: CODE and LEN determine the path and the
path determines them (R170, R174, R195), and the bit budget is exact and not 0 (R175, R176). -/

namespace Sys2Proof.Machine

/-! ### A path as a number (R9, R170) -/

theorem bitsValue_append (p : List Bool) (b : Bool) :
    bitsValue (p ++ [b]) = 2 * bitsValue p + b.toNat := by
  simp [bitsValue]

theorem bitsValue_lt (p : List Bool) : bitsValue p < 2 ^ p.length := by
  induction p using List.reverseRecOn with
  | nil => simp [bitsValue]
  | append_singleton p b ih =>
    rw [bitsValue_append, List.length_append, List.length_singleton, Nat.pow_succ]
    have := Bool.toNat_lt b
    omega

/-- The bits of a path's number, the most significant first, are the path (R195). -/
theorem codeBits_bitsValue {p : List Bool} (h : p.length ≤ 32) :
    codeBits (BitVec.ofNat 32 (bitsValue p)) p.length = p := by
  induction p using List.reverseRecOn with
  | nil => rfl
  | append_singleton p b ih =>
    rw [List.length_append, List.length_singleton] at h
    have ih := ih (by omega)
    rw [List.length_append, List.length_singleton, codeBits, List.range_succ, List.map_append]
    congr 1
    · refine Eq.trans ?_ ih
      rw [codeBits]
      apply List.map_congr_left
      intro i hi
      rw [List.mem_range] at hi
      rw [BitVec.getLsbD_ofNat, BitVec.getLsbD_ofNat, bitsValue_append,
        show p.length + 1 - 1 - i = (p.length - 1 - i) + 1 by omega, Nat.testBit_succ,
        show (2 * bitsValue p + b.toNat) / 2 = bitsValue p by
          have := Bool.toNat_lt b
          omega]
      simp [show p.length - 1 - i + 1 < 32 by omega, show p.length - 1 - i < 32 by omega]
    · simp only [List.map_cons, List.map_nil]
      rw [BitVec.getLsbD_ofNat, bitsValue_append]
      cases b <;> simp

/-! ### The codes of a tree -/

theorem CodesAre.len_toNat {s : State} {t : CodeTree} (h : CodesAre s t) (x : Byte) :
    (entry s.len x).toNat = (t.path x).length := by
  rw [h.len x]
  have := h.depth x
  simp [Config.maxCodeLen] at this ⊢
  omega

theorem CodesAre.code_toNat {s : State} {t : CodeTree} (h : CodesAre s t) (x : Byte) :
    (entry s.code x).toNat = bitsValue (t.path x) := by
  rw [h.code x]
  have hd := h.depth x
  have hlt := bitsValue_lt (t.path x)
  have : 2 ^ (t.path x).length ≤ 2 ^ 32 := Nat.pow_le_pow_right (by omega) hd
  simp
  omega

/-- The bits ENC_SYM writes for a symbol are its path (R197, R174). -/
theorem CodesAre.symbolBits {s : State} {t : CodeTree} (h : CodesAre s t) (x : Byte) :
    s.symbolBits x = t.path x := by
  rw [State.symbolBits, h.len_toNat, h.code x]
  exact codeBits_bitsValue (h.depth x)

/-! ### The bit budget (R175, R176) -/

theorem bitBudget_lt (f : Table Word) (len : Table (BitVec 6)) : bitBudget f len < 2 ^ 64 := by
  rw [bitBudget_eq_sum]
  have h : (symbols.map fun x => (entry f x).toNat * (entry len x).toNat).sum ≤
      (symbols.map fun x => (entry f x).toNat * (entry len x).toNat).length • (2 ^ 32 * 64) := by
    apply List.sum_le_card_nsmul
    intro y hy
    obtain ⟨x, _, rfl⟩ := List.mem_map.mp hy
    have h1 := (entry f x).isLt
    have h2 := (entry len x).isLt
    exact Nat.mul_le_mul (by omega) (by omega)
  simp at h
  omega

/-- TOTAL_BITS is the exact sum. -/
theorem CodesAre.totalBits_toNat {s : State} {t : CodeTree} (h : CodesAre s t) :
    s.totalBits.toNat =
      (symbols.map fun x => (entry s.freq x).toNat * (t.path x).length).sum := by
  rw [h.budget, BitVec.toNat_ofNat, Nat.mod_eq_of_lt (bitBudget_lt _ _), bitBudget_eq_sum]
  congr 1
  apply List.map_congr_left
  intro x _
  rw [h.len_toNat]

/-- The budget of a tree's codes is at least 1. -/
theorem CodesAre.totalBits_pos {s : State} {t : CodeTree} (ht : TreeIs s t) (h : CodesAre s t) :
    1 ≤ s.totalBits.toNat := by
  obtain ⟨e, he⟩ := List.exists_mem_of_ne_nil _ t.paths_ne_nil
  have hx : entry s.freq e.1 ≠ 0 := (ht.mem_symbols e.1).mp (List.mem_map.mpr ⟨e, he, rfl⟩)
  have h1 : (entry s.freq e.1).toNat ≠ 0 := fun h0 => hx (BitVec.eq_of_toNat_eq (by simpa using h0))
  have h2 := List.length_pos_iff.mpr (ht.path_ne_nil hx)
  have h3 : (entry s.freq e.1).toNat * (t.path e.1).length ≤ s.totalBits.toNat := by
    rw [h.totalBits_toNat]
    exact List.single_le_sum (by simp) _ (List.mem_map.mpr ⟨e.1, mem_symbols e.1, rfl⟩)
  have := Nat.mul_le_mul (Nat.one_le_iff_ne_zero.mpr h1) h2
  omega

end Sys2Proof.Machine
end

