-- ==== Sys2Proof/Laws/TreeBuilder.lean ====
section
/-! SUPPORT. What the merge does: the candidate list always names a forest that takes up the whole
arena and has every symbol of the table as a leaf once (R144, R145, R150, R152). -/

namespace Sys2Proof.Machine

/-! ### The candidate order (R144) -/

/-- The order of the candidates is the lexicographic order of (WEIGHT, index). -/
theorem comesBefore_iff (arena : List Node) (x y : Nat) :
    comesBefore arena x y = true ↔
      (weightOf arena x).toNat < (weightOf arena y).toNat ∨
        ((weightOf arena x).toNat = (weightOf arena y).toNat ∧ x < y) := by
  simp [comesBefore, BitVec.lt_def, BitVec.toNat_inj]

theorem comesBefore_trans {arena : List Node} {x y z : Nat}
    (h1 : comesBefore arena x y = true) (h2 : comesBefore arena y z = true) :
    comesBefore arena x z = true := by
  rw [comesBefore_iff] at *
  omega

theorem comesBefore_total (arena : List Node) (x y : Nat) :
    x = y ∨ comesBefore arena x y = true ∨ comesBefore arena y x = true := by
  simp only [comesBefore_iff]
  omega

theorem leastOf_cons (arena : List Node) (x y : Nat) (ys : List Nat) :
    leastOf arena x (y :: ys) = leastOf arena (if comesBefore arena y x then y else x) ys := rfl

theorem leastOf_mem (arena : List Node) (x : Nat) (xs : List Nat) :
    leastOf arena x xs ∈ x :: xs := by
  induction xs generalizing x with
  | nil => simp [leastOf]
  | cons y ys ih =>
    rw [leastOf_cons]
    by_cases hyx : comesBefore arena y x = true
    · rw [if_pos hyx]
      exact List.mem_cons_of_mem _ (ih y)
    · rw [if_neg hyx]
      rcases List.mem_cons.mp (ih x) with h | h
      · rw [h]; simp
      · simp [h]

theorem leastOf_least (arena : List Node) (x : Nat) (xs : List Nat) :
    ∀ y ∈ x :: xs, y = leastOf arena x xs ∨ comesBefore arena (leastOf arena x xs) y = true := by
  induction xs generalizing x with
  | nil => simp [leastOf]
  | cons z zs ih =>
    rw [leastOf_cons]
    by_cases hzx : comesBefore arena z x = true
    · rw [if_pos hzx]
      intro y hy
      rcases List.mem_cons.mp hy with rfl | hy
      · rcases ih z z (by simp) with h | h
        · rw [← h]; exact .inr hzx
        · exact .inr (comesBefore_trans h hzx)
      · exact ih z y hy
    · rw [if_neg hzx]
      intro y hy
      rcases List.mem_cons.mp hy with rfl | hy
      · exact ih y y (by simp)
      · rcases List.mem_cons.mp hy with rfl | hy
        · rcases comesBefore_total arena x y with rfl | h | h
          · exact ih x x (by simp)
          · rcases ih x x (by simp) with h' | h'
            · rw [← h']; exact .inr h
            · exact .inr (comesBefore_trans h' h)
          · exact absurd h hzx
        · exact ih x y (by simp [hy])

/-- `removeMin` takes off the candidate of the smallest key and leaves the others (R144). -/
theorem removeMin_spec {arena : List Node} {q q' : List Nat} {m : Nat}
    (h : removeMin arena q = some (m, q')) :
    m ∈ q ∧ q' = q.erase m ∧ ∀ y ∈ q, y = m ∨ comesBefore arena m y = true := by
  cases q with
  | nil => simp [removeMin] at h
  | cons x xs =>
    simp only [removeMin, Option.some.injEq, Prod.mk.injEq] at h
    obtain ⟨rfl, rfl⟩ := h
    exact ⟨leastOf_mem arena x xs, rfl, leastOf_least arena x xs⟩

theorem removeMin_eq_none (arena : List Node) (q : List Nat) :
    removeMin arena q = none ↔ q = [] := by
  cases q <;> simp [removeMin]

/-! ### What the arena spells during the construction -/

/-- The arena spells the tree from index `i` down, with children below their parents. -/
def Grown (f : Table Word) (arena : List Node) : Nat → CodeTree → Prop
  | i, .leaf x => arena[i]? = some (leafNode f x)
  | _, .single _ => False
  | i, .node l r => ∃ a b n, arena[i]? = some n ∧ n.kind = .internal ∧ n.sym = 0 ∧
      n.left = BitVec.ofNat 9 a ∧ n.right = BitVec.ofNat 9 b ∧
      n.weight.toNat = (CodeTree.node l r).weight f ∧
      Grown f arena a l ∧ Grown f arena b r

theorem Grown.lt_length {f : Table Word} {arena : List Node} {i : Nat} {t : CodeTree}
    (h : Grown f arena i t) : i < arena.length := by
  cases t with
  | leaf x => exact (List.getElem?_eq_some_iff.mp h).1
  | single x => exact absurd h id
  | node l r =>
    obtain ⟨_, _, _, h, _⟩ := h
    exact (List.getElem?_eq_some_iff.mp h).1

theorem Grown.full {f : Table Word} {arena : List Node} {i : Nat} {t : CodeTree}
    (h : Grown f arena i t) : t.full = true := by
  induction t generalizing i with
  | leaf x => rfl
  | single x => exact absurd h id
  | node l r ihl ihr =>
    obtain ⟨_, _, _, _, _, _, _, _, _, hl, hr⟩ := h
    simp [CodeTree.full, ihl hl, ihr hr]

theorem Grown.append {f : Table Word} {arena : List Node} {i : Nat} {t : CodeTree}
    (h : Grown f arena i t) (n : Node) : Grown f (arena ++ [n]) i t := by
  induction t generalizing i with
  | leaf x =>
    have hi := h.lt_length
    simp only [Grown] at *
    rw [List.getElem?_append_left hi, h]
  | single x => exact absurd h id
  | node l r ihl ihr =>
    have hi := h.lt_length
    obtain ⟨a, b, m, h1, h2, h3, h4, h5, h6, hl, hr⟩ := h
    exact ⟨a, b, m, by rw [List.getElem?_append_left hi, h1], h2, h3, h4, h5, h6, ihl hl, ihr hr⟩

theorem CodeTree.weight_leaf (f : Table Word) (x : Byte) :
    (CodeTree.leaf x).weight f = (entry f x).toNat := by
  simp [CodeTree.weight, CodeTree.symbols, CodeTree.paths]

theorem CodeTree.symbols_node (l r : CodeTree) :
    (CodeTree.node l r).symbols = l.symbols ++ r.symbols := by
  simp [CodeTree.symbols, CodeTree.paths, Function.comp_def]

theorem CodeTree.weight_node (f : Table Word) (l r : CodeTree) :
    (CodeTree.node l r).weight f = l.weight f + r.weight f := by
  simp [CodeTree.weight, CodeTree.symbols_node]

theorem Grown.weight {f : Table Word} {arena : List Node} {i : Nat} {t : CodeTree}
    (h : Grown f arena i t) : (weightOf arena i).toNat = t.weight f := by
  cases t with
  | leaf x =>
    have : arena[i]? = some (leafNode f x) := h
    rw [CodeTree.weight_leaf, weightOf, List.getD_eq_getElem?_getD, this]
    have := (entry f x).isLt
    simp [leafNode, BitVec.toNat_setWidth]
    omega
  | single x => exact absurd h id
  | node l r =>
    obtain ⟨_, _, n, h1, _, _, _, _, h6, _, _⟩ := h
    rw [weightOf, List.getD_eq_getElem?_getD, h1]
    simpa using h6

/-! ### The forest invariant of the merge -/

/-- The symbols of a forest. -/
def forestSymbols (forest : List (Nat × CodeTree)) : List Byte :=
  forest.flatMap fun e => e.2.symbols

/-- The number of arena entries of a forest. -/
def forestSize (forest : List (Nat × CodeTree)) : Nat := (forest.map fun e => e.2.size).sum

/-- The candidates `q` are the roots of a forest that takes up the arena and whose leaves are the
table's symbols. -/
structure Forest (f : Table Word) (arena : List Node) (q : List Nat)
    (forest : List (Nat × CodeTree)) : Prop where
  roots : q = forest.map Prod.fst
  grown : ∀ e ∈ forest, Grown f arena e.1 e.2
  size : forestSize forest = arena.length
  leaves : (forestSymbols forest).Perm (leafSymbols f)
  count : arena.length + q.length = 2 * (leafSymbols f).length
  last : q.getLast? = some (arena.length - 1)

theorem symbol_weight_le (f : Table Word) (hf : badSymbol f = none) (x : Byte) :
    (entry f x).toNat < 2 ^ 31 := by
  have h := (badSymbol_eq_none f).mp hf x
  by_contra hge
  have hlt := (entry f x).isLt
  have : (entry f x).getLsbD 31 = true := by
    rw [BitVec.getLsbD, Nat.testBit_eq_decide_div_mod_eq]
    exact decide_eq_true (by omega)
  rw [h] at this
  exact absurd this (by decide)

theorem symbols_weight_le (f : Table Word) (hf : badSymbol f = none) (l : List Byte) :
    (l.map fun x => (entry f x).toNat).sum ≤ l.length * 2 ^ 31 := by
  induction l with
  | nil => simp
  | cons x l ih =>
    have := symbol_weight_le f hf x
    simp only [List.map_cons, List.sum_cons, List.length_cons]
    omega

/-- No weight of a forest overflows 40 bits (R146). -/
theorem total_weight_lt (f : Table Word) (hf : badSymbol f = none) {l : List Byte}
    (hl : l.Perm (leafSymbols f)) : (l.map fun x => (entry f x).toNat).sum < 2 ^ 40 := by
  have h1 := symbols_weight_le f hf l
  have h2 : l.length ≤ 256 := hl.length_eq ▸ leafSymbols_length_le f
  have : l.length * 2 ^ 31 ≤ 256 * 2 ^ 31 := Nat.mul_le_mul_right _ h2
  omega

/-- Taking the root `m` off the candidates takes its tree out of the forest. -/
theorem forest_split {q : List Nat} {m : Nat} {forest : List (Nat × CodeTree)}
    (hq : q = forest.map Prod.fst) (hm : m ∈ q) :
    ∃ t rest, forest.Perm ((m, t) :: rest) ∧ q.erase m = rest.map Prod.fst := by
  obtain ⟨q1, q2, _, hq12, he⟩ := List.exists_erase_eq hm
  rw [hq] at hq12
  obtain ⟨f1, f2', hf, h1, h2⟩ := List.map_eq_append_iff.mp hq12
  obtain ⟨e, f2, hf2, h3, h4⟩ := List.map_eq_cons_iff.mp h2
  obtain ⟨e1, e2⟩ := e
  refine ⟨e2, f1 ++ f2, ?_, ?_⟩
  · have h3' : e1 = m := h3
    rw [hf, hf2, h3']
    exact List.perm_middle
  · rw [he, List.map_append, h1, h4]

theorem forestSize_perm {a b : List (Nat × CodeTree)} (h : a.Perm b) :
    forestSize a = forestSize b := (h.map _).sum_eq

theorem forestSymbols_perm {a b : List (Nat × CodeTree)} (h : a.Perm b) :
    (forestSymbols a).Perm (forestSymbols b) := h.flatMap_right _

/-- One merge step keeps the forest invariant: the two roots of the smallest keys become the left
and the right child of a new node (R145). -/
theorem Forest.merge {f : Table Word} {arena : List Node} {q q1 q2 : List Nat} {a b : Nat}
    {forest : List (Nat × CodeTree)} (hf : badSymbol f = none) (h : Forest f arena q forest)
    (ha : removeMin arena q = some (a, q1)) (hb : removeMin arena q1 = some (b, q2)) :
    ∃ forest', Forest f (arena ++ [mergeNode arena a b]) (q2 ++ [arena.length]) forest' := by
  obtain ⟨ham, ha', _⟩ := removeMin_spec ha
  obtain ⟨hbm, hb', _⟩ := removeMin_spec hb
  obtain ⟨ta, rest1, hp1, hr1⟩ := forest_split h.roots ham
  rw [← ha'] at hr1
  obtain ⟨tb, rest2, hp2, hr2⟩ := forest_split hr1 hbm
  rw [← hb'] at hr2
  have hp : forest.Perm ((a, ta) :: (b, tb) :: rest2) := hp1.trans (hp2.cons _)
  have hga : Grown f arena a ta := h.grown (a, ta) (hp.mem_iff.mpr (by simp))
  have hgb : Grown f arena b tb := h.grown (b, tb) (hp.mem_iff.mpr (by simp))
  have hsym : (ta.symbols ++ (tb.symbols ++ forestSymbols rest2)).Perm (leafSymbols f) := by
    have := (forestSymbols_perm hp).symm.trans h.leaves
    simpa [forestSymbols] using this
  have hw : ta.weight f + tb.weight f < 2 ^ 40 := by
    have := total_weight_lt f hf hsym
    simp only [List.map_append, List.sum_append] at this
    simp only [CodeTree.weight]
    omega
  refine ⟨rest2 ++ [(arena.length, .node ta tb)], ?_, ?_, ?_, ?_, ?_, ?_⟩
  · simp [hr2]
  · intro e he
    rcases List.mem_append.mp he with he | he
    · exact (h.grown e (hp.mem_iff.mpr (by simp [he]))).append _
    · obtain rfl := List.mem_singleton.mp he
      refine ⟨a, b, mergeNode arena a b, by simp, rfl, rfl, rfl, rfl, ?_, hga.append _, hgb.append _⟩
      rw [CodeTree.weight_node, mergeNode, BitVec.toNat_add, hga.weight, hgb.weight]
      exact Nat.mod_eq_of_lt hw
  · have := (forestSize_perm hp).symm.trans h.size
    simp only [forestSize, List.map_cons, List.sum_cons, List.map_append, List.sum_append,
      CodeTree.size, List.length_append, List.length_singleton, List.map_nil, List.sum_nil] at *
    omega
  · have hperm : (forestSymbols (rest2 ++ [(arena.length, CodeTree.node ta tb)])).Perm
        (ta.symbols ++ (tb.symbols ++ forestSymbols rest2)) := by
      simp only [forestSymbols, List.flatMap_append, List.flatMap_singleton, CodeTree.symbols_node]
      rw [← List.append_assoc ta.symbols]
      exact List.perm_append_comm
    exact hperm.trans hsym
  · have hc := h.count
    have hl := hp.length_eq
    have hq := congrArg List.length h.roots
    have hq2 := congrArg List.length hr2
    simp only [List.length_append, List.length_map, List.length_cons, List.length_nil] at *
    omega
  · simp

/-- One candidate is left as it is (R145). -/
theorem mergeLoop_singleton (fuel : Nat) (arena : List Node) (r : Nat) :
    mergeLoop fuel arena [r] = (arena, [r]) := by
  cases fuel with
  | zero => rfl
  | succ fuel => simp [mergeLoop, removeMin, leastOf]

/-- The merge only appends nodes (R145). -/
theorem mergeLoop_extends (fuel : Nat) (arena : List Node) (q : List Nat) :
    arena <+: (mergeLoop fuel arena q).1 := by
  induction fuel generalizing arena q with
  | zero => exact List.prefix_rfl
  | succ fuel ih =>
    unfold mergeLoop
    split
    · exact List.prefix_rfl
    · split
      · exact List.prefix_rfl
      · exact (List.prefix_append _ _).trans (ih _ _)

/-- With as much fuel as candidates, the merge ends in one tree (R145, R148). -/
theorem mergeLoop_spec (f : Table Word) (hf : badSymbol f = none) :
    ∀ (fuel : Nat) (arena : List Node) (q : List Nat) (forest : List (Nat × CodeTree)),
      Forest f arena q forest → 1 ≤ q.length → q.length ≤ fuel + 1 →
      ∃ arena' t, mergeLoop fuel arena q = (arena', [arena'.length - 1]) ∧
        Forest f arena' [arena'.length - 1] [(arena'.length - 1, t)] := by
  intro fuel
  induction fuel with
  | zero =>
    intro arena q forest h h1 h2
    obtain ⟨r, rfl⟩ := List.length_eq_one_iff.mp (by omega : q.length = 1)
    have hlast : r = arena.length - 1 := by simpa using h.last
    have hr := h.roots
    obtain ⟨e, he⟩ := List.length_eq_one_iff.mp (by simpa using (congrArg List.length hr).symm :
      forest.length = 1)
    subst he
    obtain ⟨e1, e2⟩ := e
    simp only [List.map_cons, List.map_nil, List.cons.injEq, and_true] at hr
    subst hr
    exact ⟨arena, e2, by simp [mergeLoop, ← hlast], by rw [← hlast]; exact h⟩
  | succ fuel ih =>
    intro arena q forest h h1 h2
    cases ha : removeMin arena q with
    | none => simp [(removeMin_eq_none _ _).mp ha] at h1
    | some p =>
      obtain ⟨a, q1⟩ := p
      obtain ⟨ham, ha', _⟩ := removeMin_spec ha
      have hl1 : q1.length = q.length - 1 := by rw [ha', List.length_erase_of_mem ham]
      cases hb : removeMin arena q1 with
      | none =>
        have : q1 = [] := (removeMin_eq_none _ _).mp hb
        have hq1 : q.length = 1 := by
          rw [this] at hl1
          simp at hl1
          omega
        have := ih arena q forest h h1 (by omega)
        obtain ⟨arena', t, hm, hF⟩ := this
        obtain ⟨r, rfl⟩ := List.length_eq_one_iff.mp hq1
        rw [mergeLoop_singleton] at hm ⊢
        exact ⟨arena', t, hm, hF⟩
      | some p2 =>
        obtain ⟨b, q2⟩ := p2
        obtain ⟨hbm, hb', _⟩ := removeMin_spec hb
        have hl2 : q2.length = q1.length - 1 := by rw [hb', List.length_erase_of_mem hbm]
        have hpos : 1 ≤ q1.length := by
          cases q1 with
          | nil => simp at hbm
          | cons _ _ => simp
        obtain ⟨forest', hF'⟩ := h.merge hf ha hb
        have := ih _ _ forest' hF' (by simp) (by simp; omega)
        simpa [mergeLoop, ha, hb] using this

end Sys2Proof.Machine
end

