-- ==== Sys2Proof/Laws/TreeBuilt.lean ====
section
/-! SUPPORT. What BUILD_TREE leaves: the arena spells one tree whose leaves are the symbols of
non-zero frequency (R140 to R150), and every outcome of the command in one lemma. -/

namespace Sys2Proof.Machine

theorem seedArena_length (f : Table Word) : (seedArena f).length = (leafSymbols f).length := by
  simp [seedArena]

/-- The forest of the seeded leaves (R141). -/
theorem seed_forest (f : Table Word) (h : leafSymbols f ≠ []) :
    Forest f (seedArena f) (List.range (seedArena f).length)
      ((leafSymbols f).zipIdx.map fun e => (e.2, CodeTree.leaf e.1)) := by
  have hpos : 0 < (leafSymbols f).length := List.length_pos_iff.mpr h
  refine ⟨?_, ?_, ?_, ?_, ?_, ?_⟩
  · rw [List.map_map, seedArena_length]
    apply List.ext_getElem <;> simp
  · intro e he
    obtain ⟨⟨x, i⟩, hxi, rfl⟩ := List.mem_map.mp he
    have := List.mem_zipIdx' hxi
    simp only [Grown, seedArena, List.getElem?_map]
    rw [List.getElem?_eq_getElem this.1, ← this.2]
    rfl
  · have : ∀ l : List (Byte × Nat),
        forestSize (l.map fun e => (e.2, CodeTree.leaf e.1)) = l.length := by
      intro l
      induction l with
      | nil => rfl
      | cons e l ih =>
        simp only [forestSize, List.map_cons, List.sum_cons, CodeTree.size, List.length_cons] at *
        omega
    rw [this, seedArena_length, List.length_zipIdx]
  · have : ∀ (l : List Byte) (k : Nat),
        forestSymbols ((l.zipIdx k).map fun e => (e.2, CodeTree.leaf e.1)) = l := by
      intro l
      induction l with
      | nil => intro k; rfl
      | cons x l ih =>
        intro k
        have := ih (k + 1)
        simp only [forestSymbols, List.zipIdx_cons, List.map_cons, List.flatMap_cons] at *
        rw [this]
        rfl
    rw [this]
  · simp [seedArena_length]; omega
  · rw [seedArena_length, List.getLast?_range, if_neg (by omega)]

/-- With two symbols or more the merge ends in one tree whose root is the last node made (R145,
R148). -/
theorem buildArena_many {f : Table Word} (hf : badSymbol f = none)
    (h : 2 ≤ (leafSymbols f).length) :
    ∃ arena t, buildArena f = (arena, arena.length - 1) ∧
      Grown f arena (arena.length - 1) t ∧ t.isWhole = true ∧ t.size = arena.length ∧
      t.symbols.Perm (leafSymbols f) ∧ arena.length = 2 * (leafSymbols f).length - 1 := by
  have hne : leafSymbols f ≠ [] := by intro e; simp [e] at h
  have hlen := seedArena_length f
  obtain ⟨arena, t, hm, hF⟩ := mergeLoop_spec f hf (seedArena f).length _ _ _ (seed_forest f hne)
    (by simp; omega) (by simp)
  have hg : Grown f arena (arena.length - 1) t := hF.grown (_, t) (by simp)
  have hsize : t.size = arena.length := by simpa [forestSize] using hF.size
  have hcount : arena.length = 2 * (leafSymbols f).length - 1 := by
    have := hF.count
    simp only [List.length_cons, List.length_nil] at this
    omega
  refine ⟨arena, t, ?_, hg, ?_, hsize, by simpa [forestSymbols] using hF.leaves, hcount⟩
  · unfold buildArena
    split
    · rename_i leaf he
      rw [he] at hlen
      simp at hlen
      omega
    · rw [hm]
      rfl
  · have := hg.full
    cases t with
    | leaf x =>
      simp only [CodeTree.size] at hsize
      omega
    | single x => exact absurd hg id
    | node l r => simpa [CodeTree.full, CodeTree.isWhole] using this

/-- With one symbol the arena is the leaf and a root above it (R147). -/
theorem buildArena_one {f : Table Word} {x : Byte} (h : leafSymbols f = [x]) :
    buildArena f = ([leafNode f x, singleRoot (leafNode f x)], 1) := by
  simp [buildArena, seedArena, h]

/-- With two symbols or more the arena and the root are the merge's (R145, R148). -/
theorem buildArena_merges {f : Table Word} (hf : badSymbol f = none)
    (h : 2 ≤ (leafSymbols f).length) :
    mergeLoop (leafSymbols f).length (seedArena f) (List.range (leafSymbols f).length) =
      ((buildArena f).1, [(buildArena f).2]) := by
  have hne : leafSymbols f ≠ [] := by intro e; simp [e] at h
  have hlen := seedArena_length f
  obtain ⟨arena, t, hm, _⟩ := mergeLoop_spec f hf (seedArena f).length _ _ _ (seed_forest f hne)
    (by simp; omega) (by simp)
  rw [hlen] at hm
  unfold buildArena
  split
  · rename_i leaf he
    rw [he] at hlen
    simp at hlen
    omega
  · rw [hlen, hm]
    rfl

/-- Whatever the table, the arena begins with the seeded leaves (R141). -/
theorem buildArena_leaves (f : Table Word) : seedArena f <+: (buildArena f).1 := by
  unfold buildArena
  split
  · rename_i leaf he
    rw [he]
    exact ⟨[singleRoot leaf], rfl⟩
  · exact mergeLoop_extends _ _ _

/-- What is grown in a stored arena is spelled by the state. -/
theorem Grown.spells {s : State} {i : Nat} {t : CodeTree} (h : Grown s.freq s.nodes i t)
    (hc : s.nodeCount.toNat = s.nodes.length) (hl : s.nodes.length ≤ 511) :
    Spells s (BitVec.ofNat 9 i) t := by
  have node_at : ∀ {j n}, s.nodes[j]? = some n →
      s.node (BitVec.ofNat 9 j) = n ∧ (BitVec.ofNat 9 j).toNat < s.nodeCount.toNat ∧
        BitVec.ofNat 9 j ≠ Config.nil := by
    intro j n hj
    have hj' := (List.getElem?_eq_some_iff.mp hj).1
    have hN : (BitVec.ofNat 9 j).toNat = j := by simp; omega
    refine ⟨?_, by omega, ?_⟩
    · rw [State.node, hN, if_pos (by omega), List.getD_eq_getElem?_getD, hj]
      rfl
    · intro e
      have := congrArg BitVec.toNat e
      rw [hN] at this
      have : j = 511 := this
      omega
  induction t generalizing i with
  | leaf x =>
    obtain ⟨h1, h2, h3⟩ := node_at h
    refine ⟨⟨h2, h3, by rw [h1]; rfl⟩, by rw [h1]; rfl, by rw [h1]; rfl, by rw [h1]; rfl, ?_⟩
    rw [h1]
    have := (entry s.freq x).isLt
    simp [leafNode, BitVec.toNat_setWidth]
    omega
  | single x => exact absurd h id
  | node l r ihl ihr =>
    obtain ⟨a, b, n, hn, hk, hs, ha, hb, hw, hl', hr'⟩ := h
    obtain ⟨h1, h2, h3⟩ := node_at hn
    refine ⟨⟨h2, h3, by rw [h1]; exact hk⟩, by rw [h1]; exact hs, by rw [h1]; exact hw, ?_, ?_⟩
    · rw [h1, ha]; exact ihl hl'
    · rw [h1, hb]; exact ihr hr'

/-- The tree of one symbol, as stored (R147). -/
theorem storeTree_one (s : State) (x : Byte) (h : leafSymbols s.freq = [x]) :
    TreeIs (s.storeTree [leafNode s.freq x, singleRoot (leafNode s.freq x)] 1 1) (.single x) := by
  have hw := (entry s.freq x).isLt
  refine ⟨rfl, ?_, rfl, ?_, rfl⟩
  · have h1 : (1#9).toNat < (2#10).toNat ∧ 1#9 ≠ Config.nil := by decide
    have h0 : (0#9).toNat < (2#10).toNat ∧ 0#9 ≠ Config.nil := by decide
    refine ⟨⟨h1.1, h1.2, rfl⟩, rfl, rfl, ?_, ⟨h0.1, h0.2, rfl⟩, rfl, rfl, rfl, ?_⟩
    · simp [State.node, State.storeTree, singleRoot, leafNode, CodeTree.weight, CodeTree.symbols,
        CodeTree.paths]
      omega
    · simp [State.node, State.storeTree, singleRoot, leafNode]
      omega
  · simp [CodeTree.symbols, CodeTree.paths, h]

/-- The tree of two symbols or more, as stored. -/
theorem storeTree_many (s : State) {arena : List Node} {t : CodeTree}
    (hg : Grown s.freq arena (arena.length - 1) t) (hw : t.isWhole = true)
    (hs : t.size = arena.length) (hp : t.symbols.Perm (leafSymbols s.freq))
    (hl : arena.length ≤ 511) :
    TreeIs (s.storeTree arena (arena.length - 1) (leafSymbols s.freq).length) t := by
  have hc : (BitVec.ofNat 10 arena.length).toNat = arena.length := by simp; omega
  have hle := leafSymbols_length_le s.freq
  refine ⟨hw, ?_, by rw [State.storeTree_nodeCount, hc, hs], hp, ?_⟩
  · exact Grown.spells (s := s.storeTree arena (arena.length - 1) (leafSymbols s.freq).length)
      hg hc hl
  · simp [hp.length_eq]
    omega

/-- Every outcome of BUILD_TREE: BadFrequency for the smallest symbol with bit 31 set, EmptyInput
for an empty table, and otherwise the tree of the table (R140, R142, R143, R148). -/
theorem execBuildTree_cases (s : State) :
    (∃ x, badSymbol s.freq = some x ∧ execBuildTree s =
        .next (s.invalidateTree.raise .badFrequency (x.setWidth 32) (entry s.freq x))) ∨
    (badSymbol s.freq = none ∧ leafSymbols s.freq = [] ∧
      execBuildTree s = .next (s.invalidateTree.raise .emptyInput 0 0)) ∨
    (badSymbol s.freq = none ∧ ∃ arena root t,
      execBuildTree s =
        .next (s.invalidateTree.storeTree arena root (leafSymbols s.freq).length) ∧
      TreeIs (s.invalidateTree.storeTree arena root (leafSymbols s.freq).length) t ∧
      arena.length ≤ 511 ∧ root + 1 = arena.length ∧ leafSymbols s.freq ≠ [] ∧
      arena.length = (if (leafSymbols s.freq).length = 1 then 2
        else 2 * (leafSymbols s.freq).length - 1) ∧
      buildArena s.freq = (arena, root)) := by
  have hfreq : s.invalidateTree.freq = s.freq := rfl
  unfold execBuildTree
  dsimp only
  rw [hfreq]
  cases hb : badSymbol s.freq with
  | some x => exact .inl ⟨x, rfl, rfl⟩
  | none =>
    right
    cases hl : leafSymbols s.freq with
    | nil => exact .inl ⟨rfl, rfl, rfl⟩
    | cons x rest =>
      right
      refine ⟨rfl, ?_⟩
      cases rest with
      | nil =>
        rw [buildArena_one hl]
        have hlen : (leafSymbols s.freq).length = 1 := by simp [hl]
        have := storeTree_one s.invalidateTree x hl
        exact ⟨_, 1, .single x, rfl, this, by simp, by simp, by simp, by simp, rfl⟩
      | cons y rest =>
        have h2 : 2 ≤ (leafSymbols s.freq).length := by simp [hl]
        obtain ⟨arena, t, he, hg, hw, hs, hp, hn⟩ := buildArena_many hb h2
        have hle := leafSymbols_length_le s.freq
        have := storeTree_many s.invalidateTree hg hw hs hp (by omega)
        rw [he]
        rw [hfreq, hl] at this
        refine ⟨arena, arena.length - 1, t, rfl, this, by omega, by omega, by simp, ?_, rfl⟩
        rw [hn, hl]
        simp

end Sys2Proof.Machine
end

