-- ==== Sys2Proof/Laws/Engine.lean ====
section
/-! SUPPORT. What a command, the Engine's turn, an abandoned command and a Host access can do, said
once: a command always ends, the streams only grow, and a step has these cases and no other. -/

namespace Sys2Proof.Machine

/-! ### DEC_BYTE -/

/-- The decode steps of a byte end by an error of a bit, or by the check of the budget (R225). -/
theorem decodeByte_cases (s : State) (v : Byte) :
    (∃ t, s.decodeBits (s.meaningfulBits v) = .error t ∧ s.decodeByte v = t) ∨
    (∃ t, s.decodeBits (s.meaningfulBits v) = .ok t ∧ s.decodeByte v = t.checkBudget) := by
  cases hd : s.decodeBits (s.meaningfulBits v) with
  | error t => exact .inl ⟨t, rfl, by simp [State.decodeByte, hd]⟩
  | ok t => exact .inr ⟨t, rfl, by simp [State.decodeByte, hd]⟩

/-- DEC_BYTE in its three decoder states (R225, R233). -/
theorem execDecByte_cases (s : State) (v : Byte) :
    (s.decState = .off ∧ execDecByte v s = .next (s.raise .notReady 0 0)) ∨
    (s.decState = .active ∧ execDecByte v s = .next (s.countByte.decodeByte v)) ∨
    (s.decState = .done ∧ execDecByte v s = .next { s with decExtra := s.decExtra + 1 }) := by
  cases h : s.decState with
  | off => exact .inl ⟨rfl, by simp only [execDecByte, h]⟩
  | active => exact .inr (.inl ⟨rfl, by simp only [execDecByte, h]⟩)
  | done => exact .inr (.inr ⟨rfl, by simp only [execDecByte, h]⟩)

theorem countByte_frame (s : State) : { s.countByte with decBytes := s.decBytes } = s := rfl

/-- The three outcomes of the check of the budget (R225, R229). -/
theorem checkBudget_cases (s : State) :
    (s.decRemain ≠ 0 ∧ s.checkBudget = s) ∨
    (s.decRemain = 0 ∧ s.decPos = s.root ∧ s.checkBudget = { s with decState := .done }) ∨
    (s.decRemain = 0 ∧ s.decPos ≠ s.root ∧
      s.checkBudget = s.raise .corruptStream 0 (s.decPos.setWidth 32)) := by
  by_cases h : s.decRemain = 0
  · by_cases g : s.decPos = s.root
    · exact .inr (.inl ⟨h, g, by simp [State.checkBudget, h, g]⟩)
    · exact .inr (.inr ⟨h, g, by simp [State.checkBudget, h, g]⟩)
  · exact .inl ⟨h, by simp only [State.checkBudget, if_neg h]⟩

@[simp] theorem checkBudget_encOut (s : State) : s.checkBudget.encOut = s.encOut := by
  rcases checkBudget_cases s with ⟨_, e⟩ | ⟨_, _, e⟩ | ⟨_, _, e⟩ <;> simp [e]

@[simp] theorem checkBudget_decOut (s : State) : s.checkBudget.decOut = s.decOut := by
  rcases checkBudget_cases s with ⟨_, e⟩ | ⟨_, _, e⟩ | ⟨_, _, e⟩ <;> simp [e]

/-! ### Every outcome of every command (R140 to R251) -/

/-- `Ran i s t`: the command `i`, executed in `s`, ends in `t`. One constructor for each way it can
end. -/
inductive Ran : Instr → State → State → Prop where
  | nop (s) : Ran .nop s s
  | badFrequency (s) (x : Byte) (bad : badSymbol s.freq = some x) :
    Ran .buildTree s (s.invalidateTree.raise .badFrequency (x.setWidth 32) (entry s.freq x))
  | emptyInput (s) (good : badSymbol s.freq = none) (empty : leafSymbols s.freq = []) :
    Ran .buildTree s (s.invalidateTree.raise .emptyInput 0 0)
  | built (s) (arena : List Node) (root : Nat) (tree : CodeTree)
    (good : badSymbol s.freq = none) (nonempty : leafSymbols s.freq ≠ [])
    (is : TreeIs (s.invalidateTree.storeTree arena root (leafSymbols s.freq).length) tree)
    (len : arena.length ≤ 511) (top : root + 1 = arena.length) :
    Ran .buildTree s (s.invalidateTree.storeTree arena root (leafSymbols s.freq).length)
  | noTree (s) (h : s.treeValid = false) : Ran .assignCodes s (s.raise .notReady 0 0)
  | tooLong (s) (x : Byte) (h : s.treeValid = true)
    (deep : tooDeep s.invalidateCodes.leafPaths = some x) :
    Ran .assignCodes s (s.invalidateCodes.raise .codeLengthOverflow (x.setWidth 32)
      (BitVec.ofNat 32 (pathIn s.invalidateCodes.leafPaths x).length))
  | assigned (s) (h : s.treeValid = true) (deep : tooDeep s.invalidateCodes.leafPaths = none) :
    Ran .assignCodes s (s.invalidateCodes.storeCodes s.invalidateCodes.leafPaths)
  | encStart (s) :
    Ran .encStart s { s with acc := 0, accN := 0, encBits := 0, encFlushed := false }
  | symNotReady (s) (x : Byte) (h : s.codesValid = false) :
    Ran (.encSym x) s (s.raise .notReady 0 0)
  | symFlushed (s) (x : Byte) (h : s.codesValid = true) (f : s.encFlushed = true) :
    Ran (.encSym x) s (s.raise .writeAfterFlush 0 0)
  | symNoCode (s) (x : Byte) (h : s.codesValid = true) (f : s.encFlushed = false)
    (n : entry s.len x = 0) : Ran (.encSym x) s (s.raise .noCode (x.setWidth 32) 0)
  | symWritten (s) (x : Byte) (h : s.codesValid = true) (f : s.encFlushed = false)
    (n : entry s.len x ≠ 0) : Ran (.encSym x) s (s.writeBits (s.symbolBits x))
  | bitFlushed (s) (b : Bool) (f : s.encFlushed = true) :
    Ran (.wrBit b) s (s.raise .writeAfterFlush 0 0)
  | bitWritten (s) (b : Bool) (f : s.encFlushed = false) : Ran (.wrBit b) s (s.writeBit b)
  | codeFlushed (s) (len : Byte) (f : s.encFlushed = true) :
    Ran (.wrCode len) s (s.raise .writeAfterFlush 0 0)
  | codeWritten (s) (len : Byte) (f : s.encFlushed = false) :
    Ran (.wrCode len) s (s.writeBits (s.wrCodeBits len))
  | flushFlushed (s) (f : s.encFlushed = true) : Ran .flush s (s.raise .writeAfterFlush 0 0)
  | flushed (s) (f : s.encFlushed = false) : Ran .flush s { s.drain with encFlushed := true }
  | startNotReady (s) (h : s.treeValid = false ∨ s.codesValid = false) :
    Ran .decStart s (s.raise .notReady 0 0)
  | started (s) (h : s.treeValid = true) (g : s.codesValid = true) :
    Ran .decStart s { s with
      decRemain := s.totalBits, decPos := s.root, decBytes := 0, decExtra := 0, decSyms := 0,
      decState := if s.totalBits = 0 then .done else .active }
  | byteNotReady (s) (v : Byte) (h : s.decState = .off) :
    Ran (.decByte v) s (s.raise .notReady 0 0)
  | byteDecoded (s) (v : Byte) (h : s.decState = .active) :
    Ran (.decByte v) s (s.countByte.decodeByte v)
  | byteExtra (s) (v : Byte) (h : s.decState = .done) :
    Ran (.decByte v) s { s with decExtra := s.decExtra + 1 }
  | endNotReady (s) (h : s.decState = .off) : Ran .decEnd s (s.raise .notReady 0 0)
  | truncated (s) (h : s.decState = .active) :
    Ran .decEnd s (s.raise .truncatedStream (lowWord s.decBytes) (lowWord s.decRemain))
  | ended (s) (h : s.decState = .done) : Ran .decEnd s s
  | clearFreq (s) : Ran .clearFreq s { s with freq := fill 0 }.invalidateTree

/-- A command always ends in a next state, by one of the ways of `Ran` (R310). -/
theorem exec_ran (i : Instr) (s : State) : ∃ t, exec i s = .next t ∧ Ran i s t := by
  cases i with
  | nop => exact ⟨_, rfl, .nop s⟩
  | buildTree =>
    rcases execBuildTree_cases s with ⟨x, hx, e⟩ | ⟨hg, he, e⟩ |
      ⟨hg, arena, root, tree, e, ht, hl, hr, hn, _⟩
    · exact ⟨_, e, .badFrequency s x hx⟩
    · exact ⟨_, e, .emptyInput s hg he⟩
    · exact ⟨_, e, .built s arena root tree hg hn ht hl hr⟩
  | assignCodes =>
    simp only [exec, execAssignCodes]
    split
    · exact ⟨_, rfl, .noTree s ‹_›⟩
    · split
      · exact ⟨_, rfl, .tooLong s _ (by simpa using ‹¬ s.treeValid = false›) ‹_›⟩
      · exact ⟨_, rfl, .assigned s (by simpa using ‹¬ s.treeValid = false›) ‹_›⟩
  | encStart => exact ⟨_, rfl, .encStart s⟩
  | encSym x =>
    simp only [exec, execEncSym]
    split
    · exact ⟨_, rfl, .symNotReady s x ‹_›⟩
    · have hc : s.codesValid = true := by simpa using ‹¬ s.codesValid = false›
      split
      · exact ⟨_, rfl, .symFlushed s x hc ‹_›⟩
      · have hf : s.encFlushed = false := by simpa using ‹¬ s.encFlushed = true›
        split
        · exact ⟨_, rfl, .symNoCode s x hc hf ‹_›⟩
        · exact ⟨_, rfl, .symWritten s x hc hf ‹_›⟩
  | wrBit b =>
    simp only [exec, execWrBit]
    split
    · exact ⟨_, rfl, .bitFlushed s b ‹_›⟩
    · exact ⟨_, rfl, .bitWritten s b (by simpa using ‹¬ s.encFlushed = true›)⟩
  | wrCode len =>
    simp only [exec, execWrCode]
    split
    · exact ⟨_, rfl, .codeFlushed s len ‹_›⟩
    · exact ⟨_, rfl, .codeWritten s len (by simpa using ‹¬ s.encFlushed = true›)⟩
  | flush =>
    simp only [exec, execFlush]
    split
    · exact ⟨_, rfl, .flushFlushed s ‹_›⟩
    · exact ⟨_, rfl, .flushed s (by simpa using ‹¬ s.encFlushed = true›)⟩
  | decStart =>
    simp only [exec, execDecStart]
    split
    · exact ⟨_, rfl, .startNotReady s ‹_›⟩
    · have h := ‹¬ (s.treeValid = false ∨ s.codesValid = false)›
      exact ⟨_, rfl, .started s (by simpa using fun e => h (.inl e))
        (by simpa using fun e => h (.inr e))⟩
  | decByte v =>
    rcases execDecByte_cases s v with ⟨h, e⟩ | ⟨h, e⟩ | ⟨h, e⟩
    · exact ⟨_, e, .byteNotReady s v h⟩
    · exact ⟨_, e, .byteDecoded s v h⟩
    · exact ⟨_, e, .byteExtra s v h⟩
  | decEnd =>
    simp only [exec, execDecEnd]
    split
    · exact ⟨_, rfl, .endNotReady s ‹_›⟩
    · exact ⟨_, rfl, .truncated s ‹_›⟩
    · exact ⟨_, rfl, .ended s ‹_›⟩
  | clearFreq => exact ⟨_, rfl, .clearFreq s⟩

/-- The inversion of a command that ends in a next state. -/
theorem ran_of_exec {i : Instr} {s t : State} (h : exec i s = .next t) : Ran i s t := by
  obtain ⟨u, hu, hr⟩ := exec_ran i s
  rw [h] at hu
  obtain rfl := Host.Outcome.next.inj hu
  exact hr

/-! ### What every command leaves alone (R10, R50, R52) -/

theorem checkBudget_frame (s : State) :
    DecodeFrame { s with decState := s.checkBudget.decState } s.checkBudget := by
  rcases checkBudget_cases s with ⟨_, e⟩ | ⟨_, _, e⟩ | ⟨_, _, e⟩ <;> rw [e]
  · exact .refl s
  · exact .refl _
  · exact State.raise_frame s _ _ _

theorem decodeByte_frame (s : State) (v : Byte) :
    DecodeFrame { s with decState := (s.decodeByte v).decState } (s.decodeByte v) := by
  rcases decodeByte_cases s v with ⟨t, hd, e⟩ | ⟨t, hd, e⟩ <;> rw [e]
  · have f := (State.decodeBits_error hd).1
    rw [f.state]
    exact f
  · obtain ⟨a, b, c, d, e, f, g, i, j, k⟩ := (State.decodeBits_ok hd).1
    have h : DecodeFrame { s with decState := t.checkBudget.decState }
      { t with decState := t.checkBudget.decState } := ⟨a, b, c, d, e, f, rfl, i, j, k⟩
    exact h.trans (checkBudget_frame t)

theorem drain_cases (s : State) :
    (s.accN = 0 ∧ s.drain = s) ∨
    (s.accN ≠ 0 ∧ s.drain =
      { s with encOut := s.encOut ++ [s.paddedAcc], acc := 0, accN := 0 }) := by
  by_cases h : s.accN = 0
  · exact .inl ⟨h, by simp only [State.drain, if_pos h]⟩
  · exact .inr ⟨h, by simp only [State.drain, if_neg h, State.emitEnc]⟩

/-- What no command changes (R27, R49, R50; BUSY is cleared by the Engine's step, log 17). -/
theorem exec_frame {i : Instr} {s t : State} (h : exec i s = .next t) :
    SameControl s t ∧ SameModel s t := by
  cases ran_of_exec h with
  | byteDecoded _ v _ =>
    have f := decodeByte_frame s.countByte v
    exact ⟨f.control, f.model⟩
  | flushed _ _ =>
    rcases drain_cases s with ⟨_, e⟩ | ⟨_, e⟩ <;> rw [e] <;>
      exact ⟨⟨rfl, rfl, rfl, rfl, rfl, rfl⟩, rfl, rfl, rfl⟩
  | symWritten _ x _ _ _ => simp [SameControl, SameModel]
  | bitWritten _ b _ => simp [SameControl, SameModel]
  | codeWritten _ len _ => simp [SameControl, SameModel]
  | _ => exact ⟨⟨rfl, rfl, rfl, rfl, rfl, rfl⟩, rfl, rfl, rfl⟩

/-- ENC_OUT only grows (R52). -/
theorem exec_encOut {i : Instr} {s t : State} (h : exec i s = .next t) :
    ∃ new, t.encOut = s.encOut ++ new := by
  cases ran_of_exec h with
  | byteDecoded _ v _ =>
    exact ⟨[], by rw [(decodeByte_frame s.countByte v).writer.2.2.2.2]; simp [State.countByte]⟩
  | flushed _ _ =>
    rcases drain_cases s with ⟨_, e⟩ | ⟨_, e⟩ <;> rw [e]
    · exact ⟨[], by simp⟩
    · exact ⟨_, rfl⟩
  | symWritten _ x _ _ _ => exact State.writeBits_encOut_append _ _
  | bitWritten _ b _ => exact State.writeBits_encOut_append s [b]
  | codeWritten _ len _ => exact State.writeBits_encOut_append _ _
  | _ => exact ⟨[], by simp⟩

/-- DEC_OUT only grows (R52). -/
theorem exec_decOut {i : Instr} {s t : State} (h : exec i s = .next t) :
    ∃ new, t.decOut = s.decOut ++ new := by
  cases ran_of_exec h with
  | byteDecoded _ v _ => exact (decodeByte_frame s.countByte v).out
  | flushed _ _ =>
    rcases drain_cases s with ⟨_, e⟩ | ⟨_, e⟩ <;> rw [e] <;> exact ⟨[], by simp⟩
  | _ => exact ⟨[], by simp⟩

/-! ### The Engine's turn (R310, R264) -/

/-- The Engine rests, runs the command that PEND_CMD decodes to, or takes BadCommand. -/
theorem engineTurn_cases (s : State) :
    ((s.busy = false ∨ s.errCode ≠ .none) ∧ engineTurn s = .next s) ∨
    (s.busy = true ∧ s.errCode = .none ∧ ∃ i t, decode s.pendCmd = .ok i ∧ exec i s = .next t ∧
      engineTurn s = .next t.finish) ∨
    (s.busy = true ∧ s.errCode = .none ∧ ∃ r, decode s.pendCmd = .error r ∧
      engineTurn s = .next (s.raise .badCommand 0 0).finish) := by
  by_cases hb : s.busy = true ∧ s.errCode = .none
  · have hg : (s.busy && !s.inFault) = true := by simp [State.inFault, hb.1, hb.2]
    right
    cases hd : decode s.pendCmd with
    | ok i =>
      obtain ⟨t, ht, _⟩ := exec_ran i s
      exact .inl ⟨hb.1, hb.2, i, t, rfl, ht, by simp [engineTurn, hg, hd, ht, finishOutcome]⟩
    | error r =>
      exact .inr ⟨hb.1, hb.2, r, rfl, by simp [engineTurn, hg, hd, finishOutcome]⟩
  · left
    have hg : ¬ ((s.busy && !s.inFault) = true) := by
      simpa [State.inFault] using hb
    refine ⟨?_, by simp only [engineTurn, if_neg hg]⟩
    by_cases h : s.busy = true
    · exact .inr fun e => hb ⟨h, e⟩
    · exact .inl (by simpa using h)

/-- What the Engine's turn leaves alone: PEND_CMD, CMD, CMD_ARG, IRQ_EN, POISONED and the model's
own fields; the streams grow at their end. -/
theorem engineTurn_frame {s t : State} (h : engineTurn s = .next t) :
    t.irqEn = s.irqEn ∧ t.cmd = s.cmd ∧ t.cmdArg = s.cmdArg ∧ t.pendCmd = s.pendCmd ∧
      t.poisoned = s.poisoned ∧ SameModel s t ∧ (∃ new, t.encOut = s.encOut ++ new) ∧
      ∃ new, t.decOut = s.decOut ++ new := by
  rcases engineTurn_cases s with ⟨_, e⟩ | ⟨_, _, i, u, _, hu, e⟩ | ⟨_, _, _, _, e⟩ <;>
    (rw [e] at h; obtain rfl := Host.Outcome.next.inj h)
  · exact ⟨rfl, rfl, rfl, rfl, rfl, ⟨rfl, rfl, rfl⟩, ⟨[], by simp⟩, [], by simp⟩
  · obtain ⟨⟨c1, _, c3, c4, c5, c6⟩, m⟩ := exec_frame hu
    have d : ∃ new, u.decOut = s.decOut ++ new := exec_decOut hu
    have e : ∃ new, u.encOut = s.encOut ++ new := exec_encOut hu
    exact ⟨c1, c3, c4, c5, c6, m, e, d⟩
  · exact ⟨rfl, rfl, rfl, rfl, rfl, ⟨rfl, rfl, rfl⟩, ⟨[], by simp⟩, [], by simp⟩

/-- `State.completed` is the state after the Engine's turn. -/
theorem engineTurn_completed (s : State) : engineTurn s = .next s.completed := by
  rcases engineTurn_cases s with ⟨_, e⟩ | ⟨_, _, _, _, _, _, e⟩ | ⟨_, _, _, _, e⟩ <;>
    simp [State.completed, e]

/-! ### What an abandoned command leaves in the streams (R268, R302) -/

theorem partialOutput_before {before after : List Byte} (h : before <+: after) (k : Nat) :
    before <+: partialOutput before after k := by
  obtain ⟨new, rfl⟩ := h
  exact ⟨new.take (k % ((before ++ new).length - before.length + 1)), by
    simp [partialOutput, List.take_append]⟩

theorem partialOutput_after (before after : List Byte) (k : Nat) :
    partialOutput before after k <+: after := List.take_prefix _ _

theorem abandonOutput_encOut (s : State) :
    s.encOut <+: s.abandonOutput.encOut ∧ s.abandonOutput.encOut <+: s.completed.encOut := by
  obtain ⟨new, h⟩ := (engineTurn_frame (engineTurn_completed s)).2.2.2.2.2.2.1
  exact ⟨partialOutput_before ⟨new, h.symm⟩ _, partialOutput_after _ _ _⟩

theorem abandonOutput_decOut (s : State) :
    s.decOut <+: s.abandonOutput.decOut ∧ s.abandonOutput.decOut <+: s.completed.decOut := by
  obtain ⟨new, h⟩ := (engineTurn_frame (engineTurn_completed s)).2.2.2.2.2.2.2
  exact ⟨partialOutput_before ⟨new, h.symm⟩ _, partialOutput_after _ _ _⟩

/-- A reset, from any state. -/
theorem resetStep_cases (s : State) :
    (s.busy = false ∧ s.resetStep = s.toReset) ∨
    (s.busy = true ∧ s.resetStep = s.abandonOutput.toReset) := by
  cases h : s.busy
  · exact .inl ⟨rfl, by simp [State.resetStep, h]⟩
  · exact .inr ⟨rfl, by simp [State.resetStep, h]⟩

/-! ### Host accesses, and a step (R7, R72 to R78) -/

/-- Every outcome of a Host write, in the order of R78. -/
theorem hostWrite_cases (off : Word) (be : BitVec 4) (v : Word) (s : State) :
    (0x4000 ≤ off.toNat ∧ hostWrite off be v s = .next s) ∨
    (off.toNat < 0x4000 ∧ wordOffset off = 0x00C ∧ be = 0xF#4 ∧
      hostWrite off be v s = .next (s.writeCtrl v)) ∨
    (off.toNat < 0x4000 ∧ wordOffset off = 0x00C ∧ be ≠ 0xF#4 ∧
      hostWrite off be v s = .next s) ∨
    (off.toNat < 0x4000 ∧ wordOffset off ≠ 0x00C ∧ s.busy = true ∧
      hostWrite off be v s = .next (s.overrun (wordOffset off) v)) ∨
    (off.toNat < 0x4000 ∧ wordOffset off ≠ 0x00C ∧ s.busy = false ∧ be = 0xF#4 ∧
      s.errCode = .none ∧ hostWrite off be v s = .next (s.writeRegister (wordOffset off) v)) ∨
    (off.toNat < 0x4000 ∧ wordOffset off ≠ 0x00C ∧ s.busy = false ∧
      (be ≠ 0xF#4 ∨ s.errCode ≠ .none) ∧ hostWrite off be v s = .next s) := by
  by_cases hd : off.toNat < 0x4000
  · right
    have h1 : decodes off = true := by simp [decodes, Config.window, hd]
    by_cases ha : wordOffset off = 0x00C
    · by_cases hbe : be = 0xF#4
      · exact .inl ⟨hd, ha, hbe, by simp [hostWrite, h1, ha, ctrlOffset, fullWord, hbe]⟩
      · exact .inr (.inl ⟨hd, ha, hbe, by simp [hostWrite, h1, ha, ctrlOffset, fullWord, hbe]⟩)
    · right; right
      cases hb : s.busy with
      | true => exact .inl ⟨hd, ha, rfl, by simp [hostWrite, h1, ha, ctrlOffset, hb]⟩
      | false =>
        right
        by_cases hg : be = 0xF#4 ∧ s.errCode = .none
        · exact .inl ⟨hd, ha, rfl, hg.1, hg.2, by
            simp [hostWrite, h1, ha, ctrlOffset, hb, fullWord, hg.1, State.inFault, hg.2]⟩
        · refine .inr ⟨hd, ha, rfl, ?_, ?_⟩
          · by_cases hbe : be = 0xF#4
            · exact .inr fun e => hg ⟨hbe, e⟩
            · exact .inl hbe
          · have : ¬ ((fullWord be && !s.inFault) = true) := by
              simpa [fullWord, State.inFault] using hg
            simp [hostWrite, h1, ha, ctrlOffset, hb, this]
  · exact .inl ⟨by omega, by simp [hostWrite, decodes, Config.window, hd]⟩

/-- Every outcome of a Host read: it only answers a word. -/
theorem hostRead_cases (off : Word) (s : State) :
    ∃ v k, hostRead off s = .next { s with rdata := s.rdata ++ [v], draws := s.draws + k } := by
  unfold hostRead
  split
  · exact ⟨_, 0, rfl⟩
  · exact ⟨_, 1, rfl⟩

/-- A read of the window whose value is not open answers the register (R75, R76). -/
theorem hostRead_exact {off : Word} {s : State} (hd : off.toNat < 0x4000)
    (ho : s.readIsOpen (wordOffset off) = false) :
    hostRead off s = .next { s with rdata := s.rdata ++ [s.register (wordOffset off)] } := by
  have h1 : decodes off = true := by simp [decodes, Config.window, hd]
  simp [hostRead, h1, ho, State.respond]

/-- No step stops (R7). -/
theorem runEvent_next (e : Event) (s : State) : ∃ t, runEvent e s = .next t := by
  cases e with
  | read off => obtain ⟨v, k, h⟩ := hostRead_cases off s; exact ⟨_, h⟩
  | write off be v =>
    rcases hostWrite_cases off be v s with ⟨_, h⟩ | ⟨_, _, _, h⟩ | ⟨_, _, _, h⟩ | ⟨_, _, _, h⟩ |
      ⟨_, _, _, _, _, h⟩ | ⟨_, _, _, _, h⟩ <;> exact ⟨_, h⟩
  | reset => exact ⟨_, rfl⟩
  | engine => exact ⟨_, engineTurn_completed s⟩

/-- The three accepted writes beside CTRL, and the writes without effect (R77, R252 to R254). -/
theorem writeRegister_cases (s : State) (a : Nat) (v : Word) :
    (a = 0x014 ∧ s.writeRegister a v = s.issue v) ∨
    (a = 0x018 ∧ s.writeRegister a v = { s with cmdArg := v }) ∨
    (0x400 ≤ a ∧ a < 0x800 ∧ s.writeRegister a v = s.writeFreq (symbolAt 0x400 a) v) ∨
    (a ≠ 0x014 ∧ a ≠ 0x018 ∧ (a < 0x400 ∨ 0x800 ≤ a) ∧ s.writeRegister a v = s) := by
  by_cases h1 : a = 0x014
  · exact .inl ⟨h1, by simp [State.writeRegister, h1]⟩
  · by_cases h2 : a = 0x018
    · exact .inr (.inl ⟨h2, by simp [State.writeRegister, h2]⟩)
    · by_cases h3 : 0x400 ≤ a ∧ a < 0x800
      · exact .inr (.inr (.inl ⟨h3.1, h3.2, by simp [State.writeRegister, h1, h2, h3]⟩))
      · exact .inr (.inr (.inr ⟨h1, h2, by omega, by simp only [State.writeRegister, h1, h2, h3, if_false]⟩))

@[simp] theorem step_cons (s : State) (e : Event) (rest : List Event) (h : s.agenda = e :: rest) :
    step s = runEvent e { s with agenda := rest } := by
  simp [step, State.nextEvent, h]

@[simp] theorem step_nil (s : State) (h : s.agenda = []) : step s = runEvent .engine s := by
  simp [step, State.nextEvent, h]

end Sys2Proof.Machine
end

