-- ==== Sys2Proof/Laws/Invariant.lean ====
section
/-! SUPPORT. How the invariant of 10_state.md R54 is kept: what it depends on, and one lemma for each
shape of change that a command or a Host access makes. -/

namespace Sys2Proof.Machine

/-! ### What the invariant depends on -/

/-- The parts of the state that R54 and the tree clauses read, the writer apart. -/
structure SameReads (s t : State) : Prop where
  tree : SameTree s t
  codes : SameCodes s t
  freq : SameFreq s t
  decState : t.decState = s.decState
  decPos : t.decPos = s.decPos
  decRemain : t.decRemain = s.decRemain

theorem SameReads.spells {s t : State} (e : SameReads s t) {i : NodeIdx} {u : CodeTree}
    (h : Spells s i u) : Spells t i u :=
  spells_congr e.tree.2.2.2.2 e.tree.2.2.1 e.freq h

theorem SameReads.treeIs {s t : State} (e : SameReads s t) {u : CodeTree} (h : TreeIs s u) :
    TreeIs t u :=
  treeIs_congr e.tree.2.2.2.2 e.tree.2.2.1 e.freq e.tree.2.1 e.tree.2.2.2.1 h

theorem codesAre_congr {s t : State} (e : SameCodes s t) (f : SameFreq s t) {u : CodeTree}
    (h : CodesAre s u) : CodesAre t u := by
  obtain ⟨_, e2, e3, e4⟩ := e
  have f : t.freq = s.freq := f
  exact ⟨h.depth, by rw [e4]; exact h.len, by rw [e3]; exact h.code,
    by rw [e2, e4, f]; exact h.budget⟩

/-- In a state without an error the block is not poisoned. -/
theorem Inv.clean {s : State} (h : Inv s) (he : s.errCode = .none) : s.poisoned = false := by
  cases hp : s.poisoned with
  | false => rfl
  | true => rw [h.poisoned.mp hp] at he; cases he

/-- The invariant carries over to a state that reads the same, with the same error or another one
that is no Overrun, and a consistent writer. -/
theorem Inv.carry {s t : State} (h : Inv s) (e : SameReads s t) (hp : t.poisoned = s.poisoned)
    (he : t.errCode = s.errCode ∨ (s.errCode = .none ∧ t.errCode ≠ .overrun))
    (hb : t.busy = true → t.errCode = .none ∧ t.pendCmd = t.cmd)
    (hw : s.poisoned = false →
      WriterOk t ∧ (t.encFlushed = true → t.accN = 0 ∧ t.acc = 0)) : Inv t := by
  obtain ⟨a1, a2, a3, a4, a5⟩ := e.tree
  obtain ⟨b1, b2, b3, b4⟩ := e.codes
  have hn : ∀ i, t.node i = s.node i := by intro i; simp [State.node, a5, a3]
  refine ⟨?_, hb, ?_, ?_, ?_, ?_⟩
  · rw [hp]
    rcases he with he | ⟨he, hne⟩
    · rw [he]; exact h.poisoned
    · have := h.clean he
      simp [this, hne]
  · intro hp'; rw [a5, a3]; exact h.arena (hp ▸ hp')
  · intro hp'
    have hs : s.poisoned = false := hp ▸ hp'
    obtain ⟨ra, rb, rc, rd, re, rf, _, _⟩ := h.rule54 hs
    refine ⟨?_, ?_, ?_, ?_, ?_, ?_, (hw hs).1, (hw hs).2⟩
    · rw [a1, a2, a3, a4]; exact ra
    · rw [b1, a1, b2]; exact rb
    · rw [b1, b2, b3, b4]; exact rc
    · rw [e.decState, b1, e.decPos, a2]; simp only [State.allocated, hn, a3]; exact rd
    · rw [e.decState, e.decRemain, e.decPos, a2]; exact re
    · rw [e.decState, e.decRemain]
      intro ha
      rcases rf ha with h1 | h1
      · exact .inl h1
      · rcases he with he | ⟨he, _⟩
        · exact .inr (he.trans h1)
        · rw [he] at h1; cases h1
  · intro hp' hv
    obtain ⟨u, hu, hc⟩ := h.tree (hp ▸ hp') (a1 ▸ hv)
    exact ⟨u, e.treeIs hu, fun hc' => codesAre_congr e.codes e.freq (hc (b1 ▸ hc'))⟩
  · intro hp' hd
    obtain ⟨u, hu, hs⟩ := h.walk (hp ▸ hp') (e.decState ▸ hd)
    exact ⟨u, hu, by rw [e.decPos]; exact e.spells hs⟩

/-- A state that reads the same but for the writer. -/
theorem sameReads_writer (s : State) (acc : Byte) (n : BitVec 4) (c : Count) (f : Bool)
    (out : List Byte) : SameReads s
      { s with acc := acc, accN := n, encBits := c, encFlushed := f, encOut := out } :=
  ⟨⟨rfl, rfl, rfl, rfl, rfl⟩, ⟨rfl, rfl, rfl, rfl⟩, rfl, rfl, rfl, rfl⟩

theorem sameReads_raise (s : State) (e : ErrCode) (i0 i1 : Word) :
    SameReads s (s.raise e i0 i1).finish :=
  ⟨⟨rfl, rfl, rfl, rfl, rfl⟩, ⟨rfl, rfl, rfl, rfl⟩, rfl, rfl, rfl, rfl⟩

/-! ### One lemma for each shape of change -/

/-- The end of an Engine step keeps the invariant. -/
theorem Inv.finish {s : State} (h : Inv s) : Inv s.finish :=
  h.carry ⟨⟨rfl, rfl, rfl, rfl, rfl⟩, ⟨rfl, rfl, rfl, rfl⟩, rfl, rfl, rfl, rfl⟩ rfl (.inl rfl)
    (by simp [State.finish]) fun hp => ⟨(h.rule54 hp).g, (h.rule54 hp).h⟩

/-- An error other than Overrun keeps the invariant. -/
theorem Inv.raised {s : State} (h : Inv s) (he : s.errCode = .none) {e : ErrCode}
    (hne : e ≠ .overrun) (i0 i1 : Word) : Inv (s.raise e i0 i1).finish :=
  h.carry (sameReads_raise s e i0 i1) rfl (.inr ⟨he, hne⟩) (by simp [State.finish])
    fun hp => ⟨(h.rule54 hp).g, (h.rule54 hp).h⟩

/-- InvalidateTree, whatever the frequencies, gives the invariant (R58). -/
theorem Inv.invalidateTree {s : State} (h : Inv s) (he : s.errCode = .none) (f : Table Word) :
    Inv { s with freq := f }.invalidateTree := by
  have hr := h.rule54 (h.clean he)
  refine ⟨h.poisoned, h.busy, fun _ => rfl, fun _ => ⟨fun _ => ⟨rfl, rfl, rfl⟩, by simp,
    fun _ => ⟨rfl, ?_⟩, by simp, by simp, by simp, hr.g, hr.h⟩, by simp, by simp⟩
  intro x
  simp [State.invalidateTree, State.invalidateCodes]

/-- InvalidateCodes keeps the invariant (R57). -/
theorem Inv.invalidateCodes {s : State} (h : Inv s) (he : s.errCode = .none) :
    Inv s.invalidateCodes := by
  have hp := h.clean he
  have hr := h.rule54 hp
  refine ⟨h.poisoned, h.busy, h.arena, fun _ => ⟨hr.a, by simp, fun _ => ⟨rfl, ?_⟩, by simp, by simp,
    by simp, hr.g, hr.h⟩, fun _ hv => ?_, by simp⟩
  · intro x
    simp [State.invalidateCodes]
  · obtain ⟨u, hu, _⟩ := h.tree hp hv
    exact ⟨u, treeIs_congr (s := s) (by rfl) (by rfl) (by rfl) (by rfl) (by rfl) hu, by simp⟩

/-- A reset state has the invariant (R55). -/
theorem toReset_inv (s : State) : Inv s.toReset := by
  refine ⟨by simp [State.toReset], by simp [State.toReset], fun _ => rfl, fun _ => ⟨fun _ => ⟨rfl,
    rfl, rfl⟩, by simp [State.toReset], fun _ => ⟨rfl, ?_⟩, by simp [State.toReset],
    by simp [State.toReset], by simp [State.toReset], by simp [WriterOk, State.toReset], by simp [State.toReset]⟩,
    by simp [State.toReset], by simp [State.toReset]⟩
  intro x
  simp [State.toReset]

/-- A poisoned block has the invariant, whatever the Overrun left (R268). -/
theorem overrun_inv (s : State) (a : Nat) (v : Word) : Inv (s.overrun a v) := by
  refine ⟨by simp [State.overrun], by simp [State.overrun], ?_, ?_, ?_, ?_⟩ <;>
    simp [State.overrun]

end Sys2Proof.Machine
end

