-- ==== Sys2Proof/Laws/PerInstr.lean ====
section
/-! SUPPORT. Two facts about every command's word, one lemma for each constructor: the fields the
word has (R110, R112), and that the decoder reads a well-formed command back from it (R113). -/

namespace Sys2Proof

theorem opField_encode (i : Instr) : opField (encode i) = i.opcode := by
  unfold opField encode
  ext k hk
  simp [hk, show k < 32 by omega]

theorem aField_encode (i : Instr) : aField (encode i) = i.operand := by
  unfold aField encode
  ext k hk
  simp [hk, show 8 + k < 32 by omega]

theorem rField_encode (i : Instr) : rField (encode i) = 0 := by
  unfold rField encode
  ext k hk
  simp [show 16 + k < 32 by omega, show ¬ 16 + k < 8 by omega,
    BitVec.getLsbD_of_ge i.opcode (16 + k) (by omega),
    BitVec.getLsbD_of_ge i.operand (16 + k - 8) (by omega)]

/-- A word whose R field is 0 is made of its OP and A fields. -/
theorem word_eq_fields (w : Word) (h : rField w = 0) :
    w = (opField w).setWidth 32 ||| ((aField w).setWidth 32 <<< 8) := by
  ext k hk
  have hr : ∀ j, j < 16 → w.getLsbD (16 + j) = false := by
    intro j hj
    have := congrArg (fun v : BitVec 16 => v.getLsbD j) h
    simpa [rField, BitVec.getLsbD_extractLsb', hj] using this
  rcases Nat.lt_or_ge k 8 with h8 | h8
  · simp [opField, aField, BitVec.getLsbD_extractLsb', hk, h8]
  · rcases Nat.lt_or_ge k 16 with h16 | h16
    · simp [opField, aField, BitVec.getLsbD_extractLsb', hk, show ¬ k < 8 by omega,
        show k - 8 < 8 by omega, show 8 + (k - 8) = k by omega]
    · have := hr (k - 16) (by omega)
      simp [opField, aField, BitVec.getLsbD_extractLsb', hk, show ¬ k < 8 by omega,
        show ¬ k - 8 < 8 by omega]
      rw [← BitVec.getLsbD_eq_getElem]
      simpa [show 16 + (k - 16) = k by omega] using this

namespace Laws

/-! ### The fields of a command's word -/

/-- OP is the command's opcode, A its operand, and R is 0. -/
def WordFields.Statement (i : Instr) : Prop :=
  opField (encode i) = i.opcode ∧ aField (encode i) = i.operand ∧ rField (encode i) = 0

theorem WordFields.all (i : Instr) : WordFields.Statement i :=
  ⟨opField_encode i, aField_encode i, rField_encode i⟩

theorem WordFields.nop : WordFields.Statement .nop := all _
theorem WordFields.buildTree : WordFields.Statement .buildTree := all _
theorem WordFields.assignCodes : WordFields.Statement .assignCodes := all _
theorem WordFields.encStart : WordFields.Statement .encStart := all _
theorem WordFields.encSym (s : Byte) : WordFields.Statement (.encSym s) := all _
theorem WordFields.wrBit (b : Bool) : WordFields.Statement (.wrBit b) := all _
theorem WordFields.wrCode (len : Byte) : WordFields.Statement (.wrCode len) := all _
theorem WordFields.flush : WordFields.Statement .flush := all _
theorem WordFields.decStart : WordFields.Statement .decStart := all _
theorem WordFields.decByte (v : Byte) : WordFields.Statement (.decByte v) := all _
theorem WordFields.decEnd : WordFields.Statement .decEnd := all _
theorem WordFields.clearFreq : WordFields.Statement .clearFreq := all _

/-! ### Decoding a command's word -/

/-- The decoder reads the command from the table of R112 by its OP and A. -/
theorem decode_encode_eq (i : Instr) :
    decode (encode i) = decodeOp i.opcode.toNat i.operand := by
  simp [decode, opField_encode, aField_encode, rField_encode]

/-- A well-formed command is read back from its word. -/
def ReadBack.Statement (i : Instr) : Prop := i.wellFormed = true → decode (encode i) = .ok i

theorem ReadBack.nop : ReadBack.Statement .nop := fun _ => decode_encode_eq _
theorem ReadBack.buildTree : ReadBack.Statement .buildTree := fun _ => decode_encode_eq _
theorem ReadBack.assignCodes : ReadBack.Statement .assignCodes := fun _ => decode_encode_eq _
theorem ReadBack.encStart : ReadBack.Statement .encStart := fun _ => decode_encode_eq _
theorem ReadBack.encSym (s : Byte) : ReadBack.Statement (.encSym s) :=
  fun _ => decode_encode_eq (.encSym s)
theorem ReadBack.wrBit (b : Bool) : ReadBack.Statement (.wrBit b) := by
  intro _
  rw [decode_encode_eq]
  cases b <;> rfl
theorem ReadBack.wrCode (len : Byte) : ReadBack.Statement (.wrCode len) := by
  intro h
  rw [decode_encode_eq]
  have : len.toNat ≤ Config.maxCodeLen := by simpa [Instr.wellFormed] using h
  simp [Instr.opcode, Instr.operand, decodeOp, lengthOperand, Nat.not_lt.mpr this]
theorem ReadBack.flush : ReadBack.Statement .flush := fun _ => decode_encode_eq _
theorem ReadBack.decStart : ReadBack.Statement .decStart := fun _ => decode_encode_eq _
theorem ReadBack.decByte (v : Byte) : ReadBack.Statement (.decByte v) :=
  fun _ => decode_encode_eq (.decByte v)
theorem ReadBack.decEnd : ReadBack.Statement .decEnd := fun _ => decode_encode_eq _
theorem ReadBack.clearFreq : ReadBack.Statement .clearFreq := fun _ => decode_encode_eq _

end Laws

end Sys2Proof
end

