-- ==== Sys2Proof/Laws/Listing.lean ====
section
/-! SUPPORT. What the Host's operations do one after another: how runs of an agenda compose, what an
accepted write and a command's Engine turn do, and what POLL adds (R119, R120, R310, R311). -/

namespace Sys2Proof.Machine

/-- The state in a run: with these words read so far and this agenda left. -/
def inRun (r : List Word) (a : List Event) (s : State) : State := { s with rdata := r, agenda := a }

/-- These events, taken from the head of the agenda, lead from `s` to `t`, whatever follows them. -/
def AgendaDoes (es : List Event) (s t : State) : Prop :=
  ∀ r more, ∃ r',
    Sys2Proof.core.run es.length (inRun r (es ++ more) s) = .next (inRun r' more t)

/-- This event leads from `s` to `t`. -/
def EventDoes (e : Event) (s t : State) : Prop :=
  ∀ r more, ∃ r', runEvent e (inRun r more s) = .next (inRun r' more t)

/-- This command leads from `s` to `t`, whatever the agenda and the words read. -/
def CommandDoes (i : Instr) (s t : State) : Prop :=
  ∀ r more, exec i (inRun r more s) = .next (inRun r more t)

/-- The listing leads from `s` to `t`, however many reads its POLLs make in vain. -/
def ListingDoes (ops : List HostOp) (s t : State) : Prop :=
  ∀ late r, ∃ r', runListing late ops (inRun r [] s) = .next (inRun r' [] t)

/-! ### Runs -/

theorem run_add (m n : Nat) (s : State) : Sys2Proof.core.run (m + n) s =
    match Sys2Proof.core.run m s with
    | .next t => Sys2Proof.core.run n t
    | .fault r => .fault r
    | .refused r => .refused r := by
  induction m generalizing s with
  | zero => simp [Host.Core.run]
  | succ m ih =>
    rw [Nat.succ_add]
    simp only [Host.Core.run]
    cases h : Sys2Proof.core.step s with
    | next t => exact ih t
    | fault r => rfl
    | refused r => rfl

theorem run_one {s t : State} (h : Sys2Proof.core.step s = .next t) :
    Sys2Proof.core.run 1 s = .next t := by
  simp [Host.Core.run, h]

theorem AgendaDoes.nil (s : State) : AgendaDoes [] s s := fun r _ => ⟨r, rfl⟩

theorem AgendaDoes.append {es fs : List Event} {s t u : State} (h : AgendaDoes es s t)
    (g : AgendaDoes fs t u) : AgendaDoes (es ++ fs) s u := by
  intro r more
  obtain ⟨r1, h1⟩ := h r (fs ++ more)
  obtain ⟨r2, h2⟩ := g r1 more
  refine ⟨r2, ?_⟩
  rw [List.length_append, run_add, List.append_assoc, h1]
  exact h2

theorem EventDoes.agendaDoes {e : Event} {s t : State} (h : EventDoes e s t) :
    AgendaDoes [e] s t := by
  intro r more
  obtain ⟨r', h'⟩ := h r more
  exact ⟨r', run_one ((step_cons (inRun r (e :: more) s) e more rfl).trans h')⟩

/-! ### Events -/

theorem status_does (s : State) : EventDoes (.read 0x010) s s := by
  intro r more
  refine ⟨r ++ [(inRun r more s).register 0x010], ?_⟩
  have h : (inRun r more s).readIsOpen 0x010 = false := by simp [State.readIsOpen, alwaysExact]
  exact hostRead_exact (by decide) h

theorem statusReads_do (n : Nat) (s : State) :
    AgendaDoes (List.replicate n (.read 0x010)) s s := by
  induction n with
  | zero => exact .nil s
  | succ n ih =>
    rw [List.replicate_succ]
    exact (status_does s).agendaDoes.append ih

/-- A full-word write other than to CTRL, with no command pending and no error (R78). -/
theorem accepted_write {s : State} {off v : Word} (hd : off.toNat < 0x4000) (hb : s.busy = false)
    (he : s.errCode = .none) (ha : wordOffset off ≠ 0xC) :
    runEvent (.write off 0xF v) s = .next (s.writeRegister (wordOffset off) v) := by
  rcases hostWrite_cases off 0xF v s with ⟨h, e⟩ | ⟨_, h, hbe, e⟩ | ⟨_, h, _, e⟩ |
    ⟨_, _, hb', e⟩ | ⟨_, _, h, _, he', e⟩ | ⟨_, _, h, h', e⟩
  · omega
  · exact absurd h ha
  · exact absurd h ha
  · rw [hb] at hb'; cases hb'
  · exact e
  · rcases h' with h' | h'
    · exact absurd rfl h'
    · exact absurd he h'

/-- The same write in FAULT is dropped (R264). -/
theorem write_in_fault_does {s : State} (hb : s.busy = false) (he : s.errCode ≠ .none) (w : Word) :
    EventDoes (.write 0x014 0xF w) s s := by
  intro r more
  rcases hostWrite_cases 0x014 0xF w (inRun r more s) with ⟨h, e⟩ | ⟨_, h, hbe, e⟩ | ⟨_, h, _, e⟩ |
    ⟨_, _, hb', e⟩ | ⟨_, _, h, _, he', e⟩ | ⟨_, _, h, h', e⟩
  · exact absurd h (by decide)
  · exact absurd h (by decide)
  · exact absurd h (by decide)
  · exact absurd (hb.symm.trans hb') (by decide)
  · exact absurd he' he
  · exact ⟨r, e⟩

theorem cmdWrite_does {s : State} (hb : s.busy = false) (he : s.errCode = .none) (w : Word) :
    EventDoes (.write 0x014 0xF w) s (s.issue w) := fun r more =>
  ⟨r, accepted_write (s := inRun r more s) (by decide) hb he (by decide)⟩

theorem freqWrite_does {s : State} (hb : s.busy = false) (he : s.errCode = .none) (x : Byte)
    (v : Word) : EventDoes (.write (freqOffset x) 0xF v) s (s.writeFreq x v) := by
  intro r more
  have hx := x.isLt
  have ho : wordOffset (freqOffset x) = 0x400 + 4 * x.toNat := by
    simp [wordOffset, freqOffset]; omega
  have hw := accepted_write (s := inRun r more s) (v := v) (off := freqOffset x)
    (by simp [freqOffset]; omega) hb he (by rw [ho]; omega)
  refine ⟨r, hw.trans ?_⟩
  rw [ho, State.writeRegister, if_neg (by omega), if_neg (by omega), if_pos (by omega)]
  have : symbolAt 0x400 (0x400 + 4 * x.toNat) = x := by
    apply BitVec.eq_of_toNat_eq; simp [symbolAt]
  rw [this]; rfl

theorem engine_does {s t : State} {i : Instr} (hb : s.busy = true) (he : s.errCode = .none)
    (hd : decode s.pendCmd = .ok i) (h : CommandDoes i s t) : EventDoes .engine s t.finish := by
  intro r more
  refine ⟨r, ?_⟩
  rcases engineTurn_cases (inRun r more s) with
    ⟨h', e⟩ | ⟨_, _, j, u, hj, hu, e⟩ | ⟨_, _, x, hr, e⟩
  · rcases h' with h' | h'
    · exact absurd (h'.symm.trans hb) (by decide)
    · exact absurd he h'
  · obtain rfl := Except.ok.inj (hd.symm.trans hj)
    obtain rfl := Host.Outcome.next.inj ((h r more).symm.trans hu)
    exact e
  · have := hd.symm.trans hr; cases this

/-! ### Listings -/

theorem ListingDoes.nil (s : State) : ListingDoes [] s s := fun _ r => ⟨r, rfl⟩

/-- One operation whose events lead from `s` to `t`. -/
theorem ListingDoes.one {op : HostOp} {s t : State}
    (h : ∀ n, AgendaDoes (op.events n s) s t) : ListingDoes [op] s t := by
  intro late r
  obtain ⟨r', h'⟩ := h (late 0) r []
  rw [List.append_nil] at h'
  refine ⟨r', ?_⟩
  have : runEvents (op.events (late 0) (inRun r [] s)) (inRun r [] s) = .next (inRun r' [] t) := by
    cases op <;> exact h'
  simp only [runListing, this]

theorem runListing_append (a b : List HostOp) : ∀ (late : Nat → Nat) (s : State),
    runListing late (a ++ b) s =
      match runListing late a s with
      | .next t => runListing (fun k => late (k + a.length)) b t
      | .fault r => .fault r
      | .refused r => .refused r := by
  induction a with
  | nil => intro late s; rfl
  | cons op a ih =>
    intro late s
    rw [List.cons_append]
    simp only [runListing]
    cases runEvents (op.events (late 0) s) s with
    | next t => simp only [ih, List.length_cons, Nat.add_assoc]
    | fault r => rfl
    | refused r => rfl

theorem ListingDoes.append {a b : List HostOp} {s t u : State} (h : ListingDoes a s t)
    (g : ListingDoes b t u) : ListingDoes (a ++ b) s u := by
  intro late r
  obtain ⟨r1, h1⟩ := h late r
  obtain ⟨r2, h2⟩ := g (fun k => late (k + a.length)) r1
  exact ⟨r2, by rw [runListing_append, h1]; exact h2⟩

/-- POLL with a command pending ends after the Engine's turn. -/
theorem poll_does {s t : State} (hb : s.busy = true) (h : EventDoes .engine s t) :
    ListingDoes [.poll] s t := by
  refine .one fun n => ?_
  rw [HostOp.events, if_pos hb]
  exact (statusReads_do n s).append (h.agendaDoes.append (status_does t).agendaDoes)

/-- POLL with no command pending ends at once. -/
theorem poll_ends_at_once {s : State} (hb : s.busy = false) : ListingDoes [.poll] s s := by
  refine .one fun n => ?_
  rw [HostOp.events, if_neg (by simp [hb])]
  exact (status_does s).agendaDoes

theorem readStatus_does (s : State) : ListingDoes [.r 0x010] s s :=
  .one fun _ => (status_does s).agendaDoes

theorem write_does {s t : State} {o v : Word} (h : EventDoes (.write o 0xF v) s t) :
    ListingDoes [.w o v] s t := .one fun _ => h.agendaDoes

/-- `CMD i` issues the command, and its POLL ends when the Engine has run it. -/
theorem command_does {s t : State} {i : Instr} (hw : i.wellFormed = true) (hb : s.busy = false)
    (he : s.errCode = .none) (h : CommandDoes i (s.issue (encode i)) t) :
    ListingDoes (cmdOps i) s t.finish := by
  have hd : decode (encode i) = .ok i := by
    cases i with
    | wrCode len => exact Laws.ReadBack.wrCode len hw
    | wrBit b => exact Laws.ReadBack.wrBit b hw
    | _ => exact Laws.decode_encode_eq _
  have hc : ListingDoes [.w 0x014 (encode i)] s (s.issue (encode i)) :=
    write_does (cmdWrite_does hb he _)
  exact hc.append (poll_does rfl (engine_does rfl he hd h))

/-- In FAULT `CMD i` does nothing. -/
theorem command_in_fault_does {s : State} (i : Instr) (hb : s.busy = false)
    (he : s.errCode ≠ .none) : ListingDoes (cmdOps i) s s := by
  have hc : ListingDoes [.w 0x014 (encode i)] s s := write_does (write_in_fault_does hb he _)
  exact hc.append (poll_ends_at_once hb)

theorem ListingDoes.runListing {ops : List HostOp} {s t : State} (h : ListingDoes ops s t)
    (late : Nat → Nat) (hs : s.rdata = []) (ha : s.agenda = []) :
    ∃ r, Machine.runListing late ops s = .next (inRun r [] t) := by
  obtain ⟨r, h'⟩ := h late []
  refine ⟨r, ?_⟩
  have : inRun [] [] s = s := by simp only [inRun, ← hs, ← ha]
  rwa [this] at h'

/-! ### What POLL's reads answer (R119) -/

/-- These status reads answer as many words, each the STATUS of `s`. -/
theorem statusReads_answer (n : Nat) (s : State) (r : List Word) (more : List Event) :
    Sys2Proof.core.run n (inRun r (List.replicate n (.read 0x010) ++ more) s) =
      .next (inRun (r ++ List.replicate n s.statusWord) more s) := by
  induction n generalizing r with
  | zero => simp [Host.Core.run]
  | succ n ih =>
    have h : runEvent (.read 0x010) (inRun r (List.replicate n (.read 0x010) ++ more) s) =
        .next (inRun (r ++ [s.statusWord]) (List.replicate n (.read 0x010) ++ more) s) :=
      hostRead_exact (by decide) (by simp [State.readIsOpen, alwaysExact, wordOffset])
    have h1 := run_one ((step_cons (inRun r (List.replicate (n + 1) (.read 0x010) ++ more) s)
      (.read 0x010) _ rfl).trans h)
    have h2 := run_add 1 n (inRun r (List.replicate (n + 1) (.read 0x010) ++ more) s)
    rw [Nat.add_comm 1 n, h1] at h2
    rw [h2]
    show Sys2Proof.core.run n _ = _
    rw [ih]
    simp [List.replicate_succ]

theorem statusWord_busy (s : State) : s.statusWord.getLsbD 0 = s.busy := by
  have key : ∀ (i f c t g b : Bool) (d : BitVec 2),
      (0#24 ++ BitVec.ofBool i ++ d ++ BitVec.ofBool f ++ BitVec.ofBool c ++ BitVec.ofBool t
        ++ BitVec.ofBool g ++ BitVec.ofBool b
          : BitVec (24 + 1 + 2 + 1 + 1 + 1 + 1 + 1)).getLsbD 0 = b := by decide +kernel
  exact key s.irq s.encFlushed s.codesValid s.treeValid s.inFault s.busy s.decState.toBits

/-- The Engine's turn clears BUSY (R310). -/
theorem completed_busy {s : State} (he : s.errCode = .none) : s.completed.busy = false := by
  have hc := engineTurn_completed s
  rcases engineTurn_cases s with ⟨h, e⟩ | ⟨_, _, _, _, _, _, e⟩ | ⟨_, _, _, _, e⟩ <;>
    rw [Host.Outcome.next.inj (hc.symm.trans e)]
  · exact h.resolve_right (fun h => h he)
  · rfl
  · rfl

/-- R119: POLL reads STATUS until bit 0 is 0: every word but the last has bit 0 set, the last has
not, and with BUSY = 0 the first read is the last. BUSY with an error is reached by no run (log 8). -/
theorem poll_reads_until_not_busy (n : Nat) (s : State) (he : s.busy = true → s.errCode = .none) :
    ∃ t seen last, runEvents (HostOp.poll.events n s) s = .next t ∧
      t.rdata = s.rdata ++ seen ++ [last] ∧ (∀ w ∈ seen, w.getLsbD 0 = true) ∧
      last.getLsbD 0 = false ∧ seen.length = (if s.busy then n else 0) ∧ t.busy = false := by
  cases hb : s.busy with
  | false =>
    refine ⟨inRun (s.rdata ++ [s.statusWord]) [] s, [], s.statusWord, ?_, by simp [inRun], by simp,
      (statusWord_busy s).trans hb, rfl, hb⟩
    rw [HostOp.events, if_neg (by simp [hb])]
    exact statusReads_answer 1 s s.rdata []
  | true =>
    let w := s.statusWord
    let v := inRun (s.rdata ++ List.replicate n w) [.read 0x010] s
    let u := v.completed
    obtain ⟨_, _, _, _, _, ⟨hag, hrd, _⟩, _, _⟩ := engineTurn_frame (engineTurn_completed v)
    have hu : u.busy = false := completed_busy (he hb)
    have hturn : Sys2Proof.core.run 1
        (inRun (s.rdata ++ List.replicate n w) [.engine, .read 0x010] s) = .next u :=
      run_one ((step_cons (inRun (s.rdata ++ List.replicate n w) [.engine, .read 0x010] s)
        .engine [.read 0x010] rfl).trans (engineTurn_completed v))
    have hlast : Sys2Proof.core.run 1 u = .next (inRun (u.rdata ++ [u.statusWord]) [] u) := by
      have hag' : u.agenda = [.read 0x010] := hag
      have hself : inRun u.rdata [.read 0x010] u = u := by rw [← hag']; rfl
      have h : Sys2Proof.core.run 1 (inRun u.rdata [.read 0x010] u) = _ :=
        statusReads_answer 1 u u.rdata []
      rwa [hself] at h
    refine ⟨inRun (u.rdata ++ [u.statusWord]) [] u, List.replicate n w, u.statusWord, ?_, ?_, ?_,
      (statusWord_busy u).trans hu, by simp, hu⟩
    · rw [HostOp.events, if_pos hb, runEvents, List.length_append, List.length_replicate, run_add]
      rw [show ({ s with agenda := List.replicate n (.read 0x010) ++ [.engine, .read 0x010] }
        : State) = inRun s.rdata (List.replicate n (.read 0x010) ++ [.engine, .read 0x010]) s
          from rfl, statusReads_answer]
      show Sys2Proof.core.run (1 + 1) _ = _
      rw [run_add, hturn]
      exact hlast
    · show u.rdata ++ [u.statusWord] = _
      rw [show u.rdata = v.rdata from hrd]; rfl
    · intro x hx
      rw [(List.mem_replicate.mp hx).2]
      exact (statusWord_busy s).trans hb

/-! ### The table -/

theorem sreset_does : ListingDoes sresetOps State.reset State.reset :=
  write_does fun r _ => ⟨r, rfl⟩

/-- The state after reset with a frequency table loaded. -/
def tabled (F : Table Word) : State := { State.reset with freq := F }

theorem entry_foldl_put (l : List Byte) (t F : Table Word) (y : Byte) :
    entry (l.foldl (fun f x => put f x (entry t x)) F) y =
      if y ∈ l then entry t y else entry F y := by
  induction l generalizing F with
  | nil => simp
  | cons x l ih =>
    rw [List.foldl_cons, ih, entry_put]
    by_cases h : y = x
    · subst h; simp
    · simp [h]

theorem setFreq_list_does (l : List Byte) (t F : Table Word) :
    ListingDoes (l.flatMap fun x => setFreqOps x (entry t x)) (tabled F)
      (tabled (l.foldl (fun f x => put f x (entry t x)) F)) := by
  induction l generalizing F with
  | nil => exact .nil _
  | cons x l ih =>
    rw [List.flatMap_cons, List.foldl_cons]
    exact ListingDoes.append (write_does (freqWrite_does rfl rfl x (entry t x)))
      (ih (put F x (entry t x)))

/-- `LOADFREQ t` after a reset leaves the table `t` and nothing else (R120, R252). -/
theorem loadFreq_does (t : Table Word) : ListingDoes (loadFreqOps t) State.reset (tabled t) := by
  have h := setFreq_list_does symbols t (fill 0)
  have e : symbols.foldl (fun f x => put f x (entry t x)) (fill 0) = t := by
    apply table_ext; intro y; rw [entry_foldl_put]; simp
  rw [e] at h
  exact h

end Sys2Proof.Machine
end

