-- ==== Sys2Proof/Laws/Sequence.lean ====
section
/-! SUPPORT. The parts of the encode and the decode sequence (R320, R321): what building the codes,
writing the symbols, and reading the bytes do one after another, and the header (R96, R99). -/

namespace Sys2Proof.Machine

/-! ### The tree and the codes -/

/-- A block with the tree and the codes of a table, nothing written and nothing read. -/
structure Coded (t : State) (F : Table Word) (tree : CodeTree) : Prop where
  busy : t.busy = false
  err : t.errCode = .none
  treeValid : t.treeValid = true
  codesValid : t.codesValid = true
  freq : t.freq = F
  is : TreeIs t tree
  codes : CodesAre t tree
  encOut : t.encOut = []
  decOut : t.decOut = []

/-- The commands that both sequences give after the table. -/
def codesOps : List HostOp :=
  cmdOps .buildTree ++ [.r 0x010] ++ cmdOps .assignCodes ++ [.r 0x010]

theorem exec_assignCodes_stores {u : State} (ht : u.treeValid = true)
    (hd : tooDeep u.invalidateCodes.leafPaths = none) :
    exec .assignCodes u =
      .next (u.invalidateCodes.storeCodes u.invalidateCodes.leafPaths) := by
  show execAssignCodes u = _
  unfold execAssignCodes
  rw [if_neg (by simp [ht])]
  dsimp only
  rw [hd]

theorem exec_assignCodes_overflows {u : State} {x : Byte} (ht : u.treeValid = true)
    (hd : tooDeep u.invalidateCodes.leafPaths = some x) :
    exec .assignCodes u = .next (u.invalidateCodes.raise .codeLengthOverflow (x.setWidth 32)
      (BitVec.ofNat 32 (pathIn u.invalidateCodes.leafPaths x).length)) := by
  show execAssignCodes u = _
  unfold execAssignCodes
  rw [if_neg (by simp [ht])]
  dsimp only
  rw [hd]

/-- BUILD_TREE from a loaded table that it accepts. -/
theorem buildTree_does (F : Table Word) (hb : badSymbol F = none) (hn : leafSymbols F ≠ []) :
    ∃ T tree, ListingDoes (cmdOps .buildTree) (tabled F) T.finish ∧ TreeIs T tree ∧
      T.errCode = .none ∧ T.treeValid = true ∧ T.freq = F ∧ T.encOut = [] ∧ T.decOut = [] := by
  have hfl : (leafSymbols F).isEmpty = false := by simpa using hn
  let S := (tabled F).issue (encode .buildTree)
  let T := S.invalidateTree.storeTree (buildArena F).1 (buildArena F).2 (leafSymbols F).length
  have hdo : CommandDoes .buildTree S T := by
    intro r more
    show execBuildTree (inRun r more S) = _
    unfold execBuildTree
    dsimp only
    rw [show (inRun r more S).invalidateTree.freq = F from rfl, hb]
    dsimp only
    rw [hfl]
    rfl
  have hex : execBuildTree S = .next T := hdo [] []
  obtain ⟨tree, ht⟩ : ∃ tree, TreeIs T tree := by
    rcases execBuildTree_cases S with ⟨y, hy, e⟩ | ⟨_, hl, e⟩ | ⟨_, _, _, t, e, ht, _⟩
    · have := hb.symm.trans hy; cases this
    · exact absurd hl hn
    · obtain h := Host.Outcome.next.inj (hex.symm.trans e)
      exact ⟨t, by rw [h]; exact ht⟩
  exact ⟨T, tree, command_does rfl rfl rfl hdo, ht, rfl, rfl, rfl, rfl, rfl⟩

/-- BUILD_TREE and ASSIGN_CODES from a loaded table that BUILD_TREE accepts: valid codes, or FAULT
where a code would be too long. -/
theorem codesOps_do (F : Table Word) (hb : badSymbol F = none) (hn : leafSymbols F ≠ []) :
    ∃ tree t, ListingDoes codesOps (tabled F) t ∧
      (Coded t F tree ∨ (t.busy = false ∧ t.errCode ≠ .none)) := by
  obtain ⟨T, tree, h1, ht, he, htv, hf, ho, hdo⟩ := buildTree_does F hb hn
  let U := T.finish.issue (encode .assignCodes)
  have hU : TreeIs U.invalidateCodes tree :=
    treeIs_congr (s := T) (by rfl) (by rfl) (by rfl) (by rfl) (by rfl) ht
  have hl : ∀ r more, (inRun r more U).invalidateCodes.leafPaths = U.invalidateCodes.leafPaths :=
    fun r more => leafPaths_congr rfl rfl rfl
  cases hd : tooDeep U.invalidateCodes.leafPaths with
  | none =>
    let V := U.invalidateCodes.storeCodes U.invalidateCodes.leafPaths
    have hdo' : CommandDoes .assignCodes U V := by
      intro r more
      rw [exec_assignCodes_stores (u := inRun r more U) htv (by rw [hl]; exact hd), hl]; rfl
    have h2 : ListingDoes (cmdOps .assignCodes) T.finish V.finish := command_does rfl rfl he hdo'
    have hd' : ∀ x, (tree.path x).length ≤ Config.maxCodeLen := by
      intro x; rw [← hU.pathIn_leafPaths x]; exact (tooDeep_eq_none _).mp hd x
    have hc := storeCodes_codesAre hU hd'
    refine ⟨tree, V.finish, ((h1.append (readStatus_does _)).append h2).append (readStatus_does _),
      .inl ⟨rfl, he, htv, rfl, hf, ?_, ?_, ho, hdo⟩⟩
    · exact treeIs_congr (s := T) (by rfl) (by rfl) (by rfl) (by rfl) (by rfl) ht
    · exact ⟨hc.1, hc.2, hc.3, hc.4⟩
  | some x =>
    let V := U.invalidateCodes.raise .codeLengthOverflow (x.setWidth 32)
      (BitVec.ofNat 32 (pathIn U.invalidateCodes.leafPaths x).length)
    have hdo' : CommandDoes .assignCodes U V := by
      intro r more
      rw [exec_assignCodes_overflows (u := inRun r more U) htv (by rw [hl]; exact hd), hl]; rfl
    have h2 : ListingDoes (cmdOps .assignCodes) T.finish V.finish := command_does rfl rfl he hdo'
    refine ⟨tree, V.finish, ((h1.append (readStatus_does _)).append h2).append (readStatus_does _),
      .inr ⟨rfl, ?_⟩⟩
    show ErrCode.codeLengthOverflow ≠ .none
    simp

/-! ### Writing -/

theorem inRun_writeBits (r : List Word) (a : List Event) (bits : List Bool) (s : State) :
    (inRun r a s).writeBits bits = inRun r a (s.writeBits bits) := by
  induction bits generalizing s with
  | nil => rfl
  | cons b bits ih =>
    rw [State.writeBits_cons, State.writeBits_cons, ← ih]
    congr 1
    unfold State.writeBit inRun; dsimp only; split <;> rfl

/-- A block that is writing: its stream so far is `bits`. -/
structure Writing (s : State) (tree : CodeTree) (bits : List Bool) : Prop where
  busy : s.busy = false
  err : s.errCode = .none
  codesValid : s.codesValid = true
  codes : CodesAre s tree
  unflushed : s.encFlushed = false
  ok : WriterOk s
  stream : s.encStream = bits

theorem encStart_does {t : State} {F : Table Word} {tree : CodeTree} (h : Coded t F tree) :
    ∃ s, ListingDoes (cmdOps .encStart) t s ∧ Writing s tree [] := by
  let u : State := { t.issue (encode .encStart) with
    acc := 0, accN := 0, encBits := 0, encFlushed := false }
  have hdo : CommandDoes .encStart (t.issue (encode .encStart)) u := fun r more => rfl
  refine ⟨u.finish, command_does rfl h.busy h.err hdo, rfl, h.err, h.codesValid,
    ⟨h.codes.1, h.codes.2, h.codes.3, h.codes.4⟩, rfl, by simp [WriterOk, State.finish, u], ?_⟩
  simp [State.encStream, State.accBits, State.finish, State.issue, h.encOut, u]

theorem encSym_does {s : State} {tree : CodeTree} {bits : List Bool} (h : Writing s tree bits)
    (x : Byte) (hx : tree.path x ≠ []) :
    ∃ t, ListingDoes (cmdOps (.encSym x)) s t ∧ Writing t tree (bits ++ tree.path x) := by
  let S := s.issue (encode (.encSym x))
  let T := S.writeBits (S.symbolBits x)
  have hl : entry s.len x ≠ 0 := by
    intro h0
    have := h.codes.len_toNat x
    rw [h0] at this
    exact hx (List.eq_nil_of_length_eq_zero this.symm)
  have hdo : CommandDoes (.encSym x) S T := by
    intro r more
    have h1 : (inRun r more S).codesValid = true := h.codesValid
    have h2 : (inRun r more S).encFlushed = false := h.unflushed
    show execEncSym x (inRun r more S) = _
    unfold execEncSym
    rw [if_neg (by rw [h1]; simp), if_neg (by rw [h2]; simp),
      if_neg (show ¬ entry (inRun r more S).len x = 0 from hl), ← inRun_writeBits]
    rfl
  obtain ⟨w1, w2⟩ := State.writeBits_stream S (S.symbolBits x) h.ok
  obtain ⟨a, n, o, e⟩ := State.writeBits_frame S (S.symbolBits x)
  refine ⟨T.finish, command_does rfl h.busy h.err hdo, rfl, ?_, ?_, ?_, ?_, w1, ?_⟩
  · show T.errCode = _; rw [show T = _ from e]; exact h.err
  · show T.codesValid = _; rw [show T = _ from e]; exact h.codesValid
  · have : CodesAre T tree := by
      rw [show T = _ from e]; exact ⟨h.codes.1, h.codes.2, h.codes.3, h.codes.4⟩
    exact ⟨this.1, this.2, this.3, this.4⟩
  · show T.encFlushed = _; rw [show T = _ from e]; exact h.unflushed
  · show T.encStream = _
    rw [w2, show S.encStream = s.encStream from rfl, h.stream,
      show S.symbolBits x = s.symbolBits x from rfl, h.codes.symbolBits]

theorem encodeOps_do {tree : CodeTree} (xs : List Byte) (hx : ∀ x ∈ xs, tree.path x ≠ [])
    {s : State} {bits : List Bool} (h : Writing s tree bits) :
    ∃ t, ListingDoes (encodeOps xs) s t ∧ Writing t tree (bits ++ xs.flatMap tree.path) := by
  induction xs generalizing s bits with
  | nil => exact ⟨s, .nil s, by simpa using h⟩
  | cons x xs ih =>
    obtain ⟨u, h1, h2⟩ := encSym_does h x (hx x (by simp))
    obtain ⟨t, h3, h4⟩ := ih (fun y hy => hx y (by simp [hy])) h2
    exact ⟨t, h1.append h3, by rw [List.flatMap_cons, ← List.append_assoc]; exact h4⟩

/-- The byte that FLUSH emits: the bits of the accumulator and then zeros (R201). -/
theorem byteBits_padded (acc : Byte) (n : Nat) (h0 : 1 ≤ n) (h7 : n ≤ 7) :
    byteBits (acc <<< (8 - n)) =
      ((List.range n).map fun i => acc.getLsbD (n - 1 - i)) ++ List.replicate (8 - n) false := by
  apply List.ext_getElem
  · simp [byteBits]; omega
  · intro i h1 h2
    simp [byteBits] at h1 ⊢
    rw [List.getElem_append]
    split
    · rename_i hi
      simp at hi
      simp [show 7 - i < 8 by omega, show ¬ 7 - i < 8 - n by omega]
      congr 1; omega
    · rename_i hi; simp at hi; simp; intro h; omega

theorem flush_does {s : State} {tree : CodeTree} {bits : List Bool} (h : Writing s tree bits) :
    ∃ t pad, ListingDoes (cmdOps .flush) s t ∧ t.errCode = .none ∧ pad < 8 ∧
      t.encOut.flatMap byteBits = bits ++ List.replicate pad false := by
  let S := s.issue (encode .flush)
  have hdo : CommandDoes .flush S { S.drain with encFlushed := true } := by
    intro r more
    have h2 : (inRun r more S).encFlushed = false := h.unflushed
    show execFlush (inRun r more S) = _
    unfold execFlush
    rw [if_neg (by rw [h2]; simp)]
    unfold State.drain inRun; dsimp only; split <;> rfl
  have hr := command_does (i := .flush) rfl h.busy h.err hdo
  have hstream : S.encStream = bits := h.stream
  have hok : WriterOk S := h.ok
  rcases drain_cases S with ⟨h0, e⟩ | ⟨h0, e⟩ <;> rw [e] at hr
  · refine ⟨_, 0, hr, h.err, by omega, ?_⟩
    rw [← hstream]
    simp [State.finish, State.encStream, State.accBits, h0]
  · have hn : S.accN.toNat ≠ 0 := fun h' => h0 (by apply BitVec.eq_of_toNat_eq; simpa using h')
    refine ⟨_, 8 - S.accN.toNat, hr, h.err, by omega, ?_⟩
    have := hok.1
    rw [← hstream]
    simp only [State.finish, State.encStream, State.accBits, List.flatMap_append,
      List.append_assoc]
    congr 1
    simp [State.paddedAcc, byteBits_padded S.acc _ (by omega) this]

/-- In FAULT the rest of the encode sequence does nothing. -/
theorem encode_in_fault_does {s : State} (hb : s.busy = false) (he : s.errCode ≠ .none)
    (xs : List Byte) :
    ListingDoes (cmdOps .encStart ++ encodeOps xs ++ cmdOps .flush ++ [.r 0x010]) s s := by
  have h : ListingDoes (encodeOps xs) s s := by
    unfold encodeOps
    induction xs with
    | nil => exact .nil _
    | cons x xs ih => rw [List.flatMap_cons]; exact (command_in_fault_does _ hb he).append ih
  exact (((command_in_fault_does _ hb he).append h).append
    (command_in_fault_does _ hb he)).append (readStatus_does s)

/-! ### Reading -/

/-- The state inside DEC_BYTE: the fields that no decode step reads are these. -/
def inByte (c p : Word) (b : Bool) (n : Count) (r : List Word) (a : List Event) (s : State) :
    State :=
  { s with cmd := c, pendCmd := p, busy := b, decBytes := n, rdata := r, agenda := a }

theorem inByte_decodeBit {c p b n r a} {s t : State} {bit : Bool} (h : s.decodeBit bit = .ok t) :
    (inByte c p b n r a s).decodeBit bit = .ok (inByte c p b n r a t) := by
  rcases s.decodeBit_cases bit with ⟨_, e⟩ | ⟨g, g', e⟩ | ⟨g, g', e⟩
  · rw [e] at h; cases h
  all_goals
    rw [e] at h
    obtain rfl := Except.ok.inj h
    rcases (inByte c p b n r a s).decodeBit_cases bit with ⟨k, _⟩ | ⟨_, k, e'⟩ | ⟨_, k, e'⟩
    · exact absurd k g
    · first | (rw [e']; rfl) | (have := g'.symm.trans k; cases this)
    · first | (rw [e']; rfl) | (have := g'.symm.trans k; cases this)

theorem inByte_decodeBits {c p b n r a} (bits : List Bool) {s t : State}
    (h : s.decodeBits bits = .ok t) :
    (inByte c p b n r a s).decodeBits bits = .ok (inByte c p b n r a t) := by
  induction bits generalizing s with
  | nil => obtain rfl := Except.ok.inj h; rfl
  | cons bit bits ih =>
    cases hb : s.decodeBit bit with
    | error e => rw [State.decodeBits_cons_error hb] at h; cases h
    | ok u =>
      rw [State.decodeBits_cons_ok hb] at h
      rw [State.decodeBits_cons_ok (inByte_decodeBit hb)]
      exact ih h

theorem inByte_checkBudget (c p : Word) (n : Count) (r : List Word) (a : List Event) (u : State) :
    (inByte c p false n r a u).checkBudget.finish =
      (inByte c p true n r a u).checkBudget.finish := by
  unfold State.checkBudget
  show (if u.decRemain = 0 then _ else _ : State).finish =
    (if u.decRemain = 0 then _ else _ : State).finish
  split
  · show (if u.decPos = u.root then _ else _ : State).finish =
      (if u.decPos = u.root then _ else _ : State).finish
    split <;> rfl
  · rfl

theorem inRun_checkBudget (c p : Word) (n : Count) (r r' : List Word) (a a' : List Event)
    (u : State) : (inByte c p true n r' a' u).checkBudget =
      inRun r' a' (inByte c p true n r a u).checkBudget := by
  unfold State.checkBudget
  show (if u.decRemain = 0 then _ else _) = inRun r' a' (if u.decRemain = 0 then _ else _)
  split
  · show (if u.decPos = u.root then _ else _) = inRun r' a' (if u.decPos = u.root then _ else _)
    split <;> rfl
  · rfl

theorem decodeBits_append_split (x : List Bool) {y : List Bool} {s t : State}
    (h : s.decodeBits (x ++ y) = .ok t) :
    ∃ u, s.decodeBits x = .ok u ∧ u.decodeBits y = .ok t := by
  induction x generalizing s with
  | nil => exact ⟨s, rfl, h⟩
  | cons b x ih =>
    cases hb : s.decodeBit b with
    | error e => rw [List.cons_append, State.decodeBits_cons_error hb] at h; cases h
    | ok u =>
      rw [List.cons_append, State.decodeBits_cons_ok hb] at h
      obtain ⟨w, h1, h2⟩ := ih h
      exact ⟨w, by rw [State.decodeBits_cons_ok hb]; exact h1, h2⟩

theorem byteBits_length (v : Byte) : (byteBits v).length = 8 := by simp [byteBits]

theorem flatMap_byteBits_length (l : List Byte) : (l.flatMap byteBits).length = 8 * l.length := by
  induction l with
  | nil => rfl
  | cons a l ih =>
    rw [List.flatMap_cons, List.length_append, byteBits_length, List.length_cons, ih]; omega

theorem decStart_does {t : State} {F : Table Word} {tree : CodeTree} (hc : Coded t F tree)
    (hpos : 1 ≤ t.totalBits.toNat) :
    ∃ D, ListingDoes (cmdOps .decStart) t D ∧ D.busy = false ∧ D.errCode = .none ∧
      D.decState = .active ∧ D.decPos = D.root ∧ D.freq = F ∧ D.decRemain = t.totalBits ∧
      D.decOut = [] ∧ D.decExtra = 0 ∧ TreeIs D tree := by
  let S := t.issue (encode .decStart)
  let D : State := { S with decRemain := S.totalBits, decPos := S.root, decBytes := 0,
                            decExtra := 0, decSyms := 0, decState := .active }
  have hnz : t.totalBits ≠ 0 := by intro h; rw [h] at hpos; simp at hpos
  have hdo : CommandDoes .decStart S D := by
    intro r more
    have h1 : (inRun r more S).treeValid = true := hc.treeValid
    have h2 : (inRun r more S).codesValid = true := hc.codesValid
    show execDecStart (inRun r more S) = _
    unfold execDecStart
    rw [if_neg (by rw [h1, h2]; simp), if_neg (show ¬ (inRun r more S).totalBits = 0 from hnz)]
    rfl
  exact ⟨D.finish, command_does (i := .decStart) rfl hc.busy hc.err hdo, rfl, hc.err, rfl, rfl,
    hc.freq, rfl, hc.decOut, rfl,
    treeIs_congr (s := t) (by rfl) (by rfl) (by rfl) (by rfl) (by rfl) hc.is⟩

/-- DEC_BYTE whose meaningful bits decode: the check of the budget follows. -/
theorem decByte_does {s u : State} (hb : s.busy = false) (he : s.errCode = .none)
    (ha : s.decState = .active) (v : Byte) (h : s.decodeBits (s.meaningfulBits v) = .ok u) :
    ∃ c p n r a, ListingDoes (cmdOps (.decByte v)) s
      (inByte c p false n r a u).checkBudget.finish := by
  let w := encode (.decByte v)
  let n := s.decBytes + 1
  have hdo : CommandDoes (.decByte v) (s.issue w)
      (inByte w w true n s.rdata s.agenda u).checkBudget := by
    intro r more
    rcases execDecByte_cases (inRun r more (s.issue w)) v with ⟨h', e⟩ | ⟨h', e⟩ | ⟨h', e⟩
    · have := h'.symm.trans ha; cases this
    · refine e.trans ?_
      have hd : (inRun r more (s.issue w)).countByte.decodeBits (s.meaningfulBits v) =
          .ok (inByte w w true n r more u) := inByte_decodeBits (s := s) _ h
      unfold State.decodeByte
      rw [show (inRun r more (s.issue w)).countByte.meaningfulBits v = s.meaningfulBits v from rfl,
        hd]
      dsimp only
      rw [inRun_checkBudget w w n s.rdata r s.agenda more u]
    · have := h'.symm.trans ha; cases this
  refine ⟨w, w, n, s.rdata, s.agenda, ?_⟩
  rw [inByte_checkBudget]
  exact command_does (i := .decByte v) rfl hb he hdo

/-- Bytes whose bits, as many as the budget, decode to a state at the root end the decode in
DONE. -/
theorem decodeOps_do (vs : List Byte) : ∀ (s t : State), s.busy = false → s.errCode = .none →
    s.decState = .active → vs ≠ [] → 8 * (vs.length - 1) < s.decRemain.toNat →
    s.decRemain.toNat ≤ 8 * vs.length →
    s.decodeBits ((vs.flatMap byteBits).take s.decRemain.toNat) = .ok t → t.decPos = t.root →
    ∃ u, ListingDoes (decodeOps vs) s u ∧ u.busy = false ∧ u.errCode = .none ∧
      u.decState = .done ∧ u.decExtra = s.decExtra ∧ u.decOut = t.decOut := by
  induction vs with
  | nil => intro s t _ _ _ h; exact absurd rfl h
  | cons v vs ih =>
    intro s t hb he ha _ h1 h2 hd hpos
    rw [List.flatMap_cons, List.take_append, byteBits_length] at hd
    obtain ⟨u, hu, hrest⟩ := decodeBits_append_split _ hd
    have hm : s.meaningfulBits v = (byteBits v).take s.decRemain.toNat := rfl
    rw [← hm] at hu
    obtain ⟨f, ⟨e1, _⟩, hr⟩ := State.decodeBits_ok hu
    have hlen : (s.meaningfulBits v).length = min s.decRemain.toNat 8 := by
      rw [hm, List.length_take, byteBits_length]
    have hrn : u.decRemain.toNat = s.decRemain.toNat - 8 := by
      rw [hr, hlen]
      have := s.decRemain.isLt
      simp [BitVec.toNat_sub]; omega
    obtain ⟨c, p, n, r, a, hrun⟩ := decByte_does hb he ha v hu
    have ops : decodeOps (v :: vs) = cmdOps (.decByte v) ++ decodeOps vs := rfl
    cases vs with
    | nil =>
      have hz : u.decRemain = 0 := by
        apply BitVec.eq_of_toNat_eq; simp at h2; rw [hrn]; simp; omega
      have : t = u := by simp at hrest; exact hrest.symm
      subst this
      refine ⟨_, by rw [ops]; exact hrun.append (.nil _), rfl, ?_⟩
      rcases checkBudget_cases (inByte c p false n r a t) with ⟨k, e⟩ | ⟨_, _, e⟩ | ⟨_, k, e⟩
      · exact absurd hz k
      · rw [e]; exact ⟨e1.trans he, rfl, f.extra, rfl⟩
      · exact absurd hpos k
    | cons v' vs =>
      have hnz : u.decRemain ≠ 0 := by intro h; rw [h] at hrn; simp at hrn h1; omega
      rcases checkBudget_cases (inByte c p false n r a u) with ⟨k, e⟩ | ⟨k, _, e⟩ | ⟨k, _, e⟩
      · rw [e] at hrun
        have hd' : (inByte c p false n r a u).finish.decodeBits
            (((v' :: vs).flatMap byteBits).take (inByte c p false n r a u).finish.decRemain.toNat) =
              .ok (inByte c p false n r a t) := by
          rw [show (inByte c p false n r a u).finish.decRemain = u.decRemain from rfl, hrn]
          exact inByte_decodeBits (s := u) _ hrest
        obtain ⟨w, g1, g2, g3, g4, g5, g6⟩ := ih (inByte c p false n r a u).finish
          (inByte c p false n r a t) rfl (e1.trans he) (f.state.trans ha) (by simp)
          (by show _ < u.decRemain.toNat; rw [hrn]; simp at h1 ⊢; omega)
          (by show u.decRemain.toNat ≤ _; rw [hrn]; simp at h2 ⊢; omega) hd' hpos
        exact ⟨w, by rw [ops]; exact hrun.append g1, g2, g3, g4, g5.trans f.extra, g6⟩
      · exact absurd k hnz
      · exact absurd k hnz

/-- Decoding the codes of a string from the root gives the string and ends at the root. -/
theorem decodeBits_paths {s : State} {tree : CodeTree} (xs : List Byte)
    (hx : ∀ x ∈ xs, entry s.freq x ≠ 0) (ht : TreeIs s tree) (hp : s.decPos = s.root) :
    s.decodeBits (xs.flatMap tree.path) = .ok { s with
      decRemain := s.decRemain - BitVec.ofNat 64 (xs.flatMap tree.path).length,
      decOut := s.decOut ++ xs, decSyms := s.decSyms + BitVec.ofNat 64 xs.length } := by
  induction xs generalizing s with
  | nil => simp
  | cons x xs ih =>
    have h1 := decodeBits_path (CodeTree.isInner_of_isWhole ht.whole)
      (by rw [hp]; exact ht.spells) (ht.mem_paths (hx x (by simp)))
    rw [List.flatMap_cons, State.decodeBits_append_ok h1, ih]
    · have n1 : s.decRemain - BitVec.ofNat 64 (tree.path x).length -
          BitVec.ofNat 64 (xs.flatMap tree.path).length =
            s.decRemain - BitVec.ofNat 64 (tree.path x ++ xs.flatMap tree.path).length := by
        rw [List.length_append, BitVec.ofNat_add]
        simp only [BitVec.sub_eq_add_neg, BitVec.neg_add, BitVec.add_assoc]
      have n2 : s.decSyms + 1 + BitVec.ofNat 64 xs.length =
          s.decSyms + BitVec.ofNat 64 (x :: xs).length := by
        rw [List.length_cons, BitVec.ofNat_add, BitVec.add_assoc, BitVec.add_comm 1]; rfl
      simp only [n1, n2, hp, List.append_assoc, List.singleton_append]
    · intro y hy; exact hx y (by simp [hy])
    · exact treeIs_congr (s := s) (by rfl) (by rfl) (by rfl) (by rfl) (by rfl) ht
    · rfl

/-! ### Lengths -/

theorem sum_ite (y : Byte) (g : Byte → Nat) (l : List Byte) (hn : l.Nodup) :
    (l.map fun x => if y = x then g x else 0).sum = if y ∈ l then g y else 0 := by
  induction l with
  | nil => simp
  | cons x l ih =>
    simp only [List.nodup_cons] at hn
    rw [List.map_cons, List.sum_cons, ih hn.2]
    by_cases h : y = x
    · subst h; simp [hn.1]
    · simp [h]

/-- A sum over a string is the sum over the symbols of count times value (R176, R320). -/
theorem sum_counts (g : Byte → Nat) (xs : List Byte) :
    (xs.map g).sum = (symbols.map fun x => xs.count x * g x).sum := by
  induction xs with
  | nil =>
    have : ∀ l : List Byte, (l.map fun x => ([] : List Byte).count x * g x).sum = 0 := by
      intro l; induction l with
      | nil => rfl
      | cons a l ih => rw [List.map_cons, List.sum_cons, ih]; simp
    exact (this symbols).symm
  | cons y xs ih =>
    rw [List.map_cons, List.sum_cons, ih]
    have : (fun x => (y :: xs).count x * g x) =
        fun x => (if y = x then g x else 0) + xs.count x * g x := by
      funext x
      rw [List.count_cons]
      by_cases h : y = x
      · simp [h, Nat.add_mul, Nat.add_comm]
      · simp [h]
    rw [this, List.sum_map_add, sum_ite _ _ _ symbols_nodup, if_pos (mem_symbols y)]

/-! ### The header -/

theorem headerEntryBytes_length (n : Word) : (headerEntryBytes n).length = 4 := by
  simp [headerEntryBytes]

theorem flatMap_headerEntryBytes_length (F : Table Word) (l : List Byte) :
    (l.flatMap fun x => headerEntryBytes (entry F x)).length = 4 * l.length := by
  induction l with
  | nil => rfl
  | cons a l ih =>
    rw [List.flatMap_cons, List.length_append, ih, headerEntryBytes_length, List.length_cons]
    omega

theorem headerBytes_length (F : Table Word) : (headerBytes F).length = 1024 := by
  unfold headerBytes
  rw [flatMap_headerEntryBytes_length, symbols_length]

theorem getD_flatMap_headerEntryBytes (F : Table Word) (l : List Byte) (i : Nat)
    (hi : i < l.length) (k : Nat) (hk : k < 4) :
    (l.flatMap fun x => headerEntryBytes (entry F x)).getD (4 * i + k) 0 =
      (entry F l[i]).extractLsb' (8 * k) 8 := by
  induction l generalizing i with
  | nil => simp at hi
  | cons a l ih =>
    rw [List.flatMap_cons, List.getD_eq_getElem?_getD, List.getElem?_append]
    have h4 := headerEntryBytes_length (entry F a)
    cases i with
    | zero =>
      rw [if_pos (by omega)]
      simp [headerEntryBytes, hk]
    | succ i =>
      rw [if_neg (by omega), h4, show 4 * (i + 1) + k - 4 = 4 * i + k by omega,
        ← List.getD_eq_getElem?_getD, ih i (by simpa using hi)]
      rfl

/-- A header entry is read back as it was written (R96, R99). -/
theorem headerEntry_headerBytes (F : Table Word) (out : List Byte) (x : Byte) :
    headerEntry (headerBytes F ++ out) x = entry F x := by
  have hx := x.isLt
  have hg : ∀ k, k < 4 →
      (headerBytes F ++ out).getD (4 * x.toNat + k) 0 = (entry F x).extractLsb' (8 * k) 8 := by
    intro k hk
    rw [List.getD_append _ _ _ _ (by rw [headerBytes_length]; omega)]
    unfold headerBytes
    rw [getD_flatMap_headerEntryBytes F symbols x.toNat (by rw [symbols_length]; omega) k hk,
      symbols_getElem]
    simp
  unfold headerEntry
  simp only [hg 3 (by omega), hg 2 (by omega), hg 1 (by omega)]
  have h0 := hg 0 (by omega)
  simp only [Nat.add_zero] at h0
  simp only [Nat.add_zero, h0]
  ext i hi
  simp only [BitVec.getElem_append, BitVec.getElem_extractLsb']
  split
  · rw [BitVec.getLsbD_eq_getElem (by omega)]; simp
  · split
    · rw [BitVec.getLsbD_eq_getElem (by omega)]; congr 1; omega
    · split
      · rw [BitVec.getLsbD_eq_getElem (by omega)]; congr 1; omega
      · rw [BitVec.getLsbD_eq_getElem (by omega)]; congr 1; omega

theorem drop_headerBytes (F : Table Word) (out : List Byte) :
    (headerBytes F ++ out).drop 1024 = out := List.drop_left' (headerBytes_length F)

end Sys2Proof.Machine
end

