-- ==== Sys2Proof/Tests/Slice0.lean ====
section
/-! SUPPORT. Checks of the model against the words of spec/30_encoding.md and the values of
spec/95_test_vectors.md (the vector's id stands before each), and a witness for the hypotheses of
every obligation that has some. -/

open Sys2Proof Sys2Proof.Machine

namespace Sys2Proof.Tests

/-! ### Terms that no word stands for, and words that are no command (R113, R115) -/

theorem test_wf_refuses_wrCode_33 : (Instr.wrCode 33).wellFormed = false := by decide

theorem test_wf_refuses_wrCode_255 : (Instr.wrCode 255).wellFormed = false := by decide

theorem test_wf_admits_wrCode_32 : (Instr.wrCode 32).wellFormed = true := by decide

/-- W5. -/
theorem test_reject_wrCode_33 : decode 0x00002106 = .error .lengthOutOfRange := by decide

/-- W11. -/
theorem test_reject_wrBit_2 : decode 0x00000205 = .error .bitOutOfRange := by decide

/-- X4, X5. -/
theorem test_reject_operand :
    decode 0x00000100 = .error .operandNotZero ∧ decode 0x00000201 = .error .operandNotZero := by
  decide

/-- X1, X3. -/
theorem test_reject_opcode :
    decode 0x0000000C = .error .reservedOpcode ∧ decode 0x000000FF = .error .reservedOpcode := by
  decide

/-- X2. -/
theorem test_reject_reserved_bits : decode 0x00010001 = .error .reservedBitsSet := by decide

/-! ### Each command from its word, written out as R (16 bits), A (8 bits), OP (8 bits) (R110,
R112) -/

theorem test_decode_nop : decode (0b0000000000000000_00000000_00000000) = .ok .nop := by decide
theorem test_decode_buildTree :
    decode (0b0000000000000000_00000000_00000001) = .ok .buildTree := by decide
theorem test_decode_assignCodes :
    decode (0b0000000000000000_00000000_00000010) = .ok .assignCodes := by decide
theorem test_decode_encStart :
    decode (0b0000000000000000_00000000_00000011) = .ok .encStart := by decide
theorem test_decode_encSym :
    decode (0b0000000000000000_01100010_00000100) = .ok (.encSym 0x62) := by decide
theorem test_decode_wrBit :
    decode (0b0000000000000000_00000001_00000101) = .ok (.wrBit true) ∧
      decode (0b0000000000000000_00000000_00000101) = .ok (.wrBit false) := by decide
theorem test_decode_wrCode :
    decode (0b0000000000000000_00100000_00000110) = .ok (.wrCode 32) ∧
      decode (0b0000000000000000_00000000_00000110) = .ok (.wrCode 0) := by decide
theorem test_decode_flush :
    decode (0b0000000000000000_00000000_00000111) = .ok .flush := by decide
theorem test_decode_decStart :
    decode (0b0000000000000000_00000000_00001000) = .ok .decStart := by decide
theorem test_decode_decByte :
    decode (0b0000000000000000_10101010_00001001) = .ok (.decByte 0xAA) := by decide
theorem test_decode_decEnd :
    decode (0b0000000000000000_00000000_00001010) = .ok .decEnd := by decide
theorem test_decode_clearFreq :
    decode (0b0000000000000000_00000000_00001011) = .ok .clearFreq := by decide

theorem test_table_word : decodeTableWord 32 0x6204 = some (.encSym 0x62) := by decide
theorem test_table_word_refused : decodeTableWord 32 0x205 = none := by decide

/-! ### Small states -/

/-- The state a command leaves. -/
def after (i : Instr) (s : State) : State :=
  match exec i s with
  | .next t => t
  | _ => s

/-- Reset, and then some frequencies. -/
def counted (l : List (Byte × Word)) : State :=
  { State.reset with freq := l.foldl (fun t e => put t e.1 e.2) (fill 0) }

/-- ... and BUILD_TREE. -/
def built (l : List (Byte × Word)) : State := after .buildTree (counted l)

/-- ... and ASSIGN_CODES. -/
def coded (l : List (Byte × Word)) : State := after .assignCodes (built l)

/-- The tree of {1:1, 2:1} with its codes, written out by R140 and R170: symbol 1 is 0, symbol 2 is
1. -/
def pair : State :=
  { counted [(1, 1), (2, 1)] with
    treeValid := true, root := 2, nodeCount := 3, leafCount := 2,
    nodes := [⟨.leaf, 1, 1, 0x1FF, 0x1FF⟩, ⟨.leaf, 2, 1, 0x1FF, 0x1FF⟩, ⟨.internal, 0, 2, 0, 1⟩],
    codesValid := true, totalBits := 2, code := put (fill 0) 2 1,
    len := put (put (fill 0) 1 1) 2 1 }

/-- `pair` after DEC_START (R221). -/
def reading : State := { pair with decState := .active, decRemain := 2, decPos := 2 }

/-- The one-symbol tree of V2, {'A':3}, reading, written out by R147. -/
def lone : State :=
  { counted [(0x41, 3)] with
    treeValid := true, root := 1, nodeCount := 2, leafCount := 1,
    nodes := [⟨.leaf, 0x41, 3, 0x1FF, 0x1FF⟩, ⟨.internal, 0, 3, 0, 0x1FF⟩],
    codesValid := true, totalBits := 3, len := put (fill 0) 0x41 1,
    decState := .active, decRemain := 3, decPos := 1 }

/-- A state in FAULT. -/
def failed : State := { State.reset with errCode := .badCommand, errCmd := 0x0C }

/-- A state with the command word `w` pending. -/
def pending (w : Word) : State := State.reset.issue w

/-! ### One step of each command -/

theorem test_nop : exec .nop pair = .next pair := by rfl

/-- V1: a tie between leaf e and node 5, and the order of the children. -/
theorem test_buildTree :
    (built [(0x61, 5), (0x62, 3), (0x63, 1), (0x65, 4), (0x66, 6)]).nodes.drop 5 =
      [⟨.internal, 0, 4, 2, 1⟩, ⟨.internal, 0, 8, 3, 5⟩, ⟨.internal, 0, 11, 0, 4⟩,
       ⟨.internal, 0, 19, 6, 7⟩] := by decide +kernel

/-- V7: the smallest symbol with bit 31 set, before anything else. -/
theorem test_buildTree_bad :
    (built [(1, 3), (5, 0x80000000), (9, 0xFFFFFFFF)]).errCode = .badFrequency ∧
      (built [(1, 3), (5, 0x80000000), (9, 0xFFFFFFFF)]).errInfo0 = 5 := by decide +kernel

/-- V4: the leftover leaf is on the left. -/
theorem test_assignCodes :
    (coded [(0x41, 1), (0x42, 1), (0x43, 2)]).totalBits = 6 ∧
      entry (coded [(0x41, 1), (0x42, 1), (0x43, 2)]).code 0x42 = 3 := by decide +kernel

/-- V11. -/
theorem test_assignCodes_not_ready : (after .assignCodes State.reset).errCode = .notReady := by
  decide

/-- W14. -/
theorem test_encStart :
    (after .encStart (after .flush State.reset)).encFlushed = false := by decide

/-- W16, on `pair`: the symbol's bit, most significant first. -/
theorem test_encSym : (after (.encSym 2) pair).acc = 1 ∧ (after (.encSym 2) pair).accN = 1 := by
  decide +kernel

/-- W8. -/
theorem test_encSym_no_code :
    (after (.encSym 3) pair).errCode = .noCode ∧ (after (.encSym 3) pair).errInfo0 = 3 := by
  decide +kernel

/-- W1: 1, 0, 1. -/
theorem test_wrBit :
    (after (.wrBit true) (after (.wrBit false) (after (.wrBit true) State.reset))).acc = 5 := by
  decide

/-- W2: the eighth bit emits the byte. -/
theorem test_wrBit_eighth :
    (after (.wrBit true) { State.reset with acc := 0x7F, accN := 7 }).encOut = [0xFF] := by decide

/-- W3. -/
theorem test_wrCode_32 :
    (after (.wrCode 32) { State.reset with cmdArg := 0xDEADBEEF }).encOut =
      [0xDE, 0xAD, 0xBE, 0xEF] := by decide +kernel

/-- W6: bits above L are ignored. -/
theorem test_wrCode_4 :
    (after (.wrCode 4) { State.reset with cmdArg := 0xFFFFFFF5 }).acc = 5 := by decide

/-- W1f: five padding zeros. -/
theorem test_flush :
    (after .flush { State.reset with acc := 5, accN := 3 }).encOut = [0xA0] := by decide

/-- W7. -/
theorem test_flush_twice :
    (after .flush (after .flush State.reset)).errCode = .writeAfterFlush := by decide

/-- RD3: DEC_REMAIN and DEC_POS. -/
theorem test_decStart :
    (after .decStart { lone with decPos := 0, decState := .off }).decPos = 1 ∧
      (after .decStart { lone with decPos := 0, decState := .off }).decState = .active := by
  decide +kernel

/-- RD3: three bits decoded, five ignored. -/
theorem test_decByte :
    (after (.decByte 0x1F) lone).decOut = [0x41, 0x41, 0x41] ∧
      (after (.decByte 0x1F) lone).decState = .done := by decide +kernel

/-- RD4: the missing child, after one bit. -/
theorem test_decByte_missing :
    (after (.decByte 0x80) lone).errInfo0 = 1 ∧ (after (.decByte 0x80) lone).decRemain = 2 := by
  decide +kernel

/-- RD2, on `lone`: bytes consumed, bits expected. -/
theorem test_decEnd :
    (after .decEnd { lone with decBytes := 5 }).errInfo0 = 5 ∧
      (after .decEnd { lone with decBytes := 5 }).errInfo1 = 3 := by decide +kernel

/-- V11: the frequencies and the tree are gone. -/
theorem test_clearFreq :
    entry (after .clearFreq pair).freq 1 = 0 ∧ (after .clearFreq pair).root = 0x1FF := by
  decide +kernel

/-! ### Host accesses -/

/-- X14, X15, V1's DESC of an internal node and WEIGHT of the root. -/
theorem test_reads :
    State.reset.register 0x03C0 = 0 ∧ State.reset.register 0x008 = 0x01FF2820 ∧
      pair.register 0x2020 = 0x80040000 ∧ pair.register 0x2024 = 2 := by decide +kernel

/-- STATUS of RD1 and X9. -/
theorem test_status :
    reading.statusWord = 0x2C ∧ { failed with irqEn := true }.statusWord = 0x82 := by decide +kernel

/-- X12: Overrun by a write to FREQ[3]. -/
theorem test_overrun :
    ((pending 1).overrun 0x40C 9).errCode = .overrun ∧
      ((pending 1).overrun 0x40C 9).errInfo0 = 0x40C := by decide +kernel

/-- R72: the block does not decode 0x4000, even while BUSY. -/
theorem test_outside_write :
    hostWrite 0x4000 0xF 1 (pending 0) = .next (pending 0) := by rfl

/-- P2: in FAULT `CMD DEC_END` is ignored and its POLL ends at once: one read, of STATUS with BUSY
clear and ERR set. -/
theorem test_poll_in_fault :
    (match runListing (fun _ => 3) (cmdOps .decEnd) failed with
      | .next t => decide (t.rdata = [0x02] ∧ t.busy = false)
      | _ => false) = true := by decide +kernel

/-- POLL of a pending NOP with two reads in vain. -/
theorem test_poll_pending :
    (match runListing (fun _ => 2) (cmdOps .nop) State.reset with
      | .next t => decide (t.rdata = [0x01, 0x01, 0x00])
      | _ => false) = true := by decide +kernel

/-- A command loaded as the next step runs as that step. -/
theorem test_withFetchWord :
    (match step (State.reset.withFetchWord 32 0x105) with
      | .next t => decide (t.acc = 1 ∧ t.busy = false)
      | _ => false) = true := by decide +kernel

/-! ### Witnesses: a state and operands that meet the hypotheses of each obligation -/

theorem witness_EngineRunsTheDecodedCommand :
    (pending 0x105).busy = true ∧ (pending 0x105).errCode = .none ∧
      decode (pending 0x105).pendCmd = .ok (.wrBit true) ∧ (pending 0x105).agenda = [] ∧
      ∃ t, exec (.wrBit true) (pending 0x105) = .next t :=
  ⟨rfl, rfl, by decide, rfl, _, rfl⟩

/-- A word of each of the five classes, pending. -/
theorem witness_IllegalWordTakesBadCommand :
    (∀ w, (pending w).busy = true ∧ (pending w).errCode = .none ∧ (pending w).pendCmd = w) ∧
      (0x00010001#32).extractLsb' 16 16 ≠ 0 ∧ 0x0B < ((0x0000000C#32).extractLsb' 0 8).toNat ∧
      (((0x00000100#32).extractLsb' 0 8).toNat ∈
          [0x00, 0x01, 0x02, 0x03, 0x07, 0x08, 0x0A, 0x0B] ∧
        (0x00000100#32).extractLsb' 8 8 ≠ 0) ∧
      (((0x00000205#32).extractLsb' 0 8).toNat = 0x05 ∧
        1 < ((0x00000205#32).extractLsb' 8 8).toNat) ∧
      (((0x00002106#32).extractLsb' 0 8).toNat = 0x06 ∧
        32 < ((0x00002106#32).extractLsb' 8 8).toNat) :=
  ⟨fun _ => ⟨rfl, rfl, rfl⟩, by decide⟩

theorem witness_EngineRestsWhenIdleOrInFault :
    State.reset.busy = false ∧ failed.errCode ≠ .none := ⟨rfl, by decide⟩

theorem witness_StepNeverFails : 0x4000 ≤ (0x4000 : Word).toNat := by decide

/-- The last word, and the words next to ROOT and DEC_POS. -/
theorem witness_WindowAfterReset :
    State.reset.register 0x3FFC = 0 ∧ State.reset.register 0x02C = 0x1FF ∧
      State.reset.register 0x030 = 0 ∧ State.reset.register 0x058 = 0x1FF ∧
      State.reset.register 0x05C = 0 ∧ State.reset.register 0x00C = 0 := by decide +kernel

theorem witness_HardwareResetFromAnyState :
    State.reset.busy = false ∧ (pending 0x105).busy = true ∧
      ∃ u, runEvent .engine (pending 0x105) = .next u :=
  ⟨rfl, rfl, _, engineTurn_completed _⟩

theorem witness_CtrlWriteResets :
    (0x1 : Word).getLsbD 0 = true ∧ (0x2 : Word).getLsbD 0 = false := by decide

theorem witness_FaultIsLatched :
    failed.errCode ≠ .none ∧ failed.busy = false ∧ Event.engine ≠ .reset ∧
      (∀ off v, Event.engine = .write off 0xF v → wordOffset off = 0x00C → v.getLsbD 0 = false) ∧
      runEvent .engine failed = .next failed := by
  refine ⟨by decide, rfl, by decide, ?_, rfl⟩
  intro off v h
  cases h

theorem witness_WriteWhileBusyIsOverrun :
    (pending 1).busy = true ∧ (0x40C : Word).toNat < 0x4000 ∧ wordOffset 0x40C ≠ 0x00C ∧
      ∃ u, runEvent .engine (pending 1) = .next u :=
  ⟨rfl, by decide, by decide, _, engineTurn_completed _⟩

theorem witness_StatusReadsExactly : State.reset.busy = false := rfl

/-- Each of the three clauses; 0x02F is the last offset of ROOT's word. -/
theorem witness_ExactReads :
    (wordOffset 0x013 ∈ [0x000, 0x004, 0x008, 0x010]) ∧
      (failed.busy = false ∧ wordOffset 0x028 ∈ [0x01C, 0x020, 0x024, 0x028]) ∧
      (State.reset.busy = false ∧ State.reset.poisoned = false ∧
        (0x02F : Word).toNat < 0x4000) := by decide

theorem witness_ArraysReadBack :
    3 < 4 ∧ State.reset.busy = false ∧ State.reset.poisoned = false := by decide

/-- The last allocated entry of `pair`, and the first one above. -/
theorem witness_NodeReadBack :
    2 < pair.nodeCount.toNat ∧ pair.nodes[2]? = some ⟨.internal, 0, 2, 0, 1⟩ ∧
      pair.nodeCount.toNat ≤ 3 := by decide

theorem witness_CmdWriteIssues : State.reset.busy = false ∧ State.reset.errCode = .none :=
  ⟨rfl, rfl⟩

theorem witness_FreqWriteInvalidates :
    pair.busy = false ∧ pair.errCode = .none ∧ (1 : Byte) ≠ 2 := by decide

/-- Offsets on the two sides of FREQ. -/
theorem witness_OtherWritesHaveNoEffect :
    (0x3FC : Word).toNat < 0x4000 ∧ (0x800 : Word).toNat < 0x4000 ∧ State.reset.busy = false ∧
      State.reset.errCode = .none ∧ (0x1 : BitVec 4) ≠ 0xF#4 ∧
      wordOffset 0x3FC < 0x400 ∧ 0x800 ≤ wordOffset 0x800 := by decide

theorem witness_BuildTreeRejectsBadFrequency :
    (entry (counted [(5, 0x80000000)]).freq 5).getLsbD 31 = true ∧
      ∀ y : Byte, y.toNat < (5 : Byte).toNat →
        (entry (counted [(5, 0x80000000)]).freq y).getLsbD 31 = false := by decide +kernel

theorem witness_BuildTreeRejectsEmptyTable : ∀ x, entry State.reset.freq x = 0 := by simp

theorem witness_BuildTreeCompletes :
    (∀ x, (entry pair.freq x).getLsbD 31 = false) ∧ (∃ x, entry pair.freq x ≠ 0) ∧
      (leafSymbols pair.freq)[1]? = some 2 ∧ 2 ≤ (leafSymbols pair.freq).length :=
  ⟨by decide +kernel, ⟨1, by decide +kernel⟩, by decide +kernel, by decide +kernel⟩

theorem witness_SingleSymbolTree :
    entry lone.freq 0x41 ≠ 0 ∧ (entry lone.freq 0x41).getLsbD 31 = false ∧
      ∀ y, y ≠ 0x41 → entry lone.freq y = 0 := by decide +kernel

/-- Three candidates, two of the same weight. -/
theorem witness_RemoveMinTakesTheSmallestKey :
    removeMin pair.nodes [2, 1, 0] = some (0, [2, 1]) := by decide

theorem witness_RemoveMinTakesTheSmallestKey_some : ([0] : List Nat) ≠ [] := by decide

theorem witness_MergeStepJoinsTheTwoSmallest :
    removeMin pair.nodes [0, 1] = some (0, [1]) ∧ removeMin pair.nodes [1] = some (1, []) := by
  decide

theorem witness_AssignCodesNeedsATree : State.reset.treeValid = false := rfl

/-- The tree of `pair`. -/
def pairTree : CodeTree := .node (.leaf 1) (.leaf 2)

theorem pair_treeIs : TreeIs pair pairTree := by
  refine ⟨rfl, ?_, rfl, ?_, rfl⟩
  · refine ⟨⟨by decide, by decide, rfl⟩, rfl, by decide +kernel, ?_, ?_⟩
    · exact ⟨⟨by decide, by decide, rfl⟩, rfl, rfl, rfl, by decide +kernel⟩
    · exact ⟨⟨by decide, by decide, rfl⟩, rfl, rfl, rfl, by decide +kernel⟩
  · have h : leafSymbols pair.freq = pairTree.symbols := by decide +kernel
    rw [h]

theorem pair_codesAre : CodesAre pair pairTree :=
  ⟨by decide +kernel, by decide +kernel, by decide +kernel, by decide +kernel⟩

theorem pair_writerOk : WriterOk pair := ⟨by decide, by decide⟩

theorem pair_inv : Inv pair := by
  refine ⟨by decide, by decide, fun _ => rfl, fun _ => ?_, fun _ _ => ⟨pairTree, pair_treeIs,
    fun _ => pair_codesAre⟩, fun _ h => absurd rfl h⟩
  exact ⟨by decide, by decide, by decide, fun h => absurd rfl h, by decide, by decide,
    pair_writerOk, by decide⟩

/-- At the boundary: the deepest path of `pairTree` has one bit. -/
theorem witness_AssignCodesCompletes :
    pair.treeValid = true ∧ TreeIs pair pairTree ∧ (∀ x, (pairTree.path x).length ≤ 32) :=
  ⟨rfl, pair_treeIs, by decide +kernel⟩

/-- n Fibonacci numbers from a, b on, for symbols x, x + 1, ... -/
def fib : Nat → Nat → Word → Word → List (Byte × Word)
  | 0, _, _, _ => []
  | n + 1, x, a, b => (BitVec.ofNat 8 x, a) :: fib n (x + 1) b (a + b)

/-- V8b: 34 Fibonacci weights make a leaf of depth 33, just above the ceiling. -/
theorem deep_depth : (pathIn (built (fib 34 0 1 1)).leafPaths 0).length = 33 := by decide +kernel

theorem witness_AssignCodesOverflows :
    ∃ (s : State) (tree : CodeTree), s.treeValid = true ∧ TreeIs s tree ∧
      32 < (tree.path 0).length ∧
      ∀ y : Byte, y.toNat < (0 : Byte).toNat → (tree.path y).length ≤ 32 := by
  have hs : ∀ s : State, exec .buildTree (counted (fib 34 0 1 1)) = .next s →
      built (fib 34 0 1 1) = s := by
    intro s h
    simp only [built, after, h]
  have hd := deep_depth
  rcases execBuildTree_cases (counted (fib 34 0 1 1)) with ⟨_, _, e⟩ | ⟨_, _, e⟩ |
    ⟨_, arena, root, tree, e, ht, _⟩
  · rw [hs _ e] at hd
    exact absurd (hd.symm.trans (rfl : _ = 0)) (by decide)
  · rw [hs _ e] at hd
    exact absurd (hd.symm.trans (rfl : _ = 0)) (by decide)
  · rw [hs _ e, ht.pathIn_leafPaths] at hd
    exact ⟨_, tree, rfl, ht, by omega, fun y h => absurd h (by simp)⟩

/-- With a decode in progress in the second state. -/
theorem witness_AssignCodesRepeats :
    pair.treeValid = true ∧ ∃ t u, exec .assignCodes pair = .next t ∧ t.codesValid = true ∧
      SameTree t u ∧ SameFreq t u ∧ u.decState = .active := by
  refine ⟨rfl, ?_⟩
  rcases execAssignCodes_cases (s := pair) rfl pair_treeIs with ⟨x, h, _⟩ | ⟨_, e, _⟩
  · have := pair_codesAre.depth x
    omega
  · exact ⟨_, reading, e, rfl, ⟨rfl, rfl, rfl, rfl, rfl⟩, rfl, rfl⟩

theorem witness_CodesArePrefixFree :
    Inv pair ∧ pair.poisoned = false ∧ pair.codesValid = true ∧ (1 : Byte) ≠ 2 ∧
      entry pair.freq 1 ≠ 0 ∧ entry pair.freq 2 ≠ 0 :=
  ⟨pair_inv, rfl, rfl, by decide, by decide +kernel, by decide +kernel⟩

theorem witness_KraftSum : Inv pair ∧ pair.poisoned = false ∧ pair.codesValid = true :=
  ⟨pair_inv, rfl, rfl⟩

theorem witness_WrBitCompletes : State.reset.encFlushed = false ∧ WriterOk State.reset :=
  ⟨rfl, by decide, by decide⟩

theorem witness_WrCodeCompletes :
    (32 : Byte).toNat ≤ 32 ∧ State.reset.encFlushed = false ∧ WriterOk State.reset :=
  ⟨by decide, rfl, by decide, by decide⟩

theorem witness_EncSymCompletes :
    pair.codesValid = true ∧ pair.encFlushed = false ∧ entry pair.len 2 ≠ 0 ∧ WriterOk pair :=
  ⟨rfl, rfl, by decide +kernel, pair_writerOk⟩

theorem witness_EncSymErrors :
    State.reset.codesValid = false ∧
      (({ pair with encFlushed := true } : State).codesValid = true ∧
        ({ pair with encFlushed := true } : State).encFlushed = true) ∧
      (pair.codesValid = true ∧ pair.encFlushed = false ∧ entry pair.len 3 = 0) :=
  ⟨rfl, ⟨rfl, rfl⟩, rfl, rfl, by decide +kernel⟩

/-- With seven bits in the accumulator. -/
theorem witness_FlushCompletes :
    WriterOk { State.reset with acc := 0x7F, accN := 7 } := ⟨by decide, by decide⟩

theorem witness_FlushedWriterRefusesWrites :
    ({ pair with encFlushed := true } : State).encFlushed = true ∧
      ({ pair with encFlushed := true } : State).codesValid = true := ⟨rfl, rfl⟩

theorem witness_DecStartCompletes : pair.treeValid = true ∧ pair.codesValid = true := ⟨rfl, rfl⟩

theorem witness_DecoderNotReady :
    State.reset.treeValid = false ∧ State.reset.codesValid = false ∧
      State.reset.decState = .off := ⟨rfl, rfl, rfl⟩

theorem reading_treeIs : TreeIs reading pairTree :=
  treeIs_congr (s := pair) (by rfl) (by rfl) (by rfl) (by rfl) (by rfl) pair_treeIs

theorem witness_DecByteDecodesOnTheTree :
    reading.decState = .active ∧ 1 ≤ reading.decRemain.toNat ∧ TreeIs reading pairTree ∧
      pairTree.isInner = true ∧ Spells reading reading.decPos pairTree :=
  ⟨rfl, by decide, reading_treeIs, rfl, reading_treeIs.spells⟩

theorem lone_treeIs : TreeIs lone (.single 0x41) := by
  refine ⟨rfl, ?_, rfl, ?_, rfl⟩
  · refine ⟨⟨by decide, by decide, rfl⟩, rfl, rfl, by decide +kernel, ?_⟩
    exact ⟨⟨by decide, by decide, rfl⟩, rfl, rfl, rfl, by decide +kernel⟩
  · have h : leafSymbols lone.freq = (CodeTree.single 0x41).symbols := by decide +kernel
    rw [h]

/-- The tree of V4, {'A':1, 'B':1, 'C':2}, reading, written out by R145: A and B are merged into
node 3, then C and node 3 into the root. -/
def three : State :=
  { counted [(0x41, 1), (0x42, 1), (0x43, 2)] with
    treeValid := true, root := 4, nodeCount := 5, leafCount := 3,
    nodes := [⟨.leaf, 0x41, 1, 0x1FF, 0x1FF⟩, ⟨.leaf, 0x42, 1, 0x1FF, 0x1FF⟩,
              ⟨.leaf, 0x43, 2, 0x1FF, 0x1FF⟩, ⟨.internal, 0, 2, 0, 1⟩, ⟨.internal, 0, 4, 2, 3⟩],
    codesValid := true, totalBits := 6, decState := .active, decRemain := 6, decPos := 4 }

/-- The tree of `three`. -/
def threeTree : CodeTree := .node (.leaf 0x43) (.node (.leaf 0x41) (.leaf 0x42))

theorem three_treeIs : TreeIs three threeTree := by
  have leaf : ∀ i : NodeIdx, i = 0 ∨ i = 1 ∨ i = 2 →
      SpellsLeaf three i (if i = 0 then 0x41 else if i = 1 then 0x42 else 0x43) := by
    rintro i (rfl | rfl | rfl) <;>
      exact ⟨⟨by decide, by decide, rfl⟩, rfl, rfl, rfl, by decide +kernel⟩
  refine ⟨rfl, ?_, rfl, ?_, rfl⟩
  · refine ⟨⟨by decide, by decide, rfl⟩, rfl, by decide +kernel, leaf 2 (by simp), ?_⟩
    exact ⟨⟨by decide, by decide, rfl⟩, rfl, by decide +kernel, leaf 0 (by simp),
      leaf 1 (by simp)⟩
  · have h : leafSymbols three.freq = [0x41, 0x42, 0x43] := by decide +kernel
    rw [h]
    decide

/-- The hypotheses of DecByteDecodesOnTheTree, with the decoder at the root. -/
def Decodes (s : State) (tree : CodeTree) : Prop :=
  s.decState = .active ∧ 1 ≤ s.decRemain.toNat ∧ TreeIs s tree ∧ tree.isInner = true ∧
    Spells s s.decPos tree

/-- A missing child: RD4, the single-symbol tree and a 1 bit. -/
theorem witness_DecByteDecodesOnTheTree_missing :
    Decodes lone (.single 0x41) ∧ (after (.decByte 0x80) lone).errCode = .corruptStream ∧
      (after (.decByte 0x80) lone).errInfo0 = 1 :=
  ⟨⟨rfl, by decide, lone_treeIs, rfl, lone_treeIs.spells⟩, by decide +kernel⟩

/-- A budget of 9: one bit remains after the byte 0x1F, which is C C C B B and half of another. -/
theorem witness_DecByteDecodesOnTheTree_remains :
    Decodes { three with decRemain := 9 } threeTree ∧
      (after (.decByte 0x1F) { three with decRemain := 9 }).decRemain = 1 ∧
      (after (.decByte 0x1F) { three with decRemain := 9 }).decState = .active ∧
      (after (.decByte 0x1F) { three with decRemain := 9 }).errCode = .none ∧
      (after (.decByte 0x1F) { three with decRemain := 9 }).decPos = 3 := by
  have h : TreeIs { three with decRemain := 9 } threeTree :=
    treeIs_congr (s := three) (by rfl) (by rfl) (by rfl) (by rfl) (by rfl) three_treeIs
  exact ⟨⟨rfl, by decide, h, rfl, h.spells⟩, by decide +kernel⟩

/-- A budget that ends at the root: RD3. -/
theorem witness_DecByteDecodesOnTheTree_done :
    Decodes lone (.single 0x41) ∧ (after (.decByte 0x1F) lone).decRemain = 0 ∧
      (after (.decByte 0x1F) lone).decPos = 1 ∧ (after (.decByte 0x1F) lone).decState = .done :=
  ⟨⟨rfl, by decide, lone_treeIs, rfl, lone_treeIs.spells⟩, by decide +kernel⟩

/-- RD5: a budget of 6 that ends off the root, at node 3. -/
theorem witness_DecByteDecodesOnTheTree_off_root :
    Decodes three threeTree ∧ (after (.decByte 0x04) three).decRemain = 0 ∧
      (after (.decByte 0x04) three).decPos = 3 ∧
      (after (.decByte 0x04) three).errCode = .corruptStream ∧
      (after (.decByte 0x04) three).errInfo0 = 0 ∧ (after (.decByte 0x04) three).errInfo1 = 3 :=
  ⟨⟨rfl, by decide, three_treeIs, rfl, three_treeIs.spells⟩, by decide +kernel⟩

theorem witness_PathOfASymbolEmitsIt :
    TreeIs reading pairTree ∧ ((2 : Byte), [true]) ∈ pairTree.paths ∧
      reading.decPos = reading.root := ⟨reading_treeIs, by decide, rfl⟩

/-- Bytes that differ only below the two meaningful bits. -/
theorem witness_PaddingBitsAreIgnored :
    ∀ i, i < min 8 reading.decRemain.toNat →
      (0x80 : Byte).getLsbD (7 - i) = (0xBF : Byte).getLsbD (7 - i) := by decide

theorem witness_DecByteAfterTheBudget :
    ({ reading with decState := .done } : State).decState = .done := rfl

theorem witness_DecEndChecksTheBudget :
    ({ reading with decState := .done } : State).decState = .done ∧ reading.decState = .active :=
  ⟨rfl, rfl⟩

theorem witness_OutputsOnlyGrow : ∃ t, step State.reset = .next t := ⟨_, rfl⟩

/-- A command that emits to each of the streams. -/
theorem witness_OneStreamForEachCommand :
    (after .flush { State.reset with acc := 5, accN := 3 }).encOut ≠ State.reset.encOut ∧
      (after (.decByte 0x1F) lone).decOut ≠ lone.decOut := by decide +kernel

theorem witness_OnlyWrCodeReadsCmdArg :
    (∃ t, exec .flush State.reset = .next t) ∧ ∀ len, Instr.flush ≠ .wrCode len :=
  ⟨⟨_, rfl⟩, by simp⟩

theorem witness_StepKeepsTheInvariant : Inv pair ∧ ∃ t, step pair = .next t :=
  ⟨pair_inv, _, rfl⟩

theorem rt_counts : ∀ x : Byte, [(0x41 : Byte)].count x < 2 ^ 31 := fun x =>
  lt_of_le_of_lt List.count_le_length (by simp)

/-- The string "A": its encode sequence ends without an error. -/
theorem witness_RoundTrip :
    [(0x41 : Byte)] ≠ [] ∧ (∀ x, [(0x41 : Byte)].count x < 2 ^ 31) ∧
      (match runListing (fun _ => 0) (encodeSequence [0x41]) State.reset with
        | .next s => decide (s.errCode = .none)
        | _ => false) = true :=
  ⟨by simp, rt_counts, by decide +kernel⟩

/-- The reserved offsets at the ends of their ranges. -/
theorem witness_ControlRegistersReadBack :
    ∀ a ∈ [0x044, 0x05C, 0x078, 0x3FC, 0x1000, 0x1FFC],
      a = 0x044 ∨ a = 0x05C ∨ (0x078 ≤ a ∧ a < 0x400) ∨ (0x1000 ≤ a ∧ a < 0x2000) := by decide

end Sys2Proof.Tests
end

section
/-! Invalidation (R57, R58), and what the Host reads of NODE. -/

namespace Sys2Proof.Machine

/-! ### Reading NODE (R44) -/

/-- An entry at or above NODE_COUNT reads 0 in every word (R44). -/
theorem State.nodeWord_of_unallocated {s : State} {i : Nat} (h : s.nodeCount.toNat ≤ i)
    (k : Nat) : s.nodeWord i k = 0 :=
  if_neg (Nat.not_lt.mpr h)

/-- The NODE array begins at 0x2000, sixteen bytes for each entry (R80). -/
theorem State.register_node (s : State) (i : Nat) {k : Nat} (hk : k < 16) :
    s.register (0x2000 + 16 * i + k) = s.nodeWord i k := by
  have hi : (0x2000 + 16 * i + k - 0x2000) / 16 = i := by omega
  have hw : (0x2000 + 16 * i + k) % 16 = k := by omega
  have outside : ∀ b ≤ 0x2000, ¬ 0x2000 + 16 * i + k < b := by omega
  simp [State.register, outside, hi, hw]

/-! ### The obligations -/

/-- Settles O23: the five fields of R57 are all that the update names, and a filled array holds its
value at every symbol. -/
theorem invalidateCodesClears : Obligations.InvalidateCodesClears := by
  intro s
  constructor
  · intro x
    simp only [State.invalidateCodes_code, State.invalidateCodes_len, entry_fill, and_self]
  · rfl

/-- Settles O24: the order in which R58 clears the tree and the codes does not matter, and with
NODE_COUNT = 0 no NODE entry is allocated. -/
theorem invalidateTreeClears : Obligations.InvalidateTreeClears := by
  intro s
  constructor
  · rfl
  · intro i _ k hk
    have hk16 : k < 16 := by
      simp only [List.mem_cons, List.not_mem_nil, or_false] at hk
      omega
    have unallocated : s.invalidateTree.nodeCount.toNat ≤ i := by simp
    rw [State.register_node _ i hk16, State.nodeWord_of_unallocated unallocated]

end Sys2Proof.Machine
end

section
/-! The two tables BUILD_TREE rejects (R142, R143). -/

namespace Sys2Proof.Machine

/-! ### The rejections of BUILD_TREE -/

theorem exec_buildTree (s : State) : exec .buildTree s = execBuildTree s := rfl

/-- R142: the smallest symbol with bit 31 set is checked before anything else, so no other
frequency is asked for. -/
theorem execBuildTree_of_badSymbol {s : State} {x : Byte} (h : badSymbol s.freq = some x) :
    execBuildTree s =
      .next (s.invalidateTree.raise .badFrequency (x.setWidth 32) (entry s.freq x)) := by
  unfold execBuildTree
  dsimp only
  rw [State.invalidateTree_freq, h]

/-- R143: with no bit 31 set and no leaf to seed, the command ends before the construction. -/
theorem execBuildTree_of_noLeaf {s : State} (hbad : badSymbol s.freq = none)
    (hleaf : leafSymbols s.freq = []) :
    execBuildTree s = .next (s.invalidateTree.raise .emptyInput 0 0) := by
  unfold execBuildTree
  dsimp only
  rw [State.invalidateTree_freq, hbad, hleaf]
  rfl

/-- A table that is 0 everywhere seeds no leaf (R141). -/
theorem leafSymbols_eq_nil_of_zero {f : Table Word} (h : ∀ x, entry f x = 0) :
    leafSymbols f = [] :=
  List.eq_nil_iff_forall_not_mem.mpr fun x hx => (mem_leafSymbols f x).mp hx (h x)

/-- In a table that is 0 everywhere no frequency has bit 31 set (R142). -/
theorem badSymbol_eq_none_of_zero {f : Table Word} (h : ∀ x, entry f x = 0) :
    badSymbol f = none :=
  (badSymbol_eq_none f).mpr fun x => by rw [h x]; exact BitVec.getLsbD_zero

/-! ### The obligations -/

/-- Settles O27: the symbol found by the search of R142 is the smallest one with bit 31 set, and
`raise` keeps the invalidated tree, which has no node. -/
theorem buildTreeRejectsBadFrequency : Obligations.BuildTreeRejectsBadFrequency := by
  intro s x hbit hsmallest
  have hbad : badSymbol s.freq = some x := (badSymbol_eq_some s.freq x).mpr ⟨hbit, hsmallest⟩
  constructor
  · rw [exec_buildTree, execBuildTree_of_badSymbol hbad]
    rfl
  · exact ⟨State.invalidateTree_nodes s, State.invalidateTree_nodeCount s⟩

/-- Settles O28: the table of zeros passes the check of R142 and seeds no leaf, so BUILD_TREE
raises EmptyInput on the state InvalidateTree leaves. -/
theorem buildTreeRejectsEmptyTable : Obligations.BuildTreeRejectsEmptyTable := by
  intro s hzero
  have hrun : exec .buildTree s = .next (s.invalidateTree.raise .emptyInput 0 0) :=
    (exec_buildTree s).trans <| execBuildTree_of_noLeaf (badSymbol_eq_none_of_zero hzero)
      (leafSymbols_eq_nil_of_zero hzero)
  exact ⟨_, hrun, rfl, rfl, rfl, rfl, rfl, rfl, rfl, rfl, rfl, rfl, rfl⟩

end Sys2Proof.Machine
end

section
/-! The outcomes of ASSIGN_CODES without a tree and when it is repeated (R171, R180). -/

namespace Sys2Proof.Machine

/-! ### The outcomes -/

/-- R171: the tree is asked for before anything is invalidated. -/
theorem exec_assignCodes_of_noTree {s : State} (h : s.treeValid = false) :
    exec .assignCodes s = .next (s.raise .notReady 0 0) :=
  if_pos h

/-- When ASSIGN_CODES ends with valid codes, no leaf was too deep and the codes of the traversal
were stored: both of its errors leave CODES_VALID = 0 (R171, R173, R174). -/
theorem exec_assignCodes_valid {s t : State} (hv : s.treeValid = true)
    (hrun : exec .assignCodes s = .next t) (hc : t.codesValid = true) :
    tooDeep s.invalidateCodes.leafPaths = none ∧
      t = s.invalidateCodes.storeCodes s.invalidateCodes.leafPaths := by
  cases ran_of_exec hrun with
  | noTree _ hnone => exact absurd (hv.symm.trans hnone) (by decide)
  | tooLong _ x _ _ => exact absurd hc Bool.false_ne_true
  | assigned _ _ hdeep => exact ⟨hdeep, rfl⟩

/-! ### The obligations -/

/-- Settles O33: the error is raised on the state the command began in. -/
theorem assignCodesNeedsATree : Obligations.AssignCodesNeedsATree :=
  fun _ h => exec_assignCodes_of_noTree h

/-- Settles O36: the command that gave valid codes kept the tree and FREQ, so in `u` the traversal
finds the same paths, and what is stored depends on these paths and FREQ only. -/
theorem assignCodesRepeats : Obligations.AssignCodesRepeats := by
  intro s t u hv hrun hc ⟨hvalid, hroot, hcount, _, hnodes⟩ hfreq
  obtain ⟨hdeep, rfl⟩ := exec_assignCodes_valid hv hrun hc
  have hfound : u.invalidateCodes.leafPaths = s.invalidateCodes.leafPaths :=
    leafPaths_congr (s := s.invalidateCodes) (t := u.invalidateCodes) hnodes hcount hroot
  have hfreq' : u.freq = s.freq := hfreq
  have hrun' := exec_assignCodes_stores (u := u) (hvalid.trans hv) (by rw [hfound]; exact hdeep)
  rw [hfound] at hrun'
  refine ⟨_, hrun', rfl, rfl, ?_, rfl, rfl⟩
  simp only [State.storeCodes, State.invalidateCodes_freq, hfreq']

end Sys2Proof.Machine
end

section
/-! The codes of a tree as a set: no path begins another (R178), and the Kraft sum (R179). -/

namespace Sys2Proof.Machine

/-- Valid codes are those of the tree in the arena, which R54 (b) then has. -/
theorem Inv.codes_tree {s : State} (h : Inv s) (hclean : s.poisoned = false)
    (hvalid : s.codesValid = true) : ∃ t, TreeIs s t ∧ CodesAre s t := by
  have htree : s.treeValid = true := ((h.rule54 hclean).b hvalid).1
  obtain ⟨t, ht, hcodes⟩ := h.tree hclean htree
  exact ⟨t, ht, hcodes hvalid⟩

/-! ### No path begins another -/

/-- A leaf has no node below it: where the path of one leaf begins the path of another, the two are
one leaf (R178). -/
theorem CodeTree.symbol_eq_of_path_prefix {t : CodeTree} {x y : Byte} {p q : List Bool}
    (hp : (x, p) ∈ t.paths) (hq : (y, q) ∈ t.paths) (hpre : p <+: q) : x = y := by
  induction t generalizing p q with
  | leaf z =>
    simp only [CodeTree.paths, List.mem_singleton, Prod.mk.injEq] at hp hq
    exact hp.1.trans hq.1.symm
  | single z =>
    simp only [CodeTree.paths, List.mem_singleton, Prod.mk.injEq] at hp hq
    exact hp.1.trans hq.1.symm
  | node l r ihl ihr =>
    simp only [CodeTree.paths, List.mem_append, List.mem_map, Prod.mk.injEq] at hp hq
    rcases hp with ⟨⟨_, p⟩, hp, rfl, rfl⟩ | ⟨⟨_, p⟩, hp, rfl, rfl⟩ <;>
      rcases hq with ⟨⟨_, q⟩, hq, rfl, rfl⟩ | ⟨⟨_, q⟩, hq, rfl, rfl⟩ <;>
      rw [List.cons_prefix_cons] at hpre
    · exact ihl hp hq hpre.2
    · exact absurd hpre.1 (by decide)
    · exact absurd hpre.1 (by decide)
    · exact ihr hp hq hpre.2

/-! ### The Kraft sum -/

/-- The Kraft sum of a tree's leaves, times 2^d (R179). -/
def CodeTree.kraft (t : CodeTree) (d : Nat) : Nat := (t.paths.map fun e => 2 ^ (d - e.2.length)).sum

@[simp] theorem CodeTree.kraft_leaf (x : Byte) (d : Nat) : (CodeTree.leaf x).kraft d = 2 ^ d := by
  simp [CodeTree.kraft, CodeTree.paths]

@[simp] theorem CodeTree.kraft_single (x : Byte) (d : Nat) :
    (CodeTree.single x).kraft d = 2 ^ (d - 1) := by
  simp [CodeTree.kraft, CodeTree.paths]

/-- One edge more halves a leaf's share. -/
@[simp] theorem CodeTree.kraft_node (l r : CodeTree) (d : Nat) :
    (CodeTree.node l r).kraft (d + 1) = l.kraft d + r.kraft d := by
  simp [CodeTree.kraft, CodeTree.paths, Function.comp_def, Nat.add_sub_add_right]

/-- Where every internal node has two children and no leaf is deeper than `d`, the Kraft sum is 1
(R179). -/
theorem CodeTree.kraft_of_full {t : CodeTree} (hfull : t.full = true) {d : Nat}
    (hd : ∀ e ∈ t.paths, e.2.length ≤ d) : t.kraft d = 2 ^ d := by
  induction t generalizing d with
  | leaf x => exact CodeTree.kraft_leaf x d
  | single x => exact absurd hfull (by simp [CodeTree.full])
  | node l r ihl ihr =>
    obtain ⟨hl, hr⟩ : l.full = true ∧ r.full = true := by simpa [CodeTree.full] using hfull
    simp only [CodeTree.paths, List.mem_append, List.mem_map] at hd
    have hdl : ∀ e ∈ l.paths, e.2.length + 1 ≤ d := fun e he => hd _ (.inl ⟨e, he, rfl⟩)
    have hdr : ∀ e ∈ r.paths, e.2.length + 1 ≤ d := fun e he => hd _ (.inr ⟨e, he, rfl⟩)
    obtain ⟨e, he⟩ := List.exists_mem_of_ne_nil _ l.paths_ne_nil
    obtain ⟨d, rfl⟩ := Nat.exists_eq_add_of_le' (Nat.le_of_add_left_le (hdl e he))
    rw [CodeTree.kraft_node, ihl hl fun e he => Nat.le_of_succ_le_succ (hdl e he),
      ihr hr fun e he => Nat.le_of_succ_le_succ (hdr e he)]
    omega

/-- The sum over the symbols of the table is the sum over the leaves of the tree (R150). -/
theorem TreeIs.sum_leafSymbols {s : State} {t : CodeTree} (h : TreeIs s t) (d : Nat) :
    ((leafSymbols s.freq).map fun x => 2 ^ (d - (t.path x).length)).sum = t.kraft d := by
  rw [← (h.leaves.map _).sum_eq, CodeTree.symbols, List.map_map, CodeTree.kraft]
  congr 1
  exact List.map_congr_left fun e he => by
    rw [Function.comp_apply, h.path_of_mem (x := e.1) (p := e.2) he]

theorem CodeTree.symbols_length_pos (t : CodeTree) : 1 ≤ t.symbols.length := by
  rw [CodeTree.symbols, List.length_map]
  exact List.length_pos_iff.mpr t.paths_ne_nil

theorem CodeTree.two_le_symbols_length_node (l r : CodeTree) :
    2 ≤ (CodeTree.node l r).symbols.length := by
  rw [CodeTree.symbols_node, List.length_append]
  have := l.symbols_length_pos
  have := r.symbols_length_pos
  omega

/-- LEAF_COUNT tells the one-symbol tree from the others. -/
theorem TreeIs.leafCount_eq_one {s : State} {t : CodeTree} (h : TreeIs s t) :
    s.leafCount = 1 ↔ t.symbols.length = 1 := by
  rw [← h.leafCount]
  exact BitVec.toNat_inj.symm

/-! ### The obligations -/

/-- Settles O37: under the invariant the bits of a symbol's code are its leaf's path in the tree. -/
theorem codesArePrefixFree : Obligations.CodesArePrefixFree := by
  intro s hinv hclean hvalid x y hne hx hy hpre
  obtain ⟨t, htree, hcodes⟩ := hinv.codes_tree hclean hvalid
  rw [hcodes.symbolBits, hcodes.symbolBits] at hpre
  exact hne (CodeTree.symbol_eq_of_path_prefix (htree.mem_paths hx) (htree.mem_paths hy) hpre)

/-- Settles O38: the sum is the Kraft sum of the tree in the arena, which is either the one-symbol
tree, whose only leaf has depth 1, or a full tree with two leaves or more. -/
theorem kraftSum : Obligations.KraftSum := by
  intro s hinv hclean hvalid
  obtain ⟨t, htree, hcodes⟩ := hinv.codes_tree hclean hvalid
  have hsum : ((leafSymbols s.freq).map fun x => 2 ^ (32 - (entry s.len x).toNat)).sum =
      t.kraft 32 := by
    simp only [hcodes.len_toNat, htree.sum_leafSymbols]
  simp only [hsum, htree.leafCount_eq_one]
  cases t with
  | leaf x => exact absurd htree.whole (by simp [CodeTree.isWhole])
  | single x => exact (CodeTree.kraft_single x 32).trans (if_pos rfl).symm
  | node l r =>
    have hmany := CodeTree.two_le_symbols_length_node l r
    rw [if_neg (by omega)]
    refine CodeTree.kraft_of_full (t := .node l r) htree.whole fun e he => ?_
    rw [← htree.path_of_mem (x := e.1) (p := e.2) he]
    exact hcodes.depth e.1

end Sys2Proof.Machine
end

section
/-! DEC_BYTE and DEC_END after the budget, and DEC_END before it (R231 to R233). -/

namespace Sys2Proof.Machine

/-- R233: in DONE the byte is counted and not decoded. -/
theorem exec_decByte_of_done {s : State} (h : s.decState = .done) (v : Byte) :
    exec (.decByte v) s = .next { s with decExtra := s.decExtra + 1 } := by
  change execDecByte v s = _
  simp only [execDecByte, h]

/-- R231: the stream was decoded to its end. -/
theorem exec_decEnd_of_done {s : State} (h : s.decState = .done) : exec .decEnd s = .next s := by
  change execDecEnd s = _
  simp only [execDecEnd, h]

/-- R232: bits are still expected. -/
theorem exec_decEnd_of_active {s : State} (h : s.decState = .active) :
    exec .decEnd s =
      .next (s.raise .truncatedStream (lowWord s.decBytes) (lowWord s.decRemain)) := by
  change execDecEnd s = _
  simp only [execDecEnd, h]

/-! ### The obligations -/

/-- Settles O51: in DONE the bits of the byte are not asked for. -/
theorem decByteAfterTheBudget : Obligations.DecByteAfterTheBudget :=
  fun _ v h => exec_decByte_of_done h v

/-- Settles O52: the error fields are all that `raise` writes, and the words it is given are the
low halves of the two counters. -/
theorem decEndChecksTheBudget : Obligations.DecEndChecksTheBudget :=
  fun _ => ⟨exec_decEnd_of_done, exec_decEnd_of_active⟩

end Sys2Proof.Machine
end

section
/-! An accepted write to FREQ (R252). -/

namespace Sys2Proof.Machine

/-! ### The offset of FREQ[x] (R80) -/

theorem freqOffset_toNat (x : Byte) : (freqOffset x).toNat = 0x400 + 4 * x.toNat := by
  have hx := x.isLt
  rw [freqOffset, BitVec.toNat_ofNat]
  omega

/-- FREQ[x] is word-aligned. -/
theorem wordOffset_freqOffset (x : Byte) : wordOffset (freqOffset x) = 0x400 + 4 * x.toNat := by
  rw [wordOffset, freqOffset_toNat]
  omega

theorem symbolAt_freq (x : Byte) : symbolAt 0x400 (0x400 + 4 * x.toNat) = x := by
  have hindex : (0x400 + 4 * x.toNat - 0x400) / 4 = x.toNat := by omega
  rw [symbolAt, hindex, BitVec.ofNat_toNat, BitVec.setWidth_eq]

/-! ### The write -/

/-- The 256 words of FREQ are apart from CMD and CMD_ARG (R77). -/
theorem State.writeRegister_freq (s : State) (x : Byte) (v : Word) :
    s.writeRegister (0x400 + 4 * x.toNat) v = s.writeFreq x v := by
  have hx := x.isLt
  rcases writeRegister_cases s (0x400 + 4 * x.toNat) v with
    ⟨hcmd, _⟩ | ⟨harg, _⟩ | ⟨_, _, hfreq⟩ | ⟨_, _, hother, _⟩
  · omega
  · omega
  · rw [hfreq, symbolAt_freq]
  · omega

/-- R252: with no command pending and no error latched, a write to FREQ[x] is accepted. -/
theorem runEvent_write_freqOffset {s : State} (hbusy : s.busy = false) (herr : s.errCode = .none)
    (x : Byte) (v : Word) :
    runEvent (.write (freqOffset x) 0xF v) s = .next (s.writeFreq x v) := by
  have hx := x.isLt
  have hwindow : (freqOffset x).toNat < 0x4000 := by rw [freqOffset_toNat]; omega
  have hctrl : wordOffset (freqOffset x) ≠ 0xC := by rw [wordOffset_freqOffset]; omega
  rw [accepted_write hwindow hbusy herr hctrl, wordOffset_freqOffset, State.writeRegister_freq]

/-- The other side of R252: what a write to FREQ leaves as it is. -/
theorem State.writeFreq_frame (s : State) (x : Byte) (v : Word) :
    SameWriter s (s.writeFreq x v) ∧ SameErrors s (s.writeFreq x v) ∧
      SameControl s (s.writeFreq x v) ∧ SameModel s (s.writeFreq x v) := by
  simp [SameWriter, SameErrors, SameControl, SameModel]

/-! ### The obligation -/

/-- Settles O21: the accepted write is `writeFreq`, which puts `v` into the table and invalidates
the tree without asking for the old value. -/
theorem freqWriteInvalidates : Obligations.FreqWriteInvalidates := by
  intro s x v hbusy herr
  have hstored : entry (s.writeFreq x v).freq x = v := by simp
  have hothers : ∀ y, y ≠ x → entry (s.writeFreq x v).freq y = entry s.freq y :=
    fun y hy => by rw [State.writeFreq_freq, entry_put_other s.freq v hy]
  have hcodes : ∀ y, entry (s.writeFreq x v).code y = 0 ∧ entry (s.writeFreq x v).len y = 0 :=
    fun y => by simp
  exact ⟨_, runEvent_write_freqOffset hbusy herr x v, hstored, hothers, rfl, rfl, rfl, rfl, rfl,
    rfl, rfl, hcodes, rfl, rfl, rfl, rfl, rfl, rfl, rfl, s.writeFreq_frame x v⟩

end Sys2Proof.Machine
end

section
/-! The accepted writes to CTRL and CMD (R301, R311). -/

namespace Sys2Proof.Machine

/-! ### CTRL -/

/-- R253, R301: a full-word write at CTRL's offset is taken whatever BUSY and ERR_CODE are. -/
theorem runEvent_write_ctrl {off : Word} (hwindow : off.toNat < 0x4000)
    (hctrl : wordOffset off = 0x00C) (v : Word) (s : State) :
    runEvent (.write off 0xF v) s = .next (s.writeCtrl v) := by
  change hostWrite off 0xF v s = _
  rcases hostWrite_cases off 0xF v s with ⟨houtside, _⟩ | ⟨_, _, _, hnext⟩ | ⟨_, _, hbe, _⟩ |
    ⟨_, hother, _⟩ | ⟨_, hother, _⟩ | ⟨_, hother, _⟩
  · omega
  · exact hnext
  · exact absurd rfl hbe
  all_goals exact absurd hctrl hother

/-- With v[0] = 1 a write to CTRL is the reset, and IRQ_EN is set after it. -/
theorem State.writeCtrl_of_softReset {v : Word} (h : v.getLsbD 0 = true) (s : State) :
    s.writeCtrl v = { s.resetStep with irqEn := v.getLsbD 1 } := by
  simp only [State.writeCtrl, h, if_true]

/-- With v[0] = 0 a write to CTRL sets IRQ_EN alone. -/
theorem State.writeCtrl_of_noReset {v : Word} (h : v.getLsbD 0 = false) (s : State) :
    s.writeCtrl v = { s with irqEn := v.getLsbD 1 } := by
  simp only [State.writeCtrl, h, Bool.false_eq_true, if_false]

/-- CTRL holds IRQ_EN in bit 1; bit 0, SOFT_RESET, is not stored (R24). -/
theorem State.register_ctrl_softReset (s : State) : (s.register 0x00C).getLsbD 0 = false := by
  change s.ctrlWord.getLsbD 0 = false
  cases hirq : s.irqEn <;> simp [State.ctrlWord, hirq]

/-! ### CMD -/

/-- R311: with no command pending and no error latched, a full-word write at CMD's offset issues
the command. -/
theorem runEvent_write_cmd {s : State} {off : Word} (hwindow : off.toNat < 0x4000)
    (hcmd : wordOffset off = 0x014) (hbusy : s.busy = false) (herr : s.errCode = .none)
    (w : Word) : runEvent (.write off 0xF w) s = .next (s.issue w) := by
  have hctrl : wordOffset off ≠ 0xC := by omega
  rw [accepted_write hwindow hbusy herr hctrl, State.writeRegister, if_pos hcmd]

/-! ### The obligations -/

/-- Settles O11: the write reaches `writeCtrl` in every state, and bit 0 of `v` selects between
the step that a hardware reset takes and no change. -/
theorem ctrlWriteResets : Obligations.CtrlWriteResets := by
  intro s v
  have hwrite : runEvent (.write 0x00C 0xF v) s = .next (s.writeCtrl v) :=
    runEvent_write_ctrl (by decide) (by decide) v s
  refine ⟨fun hreset => ⟨s.resetStep, rfl, ?_⟩, fun hkeep => ?_, s.register_ctrl_softReset⟩
  · rw [hwrite, State.writeCtrl_of_softReset hreset]
  · rw [hwrite, State.writeCtrl_of_noReset hkeep]

/-- Settles O20: the accepted write is `issue`, which names CMD, PEND_CMD and BUSY and nothing
else. -/
theorem cmdWriteIssues : Obligations.CmdWriteIssues :=
  fun _ w hbusy herr => runEvent_write_cmd (by decide) (by decide) hbusy herr w

end Sys2Proof.Machine
end

section
/-! Command words and commands: the decoder against the encoder (R111 to R118), and the words that
are no command (R113, R115). -/

namespace Sys2Proof

/-! ### The operand forms (R111) -/

theorem noOperand_eq_ok {i j : Instr} {a : Byte} : noOperand i a = .ok j ↔ a = 0 ∧ i = j := by
  unfold noOperand
  split
  case isTrue h => simp [h]
  case isFalse h => exact iff_of_false nofun fun e => h e.1

theorem noOperand_fails (i : Instr) (a : Byte) : (∃ r, noOperand i a = .error r) ↔ a ≠ 0 := by
  unfold noOperand
  split
  case isTrue h => exact iff_of_false nofun (not_not_intro h)
  case isFalse h => exact iff_of_true ⟨_, rfl⟩ h

theorem bitOperand_eq_ok {a : Byte} {i : Instr} :
    bitOperand a = .ok i ↔ a.toNat ≤ 1 ∧ Instr.wrBit (a.getLsbD 0) = i := by
  unfold bitOperand
  split <;> simp <;> omega

theorem bitOperand_fails (a : Byte) : (∃ r, bitOperand a = .error r) ↔ 1 < a.toNat := by
  unfold bitOperand
  split <;> simp <;> omega

theorem lengthOperand_eq_ok {a : Byte} {i : Instr} :
    lengthOperand a = .ok i ↔ a.toNat ≤ Config.maxCodeLen ∧ Instr.wrCode a = i := by
  unfold lengthOperand
  split <;> simp <;> omega

theorem lengthOperand_fails (a : Byte) : (∃ r, lengthOperand a = .error r) ↔ 32 < a.toNat := by
  unfold lengthOperand
  rw [Config.maxCodeLen]
  split <;> simp <;> omega

/-- WR_BIT's operand is 0 or 1, so bit 0 is all of it. -/
theorem operand_wrBit_of_le_one {a : Byte} (h : a.toNat ≤ 1) :
    (Instr.wrBit (a.getLsbD 0)).operand = a := by
  have hcases : a = 0 ∨ a = 1 := by
    rcases Nat.le_one_iff_eq_zero_or_eq_one.mp h with h | h
    · exact .inl (BitVec.eq_of_toNat_eq h)
    · exact .inr (BitVec.eq_of_toNat_eq h)
  rcases hcases with rfl | rfl <;> rfl

/-! ### The opcode map (R112) -/

/-- What the map answers is well formed and has the opcode and the operand it was read from. -/
theorem decodeOp_ok {op : Nat} {a : Byte} {i : Instr} (h : decodeOp op a = .ok i) :
    i.wellFormed = true ∧ i.opcode.toNat = op ∧ i.operand = a := by
  unfold decodeOp at h
  split at h
  case h_5 => obtain rfl := Except.ok.inj h; exact ⟨rfl, rfl, rfl⟩
  case h_6 =>
    obtain ⟨hle, rfl⟩ := bitOperand_eq_ok.mp h
    exact ⟨rfl, rfl, operand_wrBit_of_le_one hle⟩
  case h_7 =>
    obtain ⟨hle, rfl⟩ := lengthOperand_eq_ok.mp h
    exact ⟨decide_eq_true hle, rfl, rfl⟩
  case h_10 => obtain rfl := Except.ok.inj h; exact ⟨rfl, rfl, rfl⟩
  case h_13 => cases h
  all_goals
    obtain ⟨rfl, rfl⟩ := noOperand_eq_ok.mp h
    exact ⟨rfl, rfl, rfl⟩

/-- The map rejects an OP above 0x0B, and what the operand form of the other rows rejects. -/
theorem decodeOp_fails (op : Nat) (a : Byte) : (∃ r, decodeOp op a = .error r) ↔
    (0x0B < op ∨
      (op ∈ [0x00, 0x01, 0x02, 0x03, 0x07, 0x08, 0x0A, 0x0B] ∧ a ≠ 0) ∨
      (op = 0x05 ∧ 1 < a.toNat) ∨ (op = 0x06 ∧ 32 < a.toNat)) := by
  unfold decodeOp
  split
  case h_13 =>
    have : 0x0B < op := by grind
    simp [this]
  case h_6 => simp [bitOperand_fails]
  case h_7 => simp [lengthOperand_fails]
  case h_5 => simp
  case h_10 => simp
  all_goals simp [noOperand_fails]

/-! ### Words -/

theorem decode_of_rField {w : Word} (h : rField w = 0) :
    decode w = decodeOp (opField w).toNat (aField w) :=
  if_neg (not_not_intro h)

theorem decode_of_reservedBits {w : Word} (h : rField w ≠ 0) :
    decode w = .error .reservedBitsSet :=
  if_pos h

/-- Every well-formed command is read back from its word. -/
theorem decode_encode {i : Instr} (h : i.wellFormed = true) : decode (encode i) = .ok i := by
  cases i with
  | wrBit b => exact Laws.ReadBack.wrBit b h
  | wrCode len => exact Laws.ReadBack.wrCode len h
  | _ => exact Laws.decode_encode_eq _

/-- A word that decodes is the word of its command, which is well formed. -/
theorem encode_of_decode {w : Word} {i : Instr} (h : decode w = .ok i) :
    i.wellFormed = true ∧ encode i = w := by
  by_cases hr : rField w = 0
  · rw [decode_of_rField hr] at h
    obtain ⟨hwf, hop, ha⟩ := decodeOp_ok h
    refine ⟨hwf, ?_⟩
    rw [word_eq_fields w hr, encode, ha, BitVec.eq_of_toNat_eq hop]
  · rw [decode_of_reservedBits hr] at h
    cases h

/-! ### The obligations -/

/-- Settles O1: the fields R, A and OP are the whole word, and each row of the opcode map gives back
the opcode and the operand it was chosen by. -/
theorem decodeIsInverseOfEncode : Obligations.DecodeIsInverseOfEncode := by
  intro w i
  constructor
  · exact encode_of_decode
  · rintro ⟨hwf, rfl⟩
    exact decode_encode hwf

/-- Settles O2: R is checked first, and with R = 0 the opcode map decides. -/
theorem illegalWordsExactly : Obligations.IllegalWordsExactly := by
  intro w
  change (∃ r, decode w = .error r) ↔ rField w ≠ 0 ∨ _
  by_cases hr : rField w = 0
  · rw [decode_of_rField hr, decodeOp_fails]
    simp only [hr, ne_eq, not_true_eq_false, false_or]
    rfl
  · rw [decode_of_reservedBits hr]
    exact iff_of_true ⟨_, rfl⟩ (.inl hr)

/-- Settles O3: each word is the word of its command. -/
theorem wordsOfTheSpecDecode : Obligations.WordsOfTheSpecDecode :=
  ⟨decode_encode (i := .nop) rfl, decode_encode (i := .buildTree) rfl,
    decode_encode (i := .assignCodes) rfl, decode_encode (i := .wrBit true) rfl,
    decode_encode (i := .wrCode 32) rfl, decode_encode (i := .encSym 0x62) rfl,
    decode_encode (i := .decByte 0xAA) rfl, decode_encode (i := .decEnd) rfl,
    decode_encode (i := .clearFreq) rfl⟩

end Sys2Proof
end

section
/-! Every step keeps the invariant (R54): one lemma for each unit's commands, then the events. -/

namespace Sys2Proof.Machine

/-! ### Commands that leave the tree, the codes and the decoder -/

/-- What R54 says of the writer. -/
def WriterRule (s : State) : Prop :=
  WriterOk s ∧ (s.encFlushed = true → s.accN = 0 ∧ s.acc = 0)

theorem Inv.writerRule {s : State} (h : Inv s) (hp : s.poisoned = false) : WriterRule s :=
  ⟨(h.rule54 hp).g, (h.rule54 hp).h⟩

/-- A command that changes nothing the invariant reads but the writer, and leaves that
consistent. -/
theorem Inv.carry_finish {s u : State} (h : Inv s) (e : SameReads s u)
    (hp : u.poisoned = s.poisoned) (he : u.errCode = s.errCode)
    (hw : s.poisoned = false → WriterRule u) : Inv u.finish :=
  h.carry ⟨e.tree, e.codes, e.freq, e.decState, e.decPos, e.decRemain⟩ hp (.inl he)
    (fun hb => absurd hb Bool.false_ne_true) hw

/-- The accumulator is empty after a reset of the writer and after a FLUSH (R191, R202). -/
theorem writerRule_of_empty {s : State} (hacc : s.acc = 0) (hn : s.accN = 0) : WriterRule s := by
  refine ⟨?_, fun _ => ⟨hn, hacc⟩⟩
  simp [WriterOk, hacc, hn]

theorem drain_empty {s : State} (h : WriterOk s) : s.drain.acc = 0 ∧ s.drain.accN = 0 := by
  rcases drain_cases s with ⟨h0, e⟩ | ⟨_, e⟩ <;> rw [e]
  · refine ⟨BitVec.eq_of_toNat_eq ?_, h0⟩
    have := h.2
    rw [h0] at this
    simpa using this
  · exact ⟨rfl, rfl⟩

/-- Writing bits on an open writer keeps the invariant (R190, R194). -/
theorem Inv.writeBits {s : State} (h : Inv s) (hf : s.encFlushed = false) (bits : List Bool) :
    Inv (s.writeBits bits).finish := by
  refine h.carry_finish ?_ (by simp) (by simp) fun hp => ?_
  · obtain ⟨acc, n, out, e⟩ := s.writeBits_frame bits
    rw [e]
    exact sameReads_writer s acc n _ _ out
  · refine ⟨(s.writeBits_stream bits (h.rule54 hp).g).1, fun hf' => ?_⟩
    rw [State.writeBits_encFlushed, hf] at hf'
    cases hf'

/-- FLUSH keeps the invariant (R200). -/
theorem Inv.flushed {s : State} (h : Inv s) :
    Inv ({ s.drain with encFlushed := true } : State).finish := by
  have hframe : SameReads s { s.drain with encFlushed := true } ∧
      s.drain.poisoned = s.poisoned ∧ s.drain.errCode = s.errCode := by
    rcases drain_cases s with ⟨_, e⟩ | ⟨_, e⟩ <;> rw [e]
    · exact ⟨sameReads_writer s s.acc s.accN s.encBits true s.encOut, rfl, rfl⟩
    · exact ⟨sameReads_writer s 0 0 s.encBits true _, rfl, rfl⟩
  obtain ⟨hreads, hpois, herr⟩ := hframe
  refine h.carry_finish hreads hpois herr fun hp => ?_
  obtain ⟨hacc, hn⟩ := drain_empty (h.rule54 hp).g
  exact writerRule_of_empty hacc hn

/-! ### BUILD_TREE and ASSIGN_CODES -/

/-- A tree just built, with no codes yet (R148). -/
theorem Inv.built {s : State} (h : Inv s) (he : s.errCode = .none) {arena : List Node}
    {root leaves : Nat} {tree : CodeTree}
    (htree : TreeIs (s.invalidateTree.storeTree arena root leaves) tree)
    (hlen : arena.length ≤ 511) :
    Inv (s.invalidateTree.storeTree arena root leaves).finish := by
  have hw := h.writerRule (h.clean he)
  refine ⟨h.poisoned, nofun, fun _ => ?_, fun _ => ⟨nofun, nofun, fun _ => ⟨rfl, fun x => ?_⟩,
    fun hd => absurd rfl hd, nofun, nofun, hw.1, hw.2⟩, fun _ _ => ⟨tree, ?_, nofun⟩,
    fun _ hd => absurd rfl hd⟩
  · change arena.length = (BitVec.ofNat 10 arena.length).toNat
    rw [BitVec.toNat_ofNat]
    omega
  · change entry (fill 0) x = 0 ∧ entry (fill 0) x = 0
    simp
  · exact treeIs_congr (s := s.invalidateTree.storeTree arena root leaves)
      (by rfl) (by rfl) (by rfl) (by rfl) (by rfl) htree

/-- Codes just assigned to the tree in the arena (R170, R174). -/
theorem Inv.assigned {s : State} (h : Inv s) (he : s.errCode = .none) (hv : s.treeValid = true)
    (hdeep : tooDeep s.invalidateCodes.leafPaths = none) :
    Inv (s.invalidateCodes.storeCodes s.invalidateCodes.leafPaths).finish := by
  have hp := h.clean he
  have hw := h.writerRule hp
  obtain ⟨tree, htree, _⟩ := h.tree hp hv
  have htree' : TreeIs s.invalidateCodes tree :=
    treeIs_congr (s := s) (by rfl) (by rfl) (by rfl) (by rfl) (by rfl) htree
  have hdepth : ∀ x, (tree.path x).length ≤ Config.maxCodeLen := fun x => by
    rw [← htree'.pathIn_leafPaths x]
    exact (tooDeep_eq_none _).mp hdeep x
  have hcodes := storeCodes_codesAre htree' hdepth
  have hfinal : TreeIs (s.invalidateCodes.storeCodes s.invalidateCodes.leafPaths).finish tree :=
    treeIs_congr (s := s) (by rfl) (by rfl) (by rfl) (by rfl) (by rfl) htree
  have hcodes' : CodesAre (s.invalidateCodes.storeCodes s.invalidateCodes.leafPaths).finish tree :=
    ⟨hcodes.depth, hcodes.len, hcodes.code, hcodes.budget⟩
  exact ⟨h.poisoned, nofun, h.arena, fun _ => ⟨(h.rule54 hp).a,
    fun _ => ⟨hv, hcodes'.totalBits_pos hfinal⟩, nofun, fun hd => absurd rfl hd, nofun, nofun,
    hw.1, hw.2⟩, fun _ _ => ⟨tree, hfinal, fun _ => hcodes'⟩, fun _ hd => absurd rfl hd⟩

/-! ### The decoder -/

/-- The tree of a state with valid codes, from whose inner root every walk starts. -/
theorem Inv.inner_root {s : State} (h : Inv s) (hp : s.poisoned = false)
    (hc : s.codesValid = true) : ∃ r : CodeTree, r.isInner = true ∧ Spells s s.root r := by
  obtain ⟨r, hr, _⟩ := h.codes_tree hp hc
  exact ⟨r, CodeTree.isInner_of_isWhole hr.whole, hr.spells⟩

/-- A command that moves the walk to another inner node and counts the budget: what is left of R54
is its clauses (e) and (f). -/
theorem Inv.walked {s u : State} (h : Inv s) (he : s.errCode = .none) (hc : s.codesValid = true)
    (hfreq : SameFreq s u) (htree : SameTree s u) (hcodes : SameCodes s u)
    (hwriter : SameWriter s u) (hpois : u.poisoned = s.poisoned) (herr : u.errCode ≠ .overrun)
    (hpos : ∃ v : CodeTree, v.isInner = true ∧ Spells u u.decPos v)
    (hdone : u.decState = .done → u.decRemain = 0 ∧ u.decPos = u.root)
    (hactive : u.decState = .active → 1 ≤ u.decRemain.toNat ∨ u.errCode = .corruptStream) :
    Inv u.finish := by
  have hp := h.clean he
  have hp' : u.poisoned = false := hpois.trans hp
  obtain ⟨t1, t2, t3, t4, t5⟩ := htree
  obtain ⟨c1, c2, c3, c4⟩ := hcodes
  obtain ⟨w1, w2, _, w4, _⟩ := hwriter
  obtain ⟨ra, rb, rc, _, _, _, rg, rh⟩ := h.rule54 hp
  obtain ⟨v, hv, hvs⟩ := hpos
  have hinner := hvs.allocated
  rw [hv, if_pos rfl] at hinner
  have hvalid : u.codesValid = true := c1.trans hc
  refine ⟨?_, nofun, fun _ => ?_, fun _ => ⟨?_, ?_, ?_, fun _ => ⟨hvalid, .inr hinner⟩, hdone,
    hactive, ?_, ?_⟩, fun _ htv => ?_, fun _ _ => ⟨v, hv, ?_⟩⟩
  · exact iff_of_false (by simp [State.finish, hp']) herr
  · change u.nodes.length = u.nodeCount.toNat
    rw [t5, t3]
    exact h.arena hp
  · change u.treeValid = false → u.nodeCount = 0 ∧ u.leafCount = 0 ∧ u.root = Config.nil
    rwa [t1, t2, t3, t4]
  · change u.codesValid = true → u.treeValid = true ∧ 1 ≤ u.totalBits.toNat
    rwa [c1, c2, t1]
  · exact fun hnot => absurd (hvalid.symm.trans hnot) (by decide)
  · change u.accN.toNat ≤ 7 ∧ u.acc.toNat < 2 ^ u.accN.toNat
    rwa [w1, w2]
  · change u.encFlushed = true → u.accN = 0 ∧ u.acc = 0
    rwa [w1, w2, w4]
  · obtain ⟨tree, htree, hcodes⟩ := h.tree hp (t1.symm.trans htv)
    exact ⟨tree, treeIs_congr (s := s) (t := u.finish) t5 t3 hfreq t2 t4 htree,
      fun _ => codesAre_congr (s := s) (t := u.finish) ⟨c1, c2, c3, c4⟩ hfreq (hcodes hc)⟩
  · exact spells_congr (s := u) (by rfl) (by rfl) (by rfl) hvs

/-- DEC_START puts the walk at the root with the whole budget (R221, R223). -/
theorem Inv.started {s : State} (h : Inv s) (he : s.errCode = .none) (hc : s.codesValid = true) :
    Inv ({ s with
      decRemain := s.totalBits, decPos := s.root, decBytes := 0, decExtra := 0, decSyms := 0,
      decState := if s.totalBits = 0 then .done else .active } : State).finish := by
  have hp := h.clean he
  obtain ⟨r, hr, hroot⟩ := h.inner_root hp hc
  refine h.walked he hc rfl ⟨rfl, rfl, rfl, rfl, rfl⟩ ⟨rfl, rfl, rfl, rfl⟩
    ⟨rfl, rfl, rfl, rfl, rfl⟩ rfl (by simp [he]) ⟨r, hr, ?_⟩ (fun hd => ⟨?_, rfl⟩)
    (fun _ => .inl ((h.rule54 hp).b hc).2)
  · exact spells_congr (s := s) (by rfl) (by rfl) (by rfl) hroot
  · simpa using hd

/-- DEC_BYTE in ACTIVE: the walk stays inside the tree, and ends ACTIVE with bits left, DONE at the
root, or in CorruptStream (R225, R229, R230). -/
theorem Inv.decodedByte {s : State} (h : Inv s) (he : s.errCode = .none)
    (ha : s.decState = .active) (v : Byte) : Inv (s.decodeByte v).finish := by
  have hp := h.clean he
  have hon : s.decState ≠ .off := by simp [ha]
  have hc : s.codesValid = true := ((h.rule54 hp).d hon).1
  obtain ⟨r, hr, hroot⟩ := h.inner_root hp hc
  obtain ⟨u, hu, hpos⟩ := h.walk hp hon
  have hf := decodeByte_frame s v
  have keeps := h.walked (u := s.decodeByte v) he hc hf.freq hf.tree hf.codes hf.writer
    hf.control.2.2.2.2.2
  rcases decodeByte_cases s v with ⟨t, hd, e⟩ | ⟨t, hd, e⟩
  · obtain ⟨hframe, herr, _⟩ := State.decodeBits_error hd
    rw [e] at keeps ⊢
    refine keeps (by simp [herr]) (decodeBits_walk hr hroot hu hpos (.inr hd)) (fun hdone => ?_)
      fun _ => .inr herr
    rw [hframe.state, ha] at hdone
    cases hdone
  · obtain ⟨hframe, ⟨herr, _⟩, _⟩ := State.decodeBits_ok hd
    have hst : t.decState = .active := hframe.state.trans ha
    have hwalk := decodeBits_walk hr hroot hu hpos (.inl hd)
    rw [e] at keeps ⊢
    rcases checkBudget_cases t with ⟨hleft, e'⟩ | ⟨hzero, hhome, e'⟩ | ⟨_, _, e'⟩ <;>
      rw [e'] at keeps ⊢
    · refine keeps (by simp [herr, he]) hwalk (fun hdone => ?_) fun _ => .inl ?_
      · rw [hst] at hdone
        cases hdone
      · exact Nat.one_le_iff_ne_zero.mpr fun h0 => hleft (BitVec.eq_of_toNat_eq h0)
    · refine keeps (by simp [herr, he]) ?_ (fun _ => ⟨hzero, hhome⟩) nofun
      obtain ⟨w, hw, hws⟩ := hwalk
      exact ⟨w, hw, spells_congr (s := t) (by rfl) (by rfl) (by rfl) hws⟩
    · refine keeps (by simp) ?_ (fun hdone => ?_) fun _ => .inr rfl
      · obtain ⟨w, hw, hws⟩ := hwalk
        exact ⟨w, hw, spells_congr (s := t) (by rfl) (by rfl) (by rfl) hws⟩
      · rw [State.raise_decState, hst] at hdone
        cases hdone

/-! ### Every command, every event -/

/-- A state that differs from one with the invariant in fields it does not read. -/
theorem Inv.countByte {s : State} (h : Inv s) : Inv s.countByte :=
  h.carry ⟨⟨rfl, rfl, rfl, rfl, rfl⟩, ⟨rfl, rfl, rfl, rfl⟩, rfl, rfl, rfl, rfl⟩ rfl (.inl rfl)
    h.busy h.writerRule

/-- Each way a command can end keeps the invariant, once BUSY is cleared (R310). -/
theorem Inv.ran {i : Instr} {s t : State} (h : Inv s) (he : s.errCode = .none)
    (hran : Ran i s t) : Inv t.finish := by
  cases hran with
  | nop _ => exact h.finish
  | ended _ _ => exact h.finish
  | badFrequency _ x _ => exact (h.invalidateTree he s.freq).raised he (by simp) _ _
  | emptyInput _ _ _ => exact (h.invalidateTree he s.freq).raised he (by simp) _ _
  | built _ arena root tree _ _ htree hlen _ => exact h.built he htree hlen
  | tooLong _ x _ _ => exact (h.invalidateCodes he).raised he (by simp) _ _
  | assigned _ hv hdeep => exact h.assigned he hv hdeep
  | encStart _ =>
    exact h.carry_finish (sameReads_writer s 0 0 0 false s.encOut) rfl rfl
      fun _ => writerRule_of_empty rfl rfl
  | symWritten _ x _ hf _ => exact h.writeBits hf _
  | bitWritten _ b hf => exact h.writeBits hf [b]
  | codeWritten _ len hf => exact h.writeBits hf _
  | flushed _ _ => exact h.flushed
  | started _ _ hc => exact h.started he hc
  | byteDecoded _ v ha => exact h.countByte.decodedByte he ha v
  | byteExtra _ v _ =>
    exact h.carry_finish ⟨⟨rfl, rfl, rfl, rfl, rfl⟩, ⟨rfl, rfl, rfl, rfl⟩, rfl, rfl, rfl, rfl⟩ rfl
      rfl h.writerRule
  | clearFreq _ => exact (h.invalidateTree he (fill 0)).finish
  | _ => exact h.raised he (by simp) _ _

/-- The model's own fields, CMD_ARG and IRQ_EN are not read by the invariant. -/
theorem Inv.outside {s : State} (h : Inv s) (irq : Bool) (arg : Word) (es : List Event)
    (r : List Word) (d : Nat) :
    Inv { s with irqEn := irq, cmdArg := arg, agenda := es, rdata := r, draws := d } :=
  h.carry ⟨⟨rfl, rfl, rfl, rfl, rfl⟩, ⟨rfl, rfl, rfl, rfl⟩, rfl, rfl, rfl, rfl⟩ rfl (.inl rfl)
    h.busy h.writerRule

theorem resetStep_inv (s : State) : Inv s.resetStep := by
  rcases resetStep_cases s with ⟨_, e⟩ | ⟨_, e⟩ <;> rw [e] <;> exact toReset_inv _

/-- A write to CTRL resets or sets IRQ_EN (R253). -/
theorem Inv.writeCtrl {s : State} (h : Inv s) (v : Word) : Inv (s.writeCtrl v) := by
  cases hv : v.getLsbD 0 with
  | true =>
    rw [State.writeCtrl_of_softReset hv]
    exact (resetStep_inv s).outside _ _ _ _ _
  | false =>
    rw [State.writeCtrl_of_noReset hv]
    exact h.outside _ _ _ _ _

/-- An accepted write, CTRL apart (R77). -/
theorem Inv.writeRegister {s : State} (h : Inv s) (he : s.errCode = .none) (a : Nat) (v : Word) :
    Inv (s.writeRegister a v) := by
  rcases writeRegister_cases s a v with ⟨_, e⟩ | ⟨_, e⟩ | ⟨_, _, e⟩ | ⟨_, _, _, e⟩ <;> rw [e]
  · exact h.carry ⟨⟨rfl, rfl, rfl, rfl, rfl⟩, ⟨rfl, rfl, rfl, rfl⟩, rfl, rfl, rfl, rfl⟩ rfl
      (.inl rfl) (fun _ => ⟨he, rfl⟩) h.writerRule
  · exact h.outside _ _ _ _ _
  · exact h.invalidateTree he _
  · exact h

theorem Inv.hostWrite {s t : State} (h : Inv s) {off : Word} {be : BitVec 4} {v : Word}
    (hrun : hostWrite off be v s = .next t) : Inv t := by
  rcases hostWrite_cases off be v s with ⟨_, e⟩ | ⟨_, _, _, e⟩ | ⟨_, _, _, e⟩ | ⟨_, _, _, e⟩ |
    ⟨_, _, _, _, he, e⟩ | ⟨_, _, _, _, e⟩ <;>
    obtain rfl := Host.Outcome.next.inj (hrun.symm.trans e)
  · exact h
  · exact h.writeCtrl v
  · exact h
  · exact overrun_inv s _ v
  · exact h.writeRegister he _ v
  · exact h

theorem Inv.engineTurn {s t : State} (h : Inv s) (hrun : engineTurn s = .next t) : Inv t := by
  rcases engineTurn_cases s with ⟨_, e⟩ | ⟨_, he, i, u, _, hu, e⟩ | ⟨_, he, _, _, e⟩ <;>
    obtain rfl := Host.Outcome.next.inj (hrun.symm.trans e)
  · exact h
  · exact h.ran he (ran_of_exec hu)
  · exact h.raised he (by simp) 0 0

/-- Every event keeps the invariant (R7, R54). -/
theorem Inv.runEvent {s t : State} (h : Inv s) {e : Event} (hrun : runEvent e s = .next t) :
    Inv t := by
  cases e with
  | read off =>
    obtain ⟨v, k, hread⟩ := hostRead_cases off s
    obtain rfl := Host.Outcome.next.inj (hrun.symm.trans hread)
    exact h.outside _ _ _ _ _
  | write off be v => exact h.hostWrite hrun
  | reset =>
    obtain rfl := Host.Outcome.next.inj hrun
    exact resetStep_inv s
  | engine => exact h.engineTurn hrun

/-! ### The obligations -/

/-- Settles O56: a reset of any state gives the invariant. -/
theorem resetMeetsTheInvariant : Obligations.ResetMeetsTheInvariant :=
  fun es => toReset_inv (State.reset.withAgenda es)

/-- Settles O57: taking the next event off the agenda changes nothing the invariant reads, and every
event keeps it. -/
theorem stepKeepsTheInvariant : Obligations.StepKeepsTheInvariant := by
  intro s t h hstep
  have hnext : Inv s.nextEvent.2 := by
    unfold State.nextEvent
    split
    · exact h
    · exact h.outside _ _ _ _ _
  exact hnext.runEvent hstep

end Sys2Proof.Machine
end

section
/-! Steps and the Engine's turn (R7, R310, R264), and the errors an Engine step takes (R113,
R261). -/

namespace Sys2Proof.Machine

/-! ### The Engine's turn -/

theorem pending_not_resting {s : State} (hb : s.busy = true) (he : s.errCode = .none) :
    ¬ (s.busy = false ∨ s.errCode ≠ .none) := by
  simp [hb, he]

/-- With BUSY = 0, and in FAULT, the Engine does nothing (R310, R264). -/
theorem engineTurn_rests {s : State} (h : s.busy = false ∨ s.errCode ≠ .none) :
    engineTurn s = .next s := by
  rcases engineTurn_cases s with ⟨_, e⟩ | ⟨hb, he, _⟩ | ⟨hb, he, _⟩
  · exact e
  all_goals exact absurd h (pending_not_resting hb he)

/-- A pending command with no error latched runs, and BUSY is cleared (R310). -/
theorem engineTurn_runs {s t : State} {i : Instr} (hb : s.busy = true) (he : s.errCode = .none)
    (hd : decode s.pendCmd = .ok i) (hrun : exec i s = .next t) :
    engineTurn s = .next t.finish := by
  rcases engineTurn_cases s with ⟨hrest, _⟩ | ⟨_, _, j, u, hj, hu, e⟩ | ⟨_, _, _, hr, _⟩
  · exact absurd hrest (pending_not_resting hb he)
  · obtain rfl := Except.ok.inj (hd.symm.trans hj)
    obtain rfl := Host.Outcome.next.inj (hrun.symm.trans hu)
    exact e
  · cases hd.symm.trans hr

/-- A pending word that is no command takes BadCommand, and BUSY is cleared (R113). -/
theorem engineTurn_rejects {s : State} {r : Reject} (hb : s.busy = true) (he : s.errCode = .none)
    (hd : decode s.pendCmd = .error r) :
    engineTurn s = .next (s.raise .badCommand 0 0).finish := by
  rcases engineTurn_cases s with ⟨hrest, _⟩ | ⟨_, _, _, _, hj, _⟩ | ⟨_, _, _, _, e⟩
  · exact absurd hrest (pending_not_resting hb he)
  · cases hd.symm.trans hj
  · exact e

/-! ### The obligations -/

/-- Settles O4: an agenda is empty or has a head, and `nextEvent` takes it. -/
theorem stepTakesTheNextEvent : Obligations.StepTakesTheNextEvent :=
  ⟨fun _ _ _ => rfl, fun s h => step_nil s h⟩

/-- Settles O5: both steps are the Engine's turn, in states that agree on BUSY, the error and
PEND_CMD. -/
theorem engineRunsTheDecodedCommand : Obligations.EngineRunsTheDecodedCommand := by
  intro s i hb he hd
  constructor
  · intro rest t hrun
    exact engineTurn_runs (s := { s with agenda := rest }) hb he hd hrun
  · intro t hnil hrun
    rw [step_nil s hnil]
    exact engineTurn_runs hb he hd hrun

/-- Settles O6: the five conditions on the bits are those under which the decoder rejects. -/
theorem illegalWordTakesBadCommand : Obligations.IllegalWordTakesBadCommand := by
  intro s hb he hbits
  obtain ⟨r, hr⟩ := (illegalWordsExactly s.pendCmd).mpr hbits
  exact engineTurn_rejects hb he hr

/-- Settles O7. -/
theorem engineRestsWhenIdleOrInFault : Obligations.EngineRestsWhenIdleOrInFault :=
  fun _ h => engineTurn_rests h

/-- Settles O12: the four registers are all that `raise` names. -/
theorem raiseLatchesTheError : Obligations.RaiseLatchesTheError := fun _ _ _ _ => rfl

end Sys2Proof.Machine
end

section
/-! Accesses outside the window (R72), reads (R75, R81), and that a step never fails (R7). -/

namespace Sys2Proof.Machine

/-- A Host read answers one word and may draw a free value. -/
theorem runEvent_read (off : Word) (s : State) : ∃ v k,
    runEvent (.read off) s = .next { s with rdata := s.rdata ++ [v], draws := k } := by
  obtain ⟨v, k, hread⟩ := hostRead_cases off s
  exact ⟨v, s.draws + k, hread⟩

/-- The block does not decode a write at an offset of 0x4000 or more. -/
theorem runEvent_write_outside {off : Word} (h : 0x4000 ≤ off.toNat) (be : BitVec 4) (v : Word)
    (s : State) : runEvent (.write off be v) s = .next s := by
  rcases hostWrite_cases off be v s with ⟨_, e⟩ | ⟨hin, _⟩ | ⟨hin, _⟩ | ⟨hin, _⟩ | ⟨hin, _⟩ |
    ⟨hin, _⟩
  · exact e
  all_goals omega

/-! ### The obligations -/

/-- Settles O8: every event answers a next state. -/
theorem stepNeverFails : Obligations.StepNeverFails :=
  ⟨fun s => runEvent_next s.nextEvent.1 s.nextEvent.2, fun s off h =>
    ⟨fun be v => runEvent_write_outside h be v s, runEvent_read off s⟩⟩

/-- Settles O16. -/
theorem readsChangeNoBlockState : Obligations.ReadsChangeNoBlockState :=
  fun s off => runEvent_read off s

end Sys2Proof.Machine
end

section
/-! The output streams over a step (R52), and what the resets and an Overrun leave (R268, R300 to
R302), and FAULT (R264 to R266). -/

namespace Sys2Proof.Machine

/-! ### The streams -/

/-- ENC_OUT and DEC_OUT of `s` are prefixes of those of `t` (R52). -/
def StreamsGrow (s t : State) : Prop := s.encOut <+: t.encOut ∧ s.decOut <+: t.decOut

theorem StreamsGrow.of_eq {s t : State} (he : t.encOut = s.encOut) (hd : t.decOut = s.decOut) :
    StreamsGrow s t :=
  ⟨he ▸ List.prefix_rfl, hd ▸ List.prefix_rfl⟩

theorem abandonOutput_grows (s : State) : StreamsGrow s s.abandonOutput :=
  ⟨(abandonOutput_encOut s).1, (abandonOutput_decOut s).1⟩

/-- An abandoned command emits no byte that it would not have emitted (R268, R302). -/
theorem abandonOutput_below_engineTurn {s u : State} (h : engineTurn s = .next u) :
    StreamsGrow s.abandonOutput u := by
  obtain rfl := Host.Outcome.next.inj ((engineTurn_completed s).symm.trans h)
  exact ⟨(abandonOutput_encOut s).2, (abandonOutput_decOut s).2⟩

theorem resetStep_grows (s : State) : StreamsGrow s s.resetStep := by
  rcases resetStep_cases s with ⟨_, e⟩ | ⟨_, e⟩ <;> rw [e]
  · exact .of_eq rfl rfl
  · exact abandonOutput_grows s

theorem writeCtrl_grows (s : State) (v : Word) : StreamsGrow s (s.writeCtrl v) := by
  cases hv : v.getLsbD 0 with
  | true =>
    rw [State.writeCtrl_of_softReset hv]
    exact resetStep_grows s
  | false =>
    rw [State.writeCtrl_of_noReset hv]
    exact .of_eq rfl rfl

theorem writeRegister_grows (s : State) (a : Nat) (v : Word) :
    StreamsGrow s (s.writeRegister a v) := by
  rcases writeRegister_cases s a v with ⟨_, e⟩ | ⟨_, e⟩ | ⟨_, _, e⟩ | ⟨_, _, _, e⟩ <;>
    rw [e] <;> exact .of_eq rfl rfl

theorem hostWrite_grows {s t : State} {off : Word} {be : BitVec 4} {v : Word}
    (hrun : hostWrite off be v s = .next t) : StreamsGrow s t := by
  rcases hostWrite_cases off be v s with ⟨_, e⟩ | ⟨_, _, _, e⟩ | ⟨_, _, _, e⟩ | ⟨_, _, _, e⟩ |
    ⟨_, _, _, _, _, e⟩ | ⟨_, _, _, _, e⟩ <;>
    obtain rfl := Host.Outcome.next.inj (hrun.symm.trans e)
  · exact .of_eq rfl rfl
  · exact writeCtrl_grows s v
  · exact .of_eq rfl rfl
  · exact abandonOutput_grows s
  · exact writeRegister_grows s _ v
  · exact .of_eq rfl rfl

theorem runEvent_grows {e : Event} {s t : State} (hrun : runEvent e s = .next t) :
    StreamsGrow s t := by
  cases e with
  | read off =>
    obtain ⟨v, k, hread⟩ := runEvent_read off s
    obtain rfl := Host.Outcome.next.inj (hrun.symm.trans hread)
    exact .of_eq rfl rfl
  | write off be v => exact hostWrite_grows hrun
  | reset =>
    obtain rfl := Host.Outcome.next.inj hrun
    exact resetStep_grows s
  | engine =>
    obtain ⟨_, _, _, _, _, _, ⟨enc, henc⟩, dec, hdec⟩ := engineTurn_frame hrun
    exact ⟨⟨enc, henc.symm⟩, dec, hdec.symm⟩

/-! ### The resets -/

/-- Every field is at its reset value but the streams and the model's own (R300). -/
theorem resetStep_eq (s : State) : s.resetStep =
    { State.reset with
      encOut := s.resetStep.encOut, decOut := s.resetStep.decOut, agenda := s.agenda,
      rdata := s.rdata, draws := s.resetStep.draws } := by
  rcases resetStep_cases s with ⟨_, e⟩ | ⟨_, e⟩ <;> rw [e] <;> rfl

/-! ### Overrun -/

/-- Clearing the two low bits of an offset (R72). -/
theorem ofNat_wordOffset (off : Word) :
    BitVec.ofNat 32 (wordOffset off) = (off.extractLsb' 2 30 ++ 0#2 : BitVec (30 + 2)) := by
  apply BitVec.eq_of_toNat_eq
  have hlt := off.isLt
  rw [BitVec.toNat_append, BitVec.toNat_ofNat, BitVec.extractLsb'_toNat, wordOffset]
  simp only [BitVec.toNat_zero, Nat.or_zero, Nat.shiftLeft_eq, Nat.shiftRight_eq_div_pow]
  omega

/-- Inside the window and other than to CTRL, a write while BUSY is an Overrun (R78, R268). -/
theorem runEvent_write_busy {s : State} {off : Word} (hb : s.busy = true)
    (hin : off.toNat < 0x4000) (hctrl : wordOffset off ≠ 0x00C) (be : BitVec 4) (v : Word) :
    runEvent (.write off be v) s = .next (s.overrun (wordOffset off) v) := by
  rcases hostWrite_cases off be v s with ⟨hout, _⟩ | ⟨_, hc, _⟩ | ⟨_, hc, _⟩ | ⟨_, _, _, e⟩ |
    ⟨_, _, hb', _⟩ | ⟨_, _, hb', _⟩
  · omega
  · exact absurd hc hctrl
  · exact absurd hc hctrl
  · exact e
  all_goals exact absurd (hb.symm.trans hb') (by decide)

/-! ### FAULT -/

/-- In FAULT with no command pending a write does nothing, or sets IRQ_EN through CTRL, or resets
through CTRL (R264 to R266). -/
theorem runEvent_write_in_fault {s : State} (he : s.errCode ≠ .none) (hb : s.busy = false)
    (off : Word) (be : BitVec 4) (v : Word) :
    runEvent (.write off be v) s = .next s ∨
      (wordOffset off = 0x00C ∧ be = 0xF#4 ∧
        runEvent (.write off be v) s = .next (s.writeCtrl v)) := by
  rcases hostWrite_cases off be v s with ⟨_, e⟩ | ⟨_, hc, hbe, e⟩ | ⟨_, _, _, e⟩ | ⟨_, _, hb', _⟩ |
    ⟨_, _, _, _, he', _⟩ | ⟨_, _, _, _, e⟩
  · exact .inl e
  · exact .inr ⟨hc, hbe, e⟩
  · exact .inl e
  · exact absurd (hb.symm.trans hb') (by decide)
  · exact absurd he' he
  · exact .inl e

/-! ### The obligations -/

/-- Settles O53: the streams of the state whose agenda is one entry shorter are the same. -/
theorem outputsOnlyGrow : Obligations.OutputsOnlyGrow := by
  intro s t hstep
  have hnext : StreamsGrow s s.nextEvent.2 := by
    unfold State.nextEvent
    split <;> exact .of_eq rfl rfl
  obtain ⟨henc, hdec⟩ := runEvent_grows hstep
  exact ⟨hnext.1.trans henc, hnext.2.trans hdec⟩

/-- Settles O10: with no command pending the streams stay; otherwise they are those of the abandoned
command. -/
theorem hardwareResetFromAnyState : Obligations.HardwareResetFromAnyState := by
  intro s
  obtain ⟨henc, hdec⟩ := resetStep_grows s
  refine ⟨s.resetStep, rfl, resetStep_eq s, henc, hdec, fun hb => ?_, fun u hb hu => ?_⟩ <;>
    rcases resetStep_cases s with ⟨hb', e⟩ | ⟨hb', e⟩
  · rw [e]
    exact ⟨rfl, rfl⟩
  · exact absurd (hb.symm.trans hb') (by decide)
  · exact absurd (hb.symm.trans hb') (by decide)
  · rw [e]
    exact abandonOutput_below_engineTurn hu

/-- Settles O14: the streams of an Overrun are those of the abandoned command. -/
theorem writeWhileBusyIsOverrun : Obligations.WriteWhileBusyIsOverrun := by
  intro s off v be hb hin hctrl
  obtain ⟨henc, hdec⟩ := abandonOutput_grows s
  exact ⟨_, runEvent_write_busy hb hin hctrl be v, rfl, rfl, ofNat_wordOffset off, rfl, rfl, rfl,
    rfl, rfl, rfl, henc, hdec, fun _ hu => abandonOutput_below_engineTurn hu⟩

/-- Settles O13: the Engine rests, a read changes the model's own fields, and a write that is no
reset sets at most IRQ_EN. -/
theorem faultIsLatched : Obligations.FaultIsLatched := by
  intro s t e he hb hreset hsoft hrun
  cases e with
  | read off =>
    obtain ⟨v, k, hread⟩ := runEvent_read off s
    obtain rfl := Host.Outcome.next.inj (hrun.symm.trans hread)
    exact ⟨rfl, fun _ => rfl⟩
  | write off be v =>
    rcases runEvent_write_in_fault he hb off be v with hsame | ⟨hctrl, rfl, hwrite⟩
    · obtain rfl := Host.Outcome.next.inj (hrun.symm.trans hsame)
      exact ⟨rfl, fun _ => rfl⟩
    · rw [State.writeCtrl_of_noReset (hsoft off v rfl hctrl)] at hwrite
      obtain rfl := Host.Outcome.next.inj (hrun.symm.trans hwrite)
      exact ⟨rfl, fun hother => absurd hctrl (hother off v rfl)⟩
  | reset => exact absurd rfl hreset
  | engine =>
    obtain rfl := Host.Outcome.next.inj (hrun.symm.trans (engineTurn_rests (.inl hb)))
    exact ⟨rfl, fun _ => rfl⟩

end Sys2Proof.Machine
end

section
/-! Writes with no command pending (R73, R77, R254). -/

namespace Sys2Proof.Machine

/-- With no command pending a write beside CTRL is accepted or changes nothing (R78). -/
theorem runEvent_write_idle {s : State} {off : Word} (hb : s.busy = false)
    (hctrl : wordOffset off ≠ 0x00C) (be : BitVec 4) (v : Word) :
    runEvent (.write off be v) s = .next s ∨ (be = 0xF#4 ∧ s.errCode = .none ∧
      runEvent (.write off be v) s = .next (s.writeRegister (wordOffset off) v)) := by
  rcases hostWrite_cases off be v s with ⟨_, e⟩ | ⟨_, hc, _⟩ | ⟨_, hc, _⟩ | ⟨_, _, hb', _⟩ |
    ⟨_, _, _, hbe, he, e⟩ | ⟨_, _, _, _, e⟩
  · exact .inl e
  · exact absurd hc hctrl
  · exact absurd hc hctrl
  · exact absurd (hb.symm.trans hb') (by decide)
  · exact .inr ⟨hbe, he, e⟩
  · exact .inl e

/-- With no command pending a write without all four byte enables is dropped (R73). -/
theorem runEvent_write_partial {s : State} {be : BitVec 4} (hb : s.busy = false)
    (hbe : be ≠ 0xF#4) (off v : Word) : runEvent (.write off be v) s = .next s := by
  rcases hostWrite_cases off be v s with ⟨_, e⟩ | ⟨_, _, hfull, _⟩ | ⟨_, _, _, e⟩ | ⟨_, _, hb', _⟩ |
    ⟨_, _, _, hfull, _⟩ | ⟨_, _, _, _, e⟩
  · exact e
  · exact absurd hfull hbe
  · exact e
  · exact absurd (hb.symm.trans hb') (by decide)
  · exact absurd hfull hbe
  · exact e

/-- The read-only and the reserved offsets (R77). -/
theorem State.writeRegister_other (s : State) {a : Nat} (hcmd : a ≠ 0x014) (harg : a ≠ 0x018)
    (hfreq : a < 0x400 ∨ 0x800 ≤ a) (v : Word) : s.writeRegister a v = s := by
  rcases writeRegister_cases s a v with ⟨h, _⟩ | ⟨h, _⟩ | ⟨h, h', _⟩ | ⟨_, _, _, e⟩
  · exact absurd h hcmd
  · exact absurd h harg
  · omega
  · exact e

/-- With no command pending a write to a read-only or reserved offset has no effect (R77, R254). -/
theorem runEvent_write_readOnly {s : State} {off : Word} (hb : s.busy = false)
    (hctrl : wordOffset off ≠ 0x00C) (hcmd : wordOffset off ≠ 0x014)
    (harg : wordOffset off ≠ 0x018) (hfreq : wordOffset off < 0x400 ∨ 0x800 ≤ wordOffset off)
    (be : BitVec 4) (v : Word) : runEvent (.write off be v) s = .next s := by
  rcases runEvent_write_idle hb hctrl be v with e | ⟨_, _, e⟩
  · exact e
  · rw [e, s.writeRegister_other hcmd harg hfreq]

/-! ### The obligations -/

/-- Settles O22: partial writes are dropped before the offset is looked at, and of the offsets
beside CTRL only CMD, CMD_ARG and FREQ are writable. -/
theorem otherWritesHaveNoEffect : Obligations.OtherWritesHaveNoEffect := by
  intro s off v _ hb
  refine ⟨fun be hbe => runEvent_write_partial hb hbe off v, fun he => ?_,
    fun hctrl hcmd harg hfreq => runEvent_write_readOnly hb hctrl hcmd harg hfreq 0xF v⟩
  exact accepted_write (by decide) hb he (by decide)

end Sys2Proof.Machine
end

section
/-! What a read answers (R72, R75, R76), and the word of every register (R23 to R47, R80). -/

namespace Sys2Proof.Machine

/-! ### Offsets (R72, R80) -/

/-- The two low bits of an offset are not looked at. -/
theorem wordOffset_ofNat {a k : Nat} (haligned : a % 4 = 0) (hk : k < 4) (hlt : a + k < 2 ^ 32) :
    wordOffset (BitVec.ofNat 32 (a + k)) = a := by
  rw [wordOffset, BitVec.toNat_ofNat]
  omega

/-- A word offset is the multiple of 4 at or below the offset. -/
theorem wordOffset_spec (off : Word) : wordOffset off % 4 = 0 ∧ wordOffset off ≤ off.toNat ∧
    off.toNat < wordOffset off + 4 := by
  rw [wordOffset]
  omega

/-- Element `x` of an array stands 4·x bytes above its base. -/
theorem symbolAt_element (base : Nat) (x : Byte) : symbolAt base (base + 4 * x.toNat) = x := by
  have hindex : (base + 4 * x.toNat - base) / 4 = x.toNat := by omega
  rw [symbolAt, hindex, BitVec.ofNat_toNat, BitVec.setWidth_eq]

/-! ### The arrays (R45 to R47) -/

theorem State.register_control (s : State) {a : Nat} (h : a < 0x400) :
    s.register a = s.controlWord a :=
  if_pos h

theorem State.register_freq (s : State) (x : Byte) :
    s.register (0x400 + 4 * x.toNat) = entry s.freq x := by
  have hx := x.isLt
  have below : ¬ 0x400 + 4 * x.toNat < 0x400 := by omega
  have within : 0x400 + 4 * x.toNat < 0x800 := by omega
  rw [State.register, if_neg below, if_pos within, symbolAt_element]

theorem State.register_code (s : State) (x : Byte) :
    s.register (0x800 + 4 * x.toNat) = entry s.code x := by
  have hx := x.isLt
  have below : ∀ b ≤ 0x800, ¬ 0x800 + 4 * x.toNat < b := by omega
  have within : 0x800 + 4 * x.toNat < 0xC00 := by omega
  rw [State.register, if_neg (below _ (by decide)), if_neg (below _ (by decide)), if_pos within,
    symbolAt_element]

theorem State.register_len (s : State) (x : Byte) :
    s.register (0xC00 + 4 * x.toNat) = (entry s.len x).setWidth 32 := by
  have hx := x.isLt
  have below : ∀ b ≤ 0xC00, ¬ 0xC00 + 4 * x.toNat < b := by omega
  have within : 0xC00 + 4 * x.toNat < 0x1000 := by omega
  rw [State.register, if_neg (below _ (by decide)), if_neg (below _ (by decide)),
    if_neg (below _ (by decide)), if_pos within, symbolAt_element]

/-- The offsets between LEN and NODE are reserved (R80). -/
theorem State.register_reserved (s : State) {a : Nat} (hlow : 0x1000 ≤ a) (hhigh : a < 0x2000) :
    s.register a = 0 := by
  have below : ∀ b ≤ 0x1000, ¬ a < b := by omega
  rw [State.register, if_neg (below _ (by decide)), if_neg (below _ (by decide)),
    if_neg (below _ (by decide)), if_neg (below _ (by decide)), if_pos hhigh]

/-- The offsets above DEC_SYMS are reserved (R80). -/
theorem State.controlWord_reserved (s : State) {a : Nat} (h : 0x078 ≤ a) :
    s.controlWord a = 0 := by
  unfold State.controlWord
  split
  case h_29 => rfl
  all_goals omega

/-! ### NODE (R44) -/

theorem State.nodeWord_of_allocated {s : State} {i : Nat} {n : Node}
    (hi : i < s.nodeCount.toNat) (hn : s.nodes[i]? = some n) :
    s.nodeWord i 0x0 = Node.descWord n ∧ s.nodeWord i 0x4 = n.weight.setWidth 32 ∧
      s.nodeWord i 0x8 = (n.weight.extractLsb' 32 8).setWidth 32 ∧ s.nodeWord i 0xC = 0 := by
  have hget : s.nodes.getD i zeroNode = n := by rw [List.getD_eq_getElem?_getD, hn]; rfl
  simp only [State.nodeWord, if_pos hi, hget, and_self]

/-- DESC as the row of its fields. -/
theorem Node.descWord_getLsbD (n : Node) (k : Nat) : (Node.descWord n).getLsbD k =
    (BitVec.ofBool (n.kind == .internal) ++ 0#4 ++ n.right ++ n.left ++ 0#1 ++ n.sym).getLsbD k :=
  rfl

theorem Node.descWord_extractLsb' (n : Node) (k len : Nat) : (Node.descWord n).extractLsb' k len =
    (BitVec.ofBool (n.kind == .internal) ++ 0#4 ++ n.right ++ n.left ++ 0#1
      ++ n.sym).extractLsb' k len :=
  rfl

/-- The fields of DESC. -/
theorem Node.descWord_fields (n : Node) :
    (Node.descWord n).getLsbD 31 = (n.kind == .internal) ∧ (Node.descWord n).extractLsb' 27 4 = 0 ∧
      (Node.descWord n).extractLsb' 18 9 = n.right ∧ (Node.descWord n).extractLsb' 9 9 = n.left ∧
      (Node.descWord n).getLsbD 8 = false ∧ (Node.descWord n).extractLsb' 0 8 = n.sym := by
  simp (disch := decide) only [Node.descWord_getLsbD, Node.descWord_extractLsb',
    BitVec.getLsbD_append, BitVec.extractLsb'_append_eq_of_le,
    BitVec.extractLsb'_append_eq_of_add_le]
  simp

/-! ### The registers made of fields (R24, R25, R35, R79) -/

/-- STATUS as the row of its fields. -/
theorem State.statusWord_getLsbD (s : State) (k : Nat) : s.statusWord.getLsbD k =
    (0#24 ++ BitVec.ofBool s.irq ++ s.decState.toBits ++ BitVec.ofBool s.encFlushed
      ++ BitVec.ofBool s.codesValid ++ BitVec.ofBool s.treeValid ++ BitVec.ofBool s.inFault
      ++ BitVec.ofBool s.busy).getLsbD k :=
  rfl

theorem State.statusWord_extractLsb' (s : State) (k len : Nat) : s.statusWord.extractLsb' k len =
    (0#24 ++ BitVec.ofBool s.irq ++ s.decState.toBits ++ BitVec.ofBool s.encFlushed
      ++ BitVec.ofBool s.codesValid ++ BitVec.ofBool s.treeValid ++ BitVec.ofBool s.inFault
      ++ BitVec.ofBool s.busy).extractLsb' k len :=
  rfl

/-- The fields of STATUS (R25). -/
theorem State.statusWord_fields (s : State) :
    s.statusWord.getLsbD 0 = s.busy ∧ s.statusWord.getLsbD 1 = s.inFault ∧
      s.statusWord.getLsbD 2 = s.treeValid ∧ s.statusWord.getLsbD 3 = s.codesValid ∧
      s.statusWord.getLsbD 4 = s.encFlushed ∧
      s.statusWord.extractLsb' 5 2 = s.decState.toBits ∧
      s.statusWord.getLsbD 7 = s.irq ∧ s.statusWord.extractLsb' 8 24 = 0 := by
  simp (disch := decide) only [State.statusWord_getLsbD, State.statusWord_extractLsb',
    BitVec.getLsbD_append, BitVec.extractLsb'_append_eq_of_le,
    BitVec.extractLsb'_append_eq_of_add_le]
  simp

/-- CTRL as the row of its fields. -/
theorem State.ctrlWord_getLsbD (s : State) (k : Nat) :
    s.ctrlWord.getLsbD k = (0#30 ++ BitVec.ofBool s.irqEn ++ 0#1).getLsbD k :=
  rfl

/-- IRQ_EN is bit 1, and the only bit of CTRL that is stored (R24). -/
theorem State.ctrlWord_bit (s : State) (k : Nat) :
    s.ctrlWord.getLsbD k = (decide (k = 1) && s.irqEn) := by
  rw [State.ctrlWord_getLsbD, BitVec.getLsbD_append, BitVec.getLsbD_append]
  rcases k with _ | _ | k <;> simp

/-- ENC_ACC as the row of its fields. -/
theorem State.encAccWord_extractLsb' (s : State) (k len : Nat) :
    s.encAccWord.extractLsb' k len = (0#20 ++ s.accN ++ s.acc).extractLsb' k len :=
  rfl

/-- The fields of ENC_ACC (R35). -/
theorem State.encAccWord_fields (s : State) : s.encAccWord.extractLsb' 0 8 = s.acc ∧
    s.encAccWord.extractLsb' 8 4 = s.accN ∧ s.encAccWord.extractLsb' 12 20 = 0 := by
  simp (disch := decide) only [State.encAccWord_extractLsb',
    BitVec.extractLsb'_append_eq_of_le, BitVec.extractLsb'_append_eq_of_add_le]
  simp

/-- The two words of a 64-bit register are the register (R79). -/
theorem highWord_append_lowWord (c : Count) : highWord c ++ lowWord c = c :=
  (BitVec.extractLsb'_append_extractLsb'_eq_extractLsb' (x := c) rfl).trans
    BitVec.extractLsb'_eq_self

/-! ### After reset (R55) -/

/-- Below FREQ only the constants, ROOT and DEC_POS are not 0. -/
theorem reset_controlWord (a : Nat) : State.reset.controlWord a =
    if a = 0x000 then 0x48554646 else if a = 0x004 then 0x00010000
    else if a = 0x008 then 0x01FF2820 else if a = 0x02C ∨ a = 0x058 then 0x1FF else 0 := by
  unfold State.controlWord
  split
  case h_29 =>
    rw [if_neg ‹¬ a = 0x000›, if_neg ‹¬ a = 0x004›, if_neg ‹¬ a = 0x008›,
      if_neg (not_or.mpr ⟨‹¬ a = 0x02C›, ‹¬ a = 0x058›⟩)]
  all_goals rfl

/-- From FREQ on every word is 0. -/
theorem reset_register_arrays {a : Nat} (h : 0x400 ≤ a) : State.reset.register a = 0 := by
  unfold State.register
  rw [if_neg (by omega)]
  split
  · exact entry_fill 0 _
  split
  · exact entry_fill 0 _
  split
  · rw [State.reset_len, entry_fill]
    rfl
  split
  · rfl
  · exact State.nodeWord_of_unallocated (Nat.zero_le _) _

/-! ### Exact reads (R76) -/

theorem readIsOpen_of_alwaysExact (s : State) {a : Nat} (h : a ∈ [0x000, 0x004, 0x008, 0x010]) :
    s.readIsOpen a = false := by
  have hexact : alwaysExact a = true := by simpa [alwaysExact, or_assoc] using h
  simp [State.readIsOpen, hexact]

theorem readIsOpen_of_errorRegister {s : State} (hb : s.busy = false) {a : Nat}
    (h : a ∈ [0x01C, 0x020, 0x024, 0x028]) : s.readIsOpen a = false := by
  have herror : errorRegister a = true := by simpa [errorRegister, or_assoc] using h
  simp [State.readIsOpen, hb, herror]

theorem readIsOpen_of_idle {s : State} (hb : s.busy = false) (hp : s.poisoned = false) (a : Nat) :
    s.readIsOpen a = false := by
  simp [State.readIsOpen, hb, hp]

/-- A read of an idle and unpoisoned block answers the word that the offset lies in. -/
theorem runEvent_read_idle {s : State} (hb : s.busy = false) (hp : s.poisoned = false) {a k : Nat}
    (haligned : a % 4 = 0) (hk : k < 4) (hwindow : a + k < 0x4000) :
    runEvent (.read (BitVec.ofNat 32 (a + k))) s =
      .next { s with rdata := s.rdata ++ [s.register a] } := by
  have hoff := wordOffset_ofNat haligned hk (by omega)
  have hin : (BitVec.ofNat 32 (a + k)).toNat < 0x4000 := by
    rw [BitVec.toNat_ofNat]
    omega
  have hread := hostRead_exact hin (readIsOpen_of_idle hb hp _)
  rwa [hoff] at hread

/-! ### The obligations -/

/-- Settles O17: each of the three cases closes the two disjuncts of `readIsOpen`. -/
theorem exactReads : Obligations.ExactReads := by
  intro s off hwindow hcase
  refine hostRead_exact hwindow ?_
  rcases hcase with halways | ⟨hb, herror⟩ | ⟨hb, hp⟩
  · exact readIsOpen_of_alwaysExact s halways
  · exact readIsOpen_of_errorRegister hb herror
  · exact readIsOpen_of_idle hb hp _

/-- Settles O18: the three arrays lie in the window, and the read drops the two low bits. -/
theorem arraysReadBack : Obligations.ArraysReadBack := by
  intro s x k hk hb hp
  have hx := x.isLt
  have hfreq := runEvent_read_idle hb hp (a := 0x400 + 4 * x.toNat) (by omega) hk (by omega)
  have hcode := runEvent_read_idle hb hp (a := 0x800 + 4 * x.toNat) (by omega) hk (by omega)
  have hlen := runEvent_read_idle hb hp (a := 0xC00 + 4 * x.toNat) (by omega) hk (by omega)
  rw [State.register_freq] at hfreq
  rw [State.register_code] at hcode
  rw [State.register_len] at hlen
  exact ⟨hfreq, hcode, hlen⟩

/-- Settles O19: the offset selects the entry and the word in it, and DESC is a row of fields. -/
theorem nodeReadBack : Obligations.NodeReadBack := by
  intro s i _
  constructor
  · intro n hi hn
    obtain ⟨hdesc, hlow, hhigh, hzero⟩ := State.nodeWord_of_allocated hi hn
    have hword : s.register (0x2000 + 16 * i) = Node.descWord n :=
      (s.register_node i (k := 0) (by decide)).trans hdesc
    obtain ⟨hkind, hgap, hright, hleft, hbit8, hsym⟩ := Node.descWord_fields n
    rw [hword, s.register_node i (by decide), s.register_node i (by decide),
      s.register_node i (by decide), hlow, hhigh, hzero]
    exact ⟨hkind, hgap, hright, hleft, hbit8, hsym, BitVec.setWidth_eq_extractLsb' (by decide),
      rfl, rfl⟩
  · intro hi k hk
    have hk16 : k < 16 := by
      simp only [List.mem_cons, List.not_mem_nil, or_false] at hk
      omega
    rw [s.register_node i hk16, State.nodeWord_of_unallocated hi]

/-- Settles O15: STATUS is one of the registers that read exactly in every state, and its offset is
none of those that a write changes. -/
theorem statusReadsExactly : Obligations.StatusReadsExactly := by
  intro s
  obtain ⟨hbusy, herr, htree, hcodes, hflushed, hdec, hirq, hzero⟩ := s.statusWord_fields
  have hread : runEvent (.read 0x010) s = .next { s with rdata := s.rdata ++ [s.statusWord] } :=
    exactReads s 0x010 (by decide) (.inl (by decide))
  refine ⟨s.statusWord, hread, hbusy, herr, htree, hcodes, hflushed, ?_, hirq, hzero, ?_⟩
  · rw [hdec]
    cases s.decState <;> rfl
  · exact fun w hb => runEvent_write_readOnly hb (by decide) (by decide) (by decide)
      (.inl (by decide)) 0xF w

/-- Settles O59: the word of each offset is its register's. -/
theorem controlRegistersReadBack : Obligations.ControlRegistersReadBack := by
  refine ⟨fun s => ?_, wordOffset_spec⟩
  obtain ⟨hacc, haccN, hgap⟩ := s.encAccWord_fields
  refine ⟨rfl, rfl, rfl, fun i _ => s.ctrlWord_bit i, rfl, rfl, ?_, rfl, rfl, rfl, ?_, ?_, ?_,
    highWord_append_lowWord _, hacc, haccN, hgap, highWord_append_lowWord _,
    highWord_append_lowWord _, ?_, highWord_append_lowWord _, highWord_append_lowWord _,
    highWord_append_lowWord _, fun a ha => ?_⟩
  · change s.errCode.toBits.setWidth 32 = _
    cases s.errCode <;> rfl
  · exact BitVec.toNat_setWidth_of_le (b := s.root) (by decide)
  · exact BitVec.toNat_setWidth_of_le (b := s.nodeCount) (by decide)
  · exact BitVec.toNat_setWidth_of_le (b := s.leafCount) (by decide)
  · exact BitVec.toNat_setWidth_of_le (b := s.decPos) (by decide)
  · rcases ha with rfl | rfl | ⟨hlow, hhigh⟩ | ⟨hlow, hhigh⟩
    · rfl
    · rfl
    · rw [s.register_control hhigh, s.controlWord_reserved hlow]
    · exact s.register_reserved hlow hhigh

/-- Settles O9: the window is the registers below FREQ and the arrays, which are filled with 0. -/
theorem windowAfterReset : Obligations.WindowAfterReset := by
  refine ⟨fun a _ _ => ?_, rfl, rfl, rfl, rfl⟩
  rcases Nat.lt_or_ge a 0x400 with hlow | hhigh
  · rw [State.register_control _ hlow, reset_controlWord]
  · rw [reset_register_arrays hhigh, if_neg (by omega), if_neg (by omega), if_neg (by omega),
      if_neg (by omega)]

end Sys2Proof.Machine
end

section
/-! NOP and CLEAR_FREQ (R250, R251). -/

namespace Sys2Proof.Machine

/-- Settles O25. -/
theorem nopCompletes : Obligations.NopCompletes := fun _ => rfl

/-- Settles O26: the table is filled with 0, and InvalidateTree does not look at it. -/
theorem clearFreqCompletes : Obligations.ClearFreqCompletes :=
  fun s => ⟨{ s with freq := fill 0 }.invalidateTree, rfl, fun x => entry_fill 0 x, rfl⟩

end Sys2Proof.Machine
end

section
/-! BUILD_TREE on a table it accepts (R140 to R150), and the merge (R144, R145). -/

namespace Sys2Proof.Machine

/-! ### The seeded leaves (R141) -/

/-- The arena keeps the seeded leaves as its first entries. -/
theorem buildArena_take (f : Table Word) :
    (buildArena f).1.take (leafSymbols f).length = seedArena f := by
  obtain ⟨rest, hrest⟩ := buildArena_leaves f
  rw [← hrest]
  exact List.take_left' (seedArena_length f)

/-- Node k of the arena is the leaf of the k-th symbol. -/
theorem buildArena_leaf {f : Table Word} {k : Nat} {x : Byte} (h : (leafSymbols f)[k]? = some x) :
    (buildArena f).1[k]? = some (leafNode f x) := by
  have hseed : (seedArena f)[k]? = some (leafNode f x) := by
    rw [seedArena, List.getElem?_map, h]
    rfl
  obtain ⟨rest, hrest⟩ := buildArena_leaves f
  rw [← hrest, List.getElem?_append_left (List.getElem?_eq_some_iff.mp hseed).1, hseed]

/-- The table of one symbol seeds one leaf. -/
theorem leafSymbols_eq_singleton {f : Table Word} {x : Byte} (hx : entry f x ≠ 0)
    (hothers : ∀ y, y ≠ x → entry f y = 0) : leafSymbols f = [x] := by
  refine List.perm_singleton.mp ((List.perm_ext_iff_of_nodup (leafSymbols_nodup f)
    (List.nodup_singleton x)).mpr fun y => ?_)
  rw [mem_leafSymbols, List.mem_singleton]
  constructor
  · exact fun hy => by_contra fun hne => hy (hothers y hne)
  · rintro rfl
    exact hx

/-! ### The tree is built -/

/-- A table with no bit 31 set and some leaf is built into a tree of it (R148, R150). -/
theorem exec_buildTree_builds {s : State} (hgood : badSymbol s.freq = none)
    (hne : leafSymbols s.freq ≠ []) : ∃ arena root tree,
      exec .buildTree s =
        .next (s.invalidateTree.storeTree arena root (leafSymbols s.freq).length) ∧
      buildArena s.freq = (arena, root) ∧
      TreeIs (s.invalidateTree.storeTree arena root (leafSymbols s.freq).length) tree ∧
      arena.length ≤ 511 ∧ root + 1 = arena.length ∧
      arena.length = if (leafSymbols s.freq).length = 1 then 2
        else 2 * (leafSymbols s.freq).length - 1 := by
  rcases execBuildTree_cases s with ⟨x, hbad, _⟩ | ⟨_, hempty, _⟩ |
    ⟨_, arena, root, tree, hrun, htree, hlen, htop, _, hcount, hbuild⟩
  · cases hgood.symm.trans hbad
  · exact absurd hempty hne
  · exact ⟨arena, root, tree, hrun, hbuild, htree, hlen, htop, hcount⟩

/-! ### The obligations -/

/-- Settles O31: the scan keeps the lexicographically least pair of weight and index. -/
theorem removeMinTakesTheSmallestKey : Obligations.RemoveMinTakesTheSmallestKey := by
  constructor
  · intro arena q q' m h
    obtain ⟨hmem, hrest, hleast⟩ := removeMin_spec h
    refine ⟨hmem, hrest, fun y hy => ?_⟩
    rcases hleast y hy with rfl | hbefore
    · exact .inr ⟨rfl, le_rfl⟩
    · exact ((comesBefore_iff arena m y).mp hbefore).imp_right (And.imp_right Nat.le_of_lt)
  · intro arena q hq
    cases hmin : removeMin arena q with
    | none => exact absurd ((removeMin_eq_none arena q).mp hmin) hq
    | some r => exact ⟨r.1, r.2, rfl⟩

/-- Settles O32. -/
theorem mergeStepJoinsTheTwoSmallest : Obligations.MergeStepJoinsTheTwoSmallest := by
  constructor
  · intro fuel arena q q1 q2 a b ha hb
    simp only [mergeLoop, ha, hb, mergeNode]
  · exact mergeLoop_singleton

/-- Settles O29: the stored arena is `buildArena` of the table, which begins with the seeded leaves
and is what the merge makes of them. -/
theorem buildTreeCompletes : Obligations.BuildTreeCompletes := by
  intro s hrange ⟨x, hx⟩
  have hgood : badSymbol s.freq = none := (badSymbol_eq_none s.freq).mpr hrange
  have hne : leafSymbols s.freq ≠ [] :=
    List.ne_nil_of_mem ((mem_leafSymbols s.freq x).mpr hx)
  obtain ⟨arena, root, tree, hrun, hbuild, htree, hlen, htop, hcount⟩ :=
    exec_buildTree_builds hgood hne
  have hleaves := leafSymbols_length_le s.freq
  have hN : (BitVec.ofNat 10 arena.length).toNat = arena.length := by
    rw [BitVec.toNat_ofNat]
    omega
  have hL : (BitVec.ofNat 9 (leafSymbols s.freq).length).toNat = (leafSymbols s.freq).length := by
    rw [BitVec.toNat_ofNat]
    omega
  have hR : (BitVec.ofNat 9 root).toNat = root := by
    rw [BitVec.toNat_ofNat]
    omega
  refine ⟨_, tree, hrun, rfl, htree, ?_⟩
  simp only [State.storeTree_root, State.storeTree_nodeCount, State.storeTree_leafCount,
    State.storeTree_nodes, hN, hL, hR]
  refine ⟨htop, trivial, hcount, leafSymbols_eq_filter s.freq, trivial, fun k y hk => ?_,
    fun hmany => ?_, rfl⟩
  · have hleaf := buildArena_leaf hk
    rwa [hbuild] at hleaf
  · have hmerge := buildArena_merges hgood hmany
    rwa [← buildArena_take, hbuild] at hmerge

/-- Settles O30: one symbol seeds one leaf, over which R147 puts the root. -/
theorem singleSymbolTree : Obligations.SingleSymbolTree := by
  intro s x hx hrange hothers
  have hone := leafSymbols_eq_singleton hx hothers
  have hgood : badSymbol s.freq = none := by
    refine (badSymbol_eq_none s.freq).mpr fun y => ?_
    by_cases hy : y = x
    · rwa [hy]
    · rw [hothers y hy]
      exact BitVec.getLsbD_zero
  obtain ⟨arena, root, _, hrun, hbuild, _⟩ := exec_buildTree_builds hgood (by simp [hone])
  obtain ⟨rfl, rfl⟩ := Prod.mk.inj (hbuild.symm.trans (buildArena_one hone))
  refine ⟨_, hrun, rfl, ?_, rfl, rfl⟩
  rw [State.storeTree_leafCount, hone]
  rfl

end Sys2Proof.Machine
end

section
/-! ASSIGN_CODES on a tree (R170 to R177). -/

namespace Sys2Proof.Machine

/-- InvalidateCodes leaves the tree. -/
theorem TreeIs.invalidateCodes {s : State} {t : CodeTree} (h : TreeIs s t) :
    TreeIs s.invalidateCodes t :=
  treeIs_congr (s := s) (by rfl) (by rfl) (by rfl) (by rfl) (by rfl) h

/-- On a tree within the ceiling the codes of the tree are stored (R174). -/
theorem exec_assignCodes_completes {s : State} {t : CodeTree} (hv : s.treeValid = true)
    (h : TreeIs s t) (hdepth : ∀ x, (t.path x).length ≤ Config.maxCodeLen) :
    exec .assignCodes s =
        .next (s.invalidateCodes.storeCodes s.invalidateCodes.leafPaths) ∧
      CodesAre (s.invalidateCodes.storeCodes s.invalidateCodes.leafPaths) t := by
  rcases execAssignCodes_cases hv h with ⟨x, hdeep, _⟩ | ⟨_, hrun, hcodes⟩
  · exact absurd (hdepth x) (Nat.not_le.mpr hdeep)
  · exact ⟨hrun, hcodes⟩

/-! ### The obligations -/

/-- Settles O34: what is stored are the codes of the tree, and a symbol that is no leaf has the
empty path. -/
theorem assignCodesCompletes : Obligations.AssignCodesCompletes := by
  intro s tree hv htree hdepth
  obtain ⟨hrun, hcodes⟩ := exec_assignCodes_completes hv htree hdepth
  have hstored : TreeIs (s.invalidateCodes.storeCodes s.invalidateCodes.leafPaths) tree :=
    treeIs_congr (s := s) (by rfl) (by rfl) (by rfl) (by rfl) (by rfl) htree
  refine ⟨_, hrun, rfl, fun x => ⟨hcodes.len_toNat x, hcodes.code_toNat x⟩, fun x hx => ?_,
    hcodes.totalBits_toNat, hcodes.totalBits_pos hstored, rfl⟩
  rw [hcodes.len x, hcodes.code x, htree.path_eq_nil hx]
  exact ⟨rfl, rfl⟩

/-- Settles O35: the search of R173 finds the smallest symbol beyond the ceiling. -/
theorem assignCodesOverflows : Obligations.AssignCodesOverflows := by
  intro s tree x hv htree hdeep hsmallest
  have hpath := htree.invalidateCodes.pathIn_leafPaths
  have hfound : tooDeep s.invalidateCodes.leafPaths = some x := by
    rw [tooDeep_eq_some]
    simp only [hpath]
    exact ⟨hdeep, hsmallest⟩
  rw [exec_assignCodes_overflows hv hfound, hpath]
  rfl

end Sys2Proof.Machine
end

section
/-! BitWriter: the bits that join the stream, and the refusals (R190 to R203). -/

namespace Sys2Proof.Machine

/-! ### Writing on an open writer -/

/-- Bits written stand at the end of the stream, ENC_BITS counts them, and nothing but the
accumulator and ENC_OUT changes besides (R190, R194). -/
theorem writeBits_joins {s : State} (h : WriterOk s) (bits : List Bool) :
    (s.writeBits bits).encStream = s.encStream ++ bits ∧ WriterOk (s.writeBits bits) ∧
      s.writeBits bits = { s with
        acc := (s.writeBits bits).acc, accN := (s.writeBits bits).accN,
        encOut := (s.writeBits bits).encOut,
        encBits := s.encBits + BitVec.ofNat 64 bits.length } := by
  obtain ⟨hok, hstream⟩ := s.writeBits_stream bits h
  refine ⟨hstream, hok, ?_⟩
  obtain ⟨acc, n, out, e⟩ := s.writeBits_frame bits
  rw [e]

theorem codeBits_length (p : Word) (n : Nat) : (codeBits p n).length = n := by
  rw [codeBits, List.length_map, List.length_range]

theorem exec_wrBit_of_open {s : State} (h : s.encFlushed = false) (b : Bool) :
    exec (.wrBit b) s = .next (s.writeBits [b]) :=
  if_neg (by simp [h])

theorem exec_wrCode_of_open {s : State} (h : s.encFlushed = false) (len : Byte) :
    exec (.wrCode len) s = .next (s.writeBits (codeBits s.cmdArg len.toNat)) :=
  if_neg (by simp [h])

theorem exec_encSym_of_code {s : State} {x : Byte} (hc : s.codesValid = true)
    (hf : s.encFlushed = false) (hx : entry s.len x ≠ 0) : exec (.encSym x) s =
      .next (s.writeBits (codeBits (entry s.code x) (entry s.len x).toNat)) := by
  change execEncSym x s = _
  rw [execEncSym, if_neg (by simp [hc]), if_neg (by simp [hf]), if_neg hx]
  rfl

/-! ### Flushing -/

theorem exec_flush_of_open {s : State} (h : s.encFlushed = false) :
    exec .flush s = .next { s.drain with encFlushed := true } :=
  if_neg (by simp [h])

/-- The stream reaches ENC_OUT whole, with the last byte filled up by 0 bits (R200, R201). -/
theorem drain_stream {s : State} (h : WriterOk s) : ∃ pad < 8,
    s.drain.encOut.flatMap byteBits = s.encStream ++ List.replicate pad false := by
  rcases drain_cases s with ⟨h0, e⟩ | ⟨h0, e⟩ <;> rw [e]
  · refine ⟨0, by decide, ?_⟩
    simp [State.encStream, State.accBits, h0]
  · have hpos : 1 ≤ s.accN.toNat :=
      Nat.one_le_iff_ne_zero.mpr fun h' => h0 (BitVec.eq_of_toNat_eq h')
    refine ⟨8 - s.accN.toNat, by omega, ?_⟩
    simp only [State.encStream, State.accBits, State.paddedAcc, List.flatMap_append,
      List.flatMap_singleton, byteBits_padded s.acc _ hpos h.1, List.append_assoc]

theorem drain_frame (s : State) : s.drain =
    { s with acc := s.drain.acc, accN := s.drain.accN, encOut := s.drain.encOut } := by
  rcases drain_cases s with ⟨_, e⟩ | ⟨_, e⟩ <;> rw [e]

/-! ### Refusals (R198, R203) -/

theorem exec_encSym_of_noCodes {s : State} (h : s.codesValid = false) (x : Byte) :
    exec (.encSym x) s = .next (s.raise .notReady 0 0) :=
  if_pos h

theorem exec_encSym_of_flushed {s : State} (hc : s.codesValid = true) (hf : s.encFlushed = true)
    (x : Byte) : exec (.encSym x) s = .next (s.raise .writeAfterFlush 0 0) := by
  change execEncSym x s = _
  rw [execEncSym, if_neg (by simp [hc]), if_pos hf]

theorem exec_encSym_of_noCode {s : State} {x : Byte} (hc : s.codesValid = true)
    (hf : s.encFlushed = false) (hx : entry s.len x = 0) :
    exec (.encSym x) s = .next (s.raise .noCode (x.setWidth 32) 0) := by
  change execEncSym x s = _
  rw [execEncSym, if_neg (by simp [hc]), if_neg (by simp [hf]), if_pos hx]

/-! ### The obligations -/

/-- Settles O39. -/
theorem encStartCompletes : Obligations.EncStartCompletes := fun _ => rfl

/-- Settles O40: one bit joins the stream. -/
theorem wrBitCompletes : Obligations.WrBitCompletes := by
  intro s b hf hok
  obtain ⟨hstream, hok', hframe⟩ := writeBits_joins hok [b]
  exact ⟨_, exec_wrBit_of_open hf b, hstream, hok', hframe⟩

/-- Settles O41: the bits of CMD_ARG join the stream. -/
theorem wrCodeCompletes : Obligations.WrCodeCompletes := by
  intro s len _ hf hok
  obtain ⟨hstream, hok', hframe⟩ := writeBits_joins hok (codeBits s.cmdArg len.toNat)
  rw [codeBits_length] at hframe
  refine ⟨_, exec_wrCode_of_open hf len, hstream, hok', ?_, hframe⟩
  rintro rfl
  rfl

/-- Settles O42: the bits of the symbol's code join the stream. -/
theorem encSymCompletes : Obligations.EncSymCompletes := by
  intro s x hc hf hx hok
  obtain ⟨hstream, hok', hframe⟩ :=
    writeBits_joins hok (codeBits (entry s.code x) (entry s.len x).toNat)
  rw [codeBits_length] at hframe
  exact ⟨_, exec_encSym_of_code hc hf hx, hstream, hok', hframe⟩

/-- Settles O43: the checks stand in the order of R270. -/
theorem encSymErrors : Obligations.EncSymErrors :=
  fun _ x => ⟨fun hc => exec_encSym_of_noCodes hc x, fun hc hf => exec_encSym_of_flushed hc hf x,
    exec_encSym_of_noCode⟩

/-- Settles O44: the partial byte is padded, and the accumulator is empty after it. -/
theorem flushCompletes : Obligations.FlushCompletes := by
  intro s hf hok
  obtain ⟨pad, hpad, hstream⟩ := drain_stream hok
  obtain ⟨hacc, hn⟩ := drain_empty hok
  refine ⟨_, pad, exec_flush_of_open hf, hpad, hstream, ?_⟩
  rw [drain_frame s, hacc, hn]

/-- Settles O45: each of the four commands checks the writer before it writes. -/
theorem flushedWriterRefusesWrites : Obligations.FlushedWriterRefusesWrites := by
  intro s i hf hi
  rcases hi with ⟨b, rfl⟩ | ⟨len, rfl⟩ | rfl | ⟨hc, x, rfl⟩
  · exact if_pos hf
  · exact if_pos hf
  · exact if_pos hf
  · exact exec_encSym_of_flushed hc hf x

end Sys2Proof.Machine
end

section
/-! BitReader: DEC_START, the decode steps of a byte, and the commands that are not ready (R221 to
R235). -/

namespace Sys2Proof.Machine

/-! ### The commands by the decoder's state -/

theorem exec_decStart_of_codes {s : State} (ht : s.treeValid = true) (hc : s.codesValid = true) :
    exec .decStart s = .next { s with
      decRemain := s.totalBits, decPos := s.root, decBytes := 0, decExtra := 0, decSyms := 0,
      decState := if s.totalBits = 0 then .done else .active } :=
  if_neg (by simp [ht, hc])

theorem exec_decStart_of_noCodes {s : State} (h : s.treeValid = false ∨ s.codesValid = false) :
    exec .decStart s = .next (s.raise .notReady 0 0) :=
  if_pos h

theorem exec_decByte_of_off {s : State} (h : s.decState = .off) (v : Byte) :
    exec (.decByte v) s = .next (s.raise .notReady 0 0) := by
  change execDecByte v s = _
  simp only [execDecByte, h]

theorem exec_decByte_of_active {s : State} (h : s.decState = .active) (v : Byte) :
    exec (.decByte v) s = .next (s.countByte.decodeByte v) := by
  change execDecByte v s = _
  simp only [execDecByte, h]

theorem exec_decEnd_of_off {s : State} (h : s.decState = .off) :
    exec .decEnd s = .next (s.raise .notReady 0 0) := by
  change execDecEnd s = _
  simp only [execDecEnd, h]

/-! ### The meaningful bits (R226, R227) -/

/-- The leading min(8, DEC_REMAIN) bits, the most significant first. -/
theorem State.meaningfulBits_eq (s : State) (v : Byte) : s.meaningfulBits v =
    (List.range (min 8 s.decRemain.toNat)).map fun i => v.getLsbD (7 - i) := by
  rw [State.meaningfulBits, byteBits, ← List.map_take, List.take_range, Nat.min_comm]

theorem State.meaningfulBits_length (s : State) (v : Byte) :
    (s.meaningfulBits v).length = min 8 s.decRemain.toNat := by
  rw [State.meaningfulBits_eq, List.length_map, List.length_range]

/-- The byte is looked at through its meaningful bits only. -/
theorem State.decodeByte_congr {s : State} {v w : Byte}
    (h : s.meaningfulBits v = s.meaningfulBits w) : s.decodeByte v = s.decodeByte w := by
  rw [State.decodeByte, State.decodeByte, h]

/-! ### A byte of an ACTIVE decoder (R224 to R230) -/

/-- A byte is decoded on the tree. A missing child ends it in CorruptStream with reason 1;
otherwise the budget decides: bits left, all spent at the root, or all spent off the root. -/
theorem decodeByte_on_tree {s : State} {tree pos : CodeTree} (htree : TreeIs s tree)
    (hpos : pos.isInner = true) (hspells : Spells s s.decPos pos) (v : Byte) {d : Decoded}
    (hd : tree.decode pos (s.meaningfulBits v) = d) :
    ∃ i, Spells s i d.pos ∧ d.used ≤ s.decRemain.toNat ∧
      ((d.missing = true ∧ s.countByte.decodeByte v =
          s.countByte.decodedTo d i .corruptStream s.pendCmd 1 (i.setWidth 32)) ∨
        (d.missing = false ∧ s.decRemain - BitVec.ofNat 64 d.used ≠ 0 ∧
          s.countByte.decodeByte v =
            s.countByte.decodedTo d i s.errCode s.errCmd s.errInfo0 s.errInfo1) ∨
        (d.missing = false ∧ s.decRemain - BitVec.ofNat 64 d.used = 0 ∧ i = s.root ∧
          s.countByte.decodeByte v =
            { s.countByte.decodedTo d i s.errCode s.errCmd s.errInfo0 s.errInfo1 with
              decState := .done }) ∨
        (d.missing = false ∧ s.decRemain - BitVec.ofNat 64 d.used = 0 ∧ i ≠ s.root ∧
          s.countByte.decodeByte v =
            s.countByte.decodedTo d i .corruptStream s.pendCmd 0 (i.setWidth 32))) := by
  have hbits : s.countByte.meaningfulBits v = s.meaningfulBits v := rfl
  have hlen := s.meaningfulBits_length v
  obtain ⟨i, hi, hused, hrun⟩ := decodeBits_spec (s := s.countByte)
    (CodeTree.isInner_of_isWhole htree.whole)
    (spells_congr (s := s) (by rfl) (by rfl) (by rfl) htree.spells) hpos
    (spells_congr (s := s) (by rfl) (by rfl) (by rfl) hspells) (s.meaningfulBits v)
  rw [hd] at hi hused hrun
  refine ⟨i, spells_congr (s := s.countByte) (by rfl) (by rfl) (by rfl) hi, by omega, ?_⟩
  rcases hrun with ⟨hm, _, hok⟩ | ⟨hm, herr⟩
  · right
    have hbyte : s.countByte.decodeByte v =
        (s.countByte.decodedTo d i s.errCode s.errCmd s.errInfo0 s.errInfo1).checkBudget := by
      rw [State.decodeByte, hbits, hok]
      rfl
    rcases checkBudget_cases (s.countByte.decodedTo d i s.errCode s.errCmd s.errInfo0 s.errInfo1)
      with ⟨hleft, e⟩ | ⟨hspent, hhome, e⟩ | ⟨hspent, haway, e⟩
    · exact .inl ⟨hm, hleft, hbyte.trans e⟩
    · exact .inr (.inl ⟨hm, hspent, hhome, hbyte.trans e⟩)
    · exact .inr (.inr ⟨hm, hspent, haway, hbyte.trans e⟩)
  · exact .inl ⟨hm, by rw [State.decodeByte, hbits, herr]; rfl⟩

/-! ### The obligations -/

/-- Settles O46. -/
theorem decStartCompletes : Obligations.DecStartCompletes :=
  fun _ ht hc => exec_decStart_of_codes ht hc

/-- Settles O47: each of the three commands checks the decoder first. -/
theorem decoderNotReady : Obligations.DecoderNotReady := by
  intro s i h
  rcases h with ⟨rfl, hnot⟩ | ⟨hoff, ⟨v, rfl⟩ | rfl⟩
  · exact exec_decStart_of_noCodes hnot
  · exact exec_decByte_of_off hoff v
  · exact exec_decEnd_of_off hoff

/-- Settles O49: the root of the tree in the arena is an inner node, and the walk comes back to
it. -/
theorem pathOfASymbolEmitsIt : Obligations.PathOfASymbolEmitsIt := by
  intro s tree x p htree hp hroot
  have hspells : Spells s s.decPos tree := hroot ▸ htree.spells
  rw [decodeBits_path (CodeTree.isInner_of_isWhole htree.whole) hspells hp, ← hroot]

/-- Settles O50: the two bytes have the same meaningful bits, and in OFF and DONE none is read. -/
theorem paddingBitsAreIgnored : Obligations.PaddingBitsAreIgnored := by
  intro s v w hagree
  have hbits : s.meaningfulBits v = s.meaningfulBits w := by
    rw [s.meaningfulBits_eq, s.meaningfulBits_eq]
    exact List.map_congr_left fun i hi => hagree i (List.mem_range.mp hi)
  cases hst : s.decState with
  | off => rw [exec_decByte_of_off hst, exec_decByte_of_off hst]
  | done => rw [exec_decByte_of_done hst, exec_decByte_of_done hst]
  | active =>
    rw [exec_decByte_of_active hst, exec_decByte_of_active hst,
      State.decodeByte_congr (s := s.countByte) hbits]

/-- Settles O48: the four ends of a byte are the four clauses; in each the clauses of the others
have a hypothesis that is false. -/
theorem decByteDecodesOnTheTree : Obligations.DecByteDecodesOnTheTree := by
  intro s v tree pos ha _ htree hpos hspells
  have hbits : s.meaningfulBits v =
      ((List.range 8).map fun i => v.getLsbD (7 - i)).take (min 8 s.decRemain.toNat) := by
    rw [s.meaningfulBits_eq, ← List.map_take, List.take_range,
      Nat.min_eq_left (Nat.min_le_left _ _)]
  rw [← hbits]
  generalize hd : tree.decode pos (s.meaningfulBits v) = d
  obtain ⟨i, hi, hused, hend⟩ := decodeByte_on_tree htree hpos hspells v hd
  have hremain : (s.decRemain - BitVec.ofNat 64 d.used).toNat = s.decRemain.toNat - d.used := by
    have := s.decRemain.isLt
    rw [BitVec.toNat_sub_of_le] <;> simp [BitVec.le_def] <;> omega
  have hzero : ∀ {n : Count}, n.toNat = 0 → n = 0 := fun h => BitVec.eq_of_toNat_eq h
  refine ⟨_, d, rfl, exec_decByte_of_active ha v, ?_⟩
  rcases hend with ⟨hm, e⟩ | ⟨hm, hleft, e⟩ | ⟨hm, hspent, hhome, e⟩ | ⟨hm, hspent, haway, e⟩ <;>
    rw [e] <;>
    refine ⟨spells_congr (s := s) (by rfl) (by rfl) (by rfl) hi, hremain, rfl, rfl, ?_⟩
  · have hnot : ¬ d.missing = false := by simp [hm]
    exact ⟨fun _ => ⟨ha, rfl, rfl, rfl, rfl⟩, fun h => absurd h hnot, fun h => absurd h hnot,
      fun h => absurd h hnot, rfl⟩
  all_goals have hnot : ¬ d.missing = true := by simp [hm]
  · exact ⟨fun h => absurd h hnot, fun _ _ => ⟨ha, rfl, rfl, rfl, rfl⟩,
      fun _ hspent => absurd (hzero hspent) hleft, fun _ hspent => absurd (hzero hspent) hleft, rfl⟩
  · exact ⟨fun h => absurd h hnot, fun _ hleft => absurd (congrArg BitVec.toNat hspent) hleft,
      fun _ _ _ => ⟨rfl, rfl, rfl, rfl, rfl⟩, fun _ _ haway => absurd hhome haway, rfl⟩
  · exact ⟨fun h => absurd h hnot, fun _ hleft => absurd (congrArg BitVec.toNat hspent) hleft,
      fun _ _ hhome => absurd hhome haway, fun _ _ _ => ⟨ha, rfl, rfl, rfl, rfl⟩, rfl⟩

end Sys2Proof.Machine
end

section
/-! What a command may touch: one output stream at most (R87), and CMD_ARG (R27). -/

namespace Sys2Proof.Machine

/-! ### The streams (R87) -/

/-- Only DEC_BYTE emits to DEC_OUT. -/
theorem exec_decOut_eq {i : Instr} {s t : State} (h : exec i s = .next t)
    (hi : ∀ v, i ≠ .decByte v) : t.decOut = s.decOut := by
  cases ran_of_exec h with
  | byteDecoded _ v _ => exact absurd rfl (hi v)
  | flushed _ _ =>
    change s.drain.decOut = s.decOut
    rw [drain_frame s]
  | symWritten _ x _ _ _ => exact s.writeBits_decOut _
  | bitWritten _ b _ => exact s.writeBit_decOut b
  | codeWritten _ len _ => exact s.writeBits_decOut _
  | _ => rfl

/-- The commands that write to the encoded stream. -/
def Instr.writes (i : Instr) : Prop :=
  (∃ b, i = .wrBit b) ∨ (∃ len, i = .wrCode len) ∨ (∃ x, i = .encSym x) ∨ i = .flush

/-- Only the four writing commands emit to ENC_OUT. -/
theorem exec_encOut_eq {i : Instr} {s t : State} (h : exec i s = .next t)
    (hi : ¬ Instr.writes i) : t.encOut = s.encOut := by
  cases ran_of_exec h with
  | byteDecoded _ v _ => exact (decodeByte_frame s.countByte v).writer.2.2.2.2
  | flushed _ _ => exact absurd (.inr (.inr (.inr rfl))) hi
  | symWritten _ x _ _ _ => exact absurd (.inr (.inr (.inl ⟨x, rfl⟩))) hi
  | bitWritten _ b _ => exact absurd (.inl ⟨b, rfl⟩) hi
  | codeWritten _ len _ => exact absurd (.inr (.inl ⟨len, rfl⟩)) hi
  | _ => rfl

/-! ### Another value in CMD_ARG (R27) -/

/-- The state with `v` in CMD_ARG. -/
def State.withArg (s : State) (v : Word) : State := { s with cmdArg := v }

theorem withArg_writeBit (s : State) (v : Word) (b : Bool) :
    (s.withArg v).writeBit b = (s.writeBit b).withArg v := by
  unfold State.writeBit State.withArg
  dsimp only
  split <;> rfl

theorem withArg_writeBits (s : State) (v : Word) (bits : List Bool) :
    (s.withArg v).writeBits bits = (s.writeBits bits).withArg v := by
  induction bits generalizing s with
  | nil => rfl
  | cons b bits ih => rw [State.writeBits_cons, State.writeBits_cons, withArg_writeBit, ih]

theorem withArg_drain (s : State) (v : Word) : (s.withArg v).drain = s.drain.withArg v := by
  rcases drain_cases s with ⟨h, e⟩ | ⟨h, e⟩ <;> rw [e]
  · exact if_pos h
  · exact if_neg h

theorem withArg_leafPaths (s : State) (v : Word) :
    (s.withArg v).invalidateCodes.leafPaths = s.invalidateCodes.leafPaths :=
  leafPaths_congr rfl rfl rfl

theorem withArg_decodeBit (s : State) (v : Word) (bit : Bool) :
    (∃ t, s.decodeBit bit = .ok t ∧ (s.withArg v).decodeBit bit = .ok (t.withArg v)) ∨
    (∃ t, s.decodeBit bit = .error t ∧ (s.withArg v).decodeBit bit = .error (t.withArg v)) := by
  rcases s.decodeBit_cases bit with ⟨hn, e⟩ | ⟨hn, hk, e⟩ | ⟨hn, hk, e⟩
  · exact .inr ⟨_, e, if_pos hn⟩
  all_goals
    refine .inl ⟨_, e, ?_⟩
    rcases (s.withArg v).decodeBit_cases bit with ⟨hn', _⟩ | ⟨_, hk', e'⟩ | ⟨_, hk', e'⟩
    · exact absurd hn' hn
  · exact e'
  · exact absurd (hk.symm.trans hk') (by decide)
  · exact absurd (hk.symm.trans hk') (by decide)
  · exact e'

theorem withArg_decodeBits (s : State) (v : Word) (bits : List Bool) :
    (∃ t, s.decodeBits bits = .ok t ∧ (s.withArg v).decodeBits bits = .ok (t.withArg v)) ∨
    (∃ t, s.decodeBits bits = .error t ∧
      (s.withArg v).decodeBits bits = .error (t.withArg v)) := by
  induction bits generalizing s with
  | nil => exact .inl ⟨s, rfl, rfl⟩
  | cons bit bits ih =>
    rcases withArg_decodeBit s v bit with ⟨t, h, h'⟩ | ⟨t, h, h'⟩
    · rw [State.decodeBits_cons_ok h, State.decodeBits_cons_ok h']
      exact ih t
    · rw [State.decodeBits_cons_error h, State.decodeBits_cons_error h']
      exact .inr ⟨t, rfl, rfl⟩

theorem withArg_checkBudget (s : State) (v : Word) :
    (s.withArg v).checkBudget = s.checkBudget.withArg v := by
  rcases checkBudget_cases s with ⟨hr, e⟩ | ⟨hr, hp, e⟩ | ⟨hr, hp, e⟩ <;> rw [e]
  · exact if_neg hr
  · exact (if_pos hr).trans (if_pos hp)
  · exact (if_pos hr).trans (if_neg hp)

theorem withArg_decodeByte (s : State) (v : Word) (y : Byte) :
    (s.withArg v).decodeByte y = (s.decodeByte y).withArg v := by
  have hbits : (s.withArg v).meaningfulBits y = s.meaningfulBits y := rfl
  rcases withArg_decodeBits s v (s.meaningfulBits y) with ⟨t, h, h'⟩ | ⟨t, h, h'⟩ <;>
    rw [State.decodeByte, State.decodeByte, hbits, h, h']
  exact withArg_checkBudget t v

/-- BUILD_TREE does not read CMD_ARG: what it stores is read off FREQ. -/
theorem exec_buildTree_withArg {s t : State} (h : exec .buildTree s = .next t) (v : Word) :
    exec .buildTree (s.withArg v) = .next (t.withArg v) := by
  cases ran_of_exec h with
  | badFrequency _ x hbad => exact execBuildTree_of_badSymbol (s := s.withArg v) hbad
  | emptyInput _ hgood hempty => exact execBuildTree_of_noLeaf (s := s.withArg v) hgood hempty
  | built _ arena root tree hgood hne _ _ _ =>
    obtain ⟨a, r, _, hrun, hbuild, _⟩ := exec_buildTree_builds hgood hne
    obtain ⟨a', r', _, hrun', hbuild', _⟩ :=
      exec_buildTree_builds (s := s.withArg v) hgood hne
    obtain ⟨rfl, rfl⟩ := Prod.mk.inj (hbuild.symm.trans hbuild')
    rw [Host.Outcome.next.inj (h.symm.trans hrun)]
    exact hrun'

/-- No command but WR_CODE reads CMD_ARG. -/
theorem exec_withArg {i : Instr} (hi : ∀ len, i ≠ .wrCode len) {s t : State}
    (h : exec i s = .next t) (v : Word) : exec i (s.withArg v) = .next (t.withArg v) := by
  cases ran_of_exec h with
  | nop _ => rfl
  | badFrequency _ _ _ => exact exec_buildTree_withArg h v
  | emptyInput _ _ _ => exact exec_buildTree_withArg h v
  | built _ _ _ _ _ _ _ _ _ => exact exec_buildTree_withArg h v
  | noTree _ hno => exact exec_assignCodes_of_noTree (s := s.withArg v) hno
  | tooLong _ x hv hdeep =>
    have hrun := exec_assignCodes_overflows (u := s.withArg v) hv
      ((congrArg tooDeep (withArg_leafPaths s v)).trans hdeep)
    rw [withArg_leafPaths] at hrun
    exact hrun
  | assigned _ hv hdeep =>
    have hrun := exec_assignCodes_stores (u := s.withArg v) hv
      ((congrArg tooDeep (withArg_leafPaths s v)).trans hdeep)
    rw [withArg_leafPaths] at hrun
    exact hrun
  | encStart _ => rfl
  | symNotReady _ x hc => exact exec_encSym_of_noCodes (s := s.withArg v) hc x
  | symFlushed _ x hc hf => exact exec_encSym_of_flushed (s := s.withArg v) hc hf x
  | symNoCode _ x hc hf hx => exact exec_encSym_of_noCode (s := s.withArg v) hc hf hx
  | symWritten _ x hc hf hx =>
    rw [exec_encSym_of_code (s := s.withArg v) hc hf hx, withArg_writeBits]
    rfl
  | bitFlushed _ b hf => exact if_pos hf
  | bitWritten _ b hf =>
    rw [exec_wrBit_of_open (s := s.withArg v) hf, withArg_writeBits]
    rfl
  | codeFlushed _ len _ => exact absurd rfl (hi len)
  | codeWritten _ len _ => exact absurd rfl (hi len)
  | flushFlushed _ hf => exact if_pos hf
  | flushed _ hf =>
    rw [exec_flush_of_open (s := s.withArg v) hf, withArg_drain]
    rfl
  | startNotReady _ hno => exact exec_decStart_of_noCodes (s := s.withArg v) hno
  | started _ ht hc => exact exec_decStart_of_codes (s := s.withArg v) ht hc
  | byteNotReady _ y hoff => exact exec_decByte_of_off (s := s.withArg v) hoff y
  | byteDecoded _ y ha =>
    rw [exec_decByte_of_active (s := s.withArg v) ha]
    exact congrArg Host.Outcome.next (withArg_decodeByte s.countByte v y)
  | byteExtra _ y hd => exact exec_decByte_of_done (s := s.withArg v) hd y
  | endNotReady _ hoff => exact exec_decEnd_of_off (s := s.withArg v) hoff
  | truncated _ ha => exact exec_decEnd_of_active (s := s.withArg v) ha
  | ended _ hd => exact exec_decEnd_of_done (s := s.withArg v) hd
  | clearFreq _ => rfl

/-! ### The obligations -/

/-- Settles O54. -/
theorem oneStreamForEachCommand : Obligations.OneStreamForEachCommand := by
  intro i s t h
  constructor
  · intro hdec
    by_contra hother
    exact hdec (exec_decOut_eq h fun v hv => hother ⟨v, hv⟩)
  · intro henc
    by_contra hother
    exact henc (exec_encOut_eq h hother)

/-- Settles O55: CMD_ARG is outside of every command's frame, and each way a command can end is the
same with another value there. -/
theorem onlyWrCodeReadsCmdArg : Obligations.OnlyWrCodeReadsCmdArg := by
  intro i s t v h
  obtain ⟨⟨_, _, _, harg, _⟩, _⟩ := exec_frame h
  exact ⟨harg, fun hi => exec_withArg hi h v⟩

end Sys2Proof.Machine
end

section
/-! The round trip of R322: what the encode sequence leaves in ENC_OUT, the decode sequence turns
back into the string. -/

namespace Sys2Proof.Machine

/-- DEC_END after the whole stream changes nothing that is read afterwards (R231). -/
theorem decEnd_does {s : State} (hb : s.busy = false) (he : s.errCode = .none)
    (hd : s.decState = .done) :
    ListingDoes (cmdOps .decEnd) s (s.issue (encode .decEnd)).finish :=
  command_does (i := .decEnd) rfl hb he fun r more =>
    exec_decEnd_of_done (s := inRun r more (s.issue (encode .decEnd))) hd

/-! ### The table of a string (R320) -/

section
variable {xs : List Byte} (hcounts : ∀ x, xs.count x < 2 ^ 31)
include hcounts

theorem counts_toNat (x : Byte) : (entry (counts xs) x).toNat = xs.count x := by
  have hlt := hcounts x
  rw [counts, entry_tabulate, BitVec.toNat_ofNat]
  omega

/-- No count reaches bit 31, so BUILD_TREE accepts the table. -/
theorem badSymbol_counts : badSymbol (counts xs) = none := by
  refine (badSymbol_eq_none _).mpr fun x => ?_
  rw [BitVec.getLsbD, counts_toNat hcounts]
  exact Nat.testBit_lt_two_pow (hcounts x)

theorem counts_ne_zero {x : Byte} (hx : x ∈ xs) : entry (counts xs) x ≠ 0 := by
  intro h0
  have hcount := counts_toNat hcounts x
  rw [h0] at hcount
  exact (List.count_pos_iff.mpr hx).ne hcount

theorem leafSymbols_counts (hne : xs ≠ []) : leafSymbols (counts xs) ≠ [] := by
  obtain ⟨x, hx⟩ := List.exists_mem_of_ne_nil xs hne
  exact List.ne_nil_of_mem ((mem_leafSymbols _ x).mpr (counts_ne_zero hcounts hx))

/-- TOTAL_BITS is the length of the string's encoding (R176). -/
theorem Coded.totalBits_eq {t : State} {tree : CodeTree} (h : Coded t (counts xs) tree) :
    t.totalBits.toNat = (xs.flatMap tree.path).length := by
  rw [h.codes.totalBits_toNat, h.freq, List.length_flatMap,
    sum_counts fun x => (tree.path x).length]
  simp only [counts_toNat hcounts]

/-- Every symbol of the string has a code. -/
theorem Coded.path_ne_nil {t : State} {tree : CodeTree} (h : Coded t (counts xs) tree) {x : Byte}
    (hx : x ∈ xs) : tree.path x ≠ [] :=
  h.is.path_ne_nil (by rw [h.freq]; exact counts_ne_zero hcounts hx)

/-! ### The two sequences after the codes are built -/

/-- Encoding: the bits of ENC_OUT are the codes of the string and fewer than eight 0 bits (R320). -/
theorem encode_does {t : State} {tree : CodeTree} (h : Coded t (counts xs) tree) :
    ∃ s pad, ListingDoes
        (cmdOps .encStart ++ encodeOps xs ++ cmdOps .flush ++ [HostOp.r 0x010]) t s ∧ pad < 8 ∧
      s.encOut.flatMap byteBits = xs.flatMap tree.path ++ List.replicate pad false := by
  obtain ⟨s1, hstart, hopen⟩ := encStart_does h
  obtain ⟨s2, hsyms, hwritten⟩ := encodeOps_do xs (fun _ hx => h.path_ne_nil hcounts hx) hopen
  obtain ⟨s3, pad, hflush, _, hpad, hout⟩ := flush_does hwritten
  exact ⟨s3, pad, ((hstart.append hsyms).append hflush).append (readStatus_does s3), hpad, hout⟩

/-- Decoding the codes of the string, padded to bytes, gives the string (R321, R235). -/
theorem decode_does {t : State} {tree : CodeTree} (h : Coded t (counts xs) tree)
    {payload : List Byte} {pad : Nat} (hpad : pad < 8)
    (hbits : payload.flatMap byteBits = xs.flatMap tree.path ++ List.replicate pad false) :
    ∃ u, ListingDoes
        (cmdOps .decStart ++ decodeOps payload ++ cmdOps .decEnd ++ [HostOp.r 0x010]) t u ∧
      u.errCode = .none ∧ u.decState = .done ∧ u.decExtra = 0 ∧ u.decOut = xs := by
  have htotal := h.totalBits_eq hcounts
  have hpos := h.codes.totalBits_pos h.is
  obtain ⟨d, hstart, hb, he, ha, hroot, hfreq, hremain, hout, hextra, htree⟩ := decStart_does h hpos
  have hlen : 8 * payload.length = t.totalBits.toNat + pad := by
    rw [← flatMap_byteBits_length, hbits, List.length_append, List.length_replicate, htotal]
  have hpath := decodeBits_paths (s := d) xs
    (fun x hx => by rw [hfreq]; exact counts_ne_zero hcounts hx) htree hroot
  have htaken : (payload.flatMap byteBits).take d.decRemain.toNat = xs.flatMap tree.path := by
    rw [hremain, hbits, htotal, List.take_left]
  rw [← htaken] at hpath
  obtain ⟨u, hbytes, hb', he', hdone, hextra', hout'⟩ := decodeOps_do payload d _ hb he ha
    (by rintro rfl; simp at hlen; omega) (by rw [hremain]; omega) (by rw [hremain]; omega) hpath
    hroot
  refine ⟨_, ((hstart.append hbytes).append (decEnd_does hb' he' hdone)).append
    (readStatus_does _), he', hdone, hextra'.trans hextra, ?_⟩
  rw [State.finish_decOut, State.issue_decOut, hout', hout, List.nil_append]

end

/-! ### From reset -/

/-- Both sequences begin by loading the table. -/
theorem loadTable_does (f : Table Word) :
    ListingDoes (sresetOps ++ loadFreqOps f) State.reset (tabled f) :=
  sreset_does.append (loadFreq_does f)

theorem encodeSequence_eq (xs : List Byte) : encodeSequence xs =
    sresetOps ++ loadFreqOps (counts xs) ++ codesOps ++
      (cmdOps .encStart ++ encodeOps xs ++ cmdOps .flush ++ [HostOp.r 0x010]) := by
  simp only [encodeSequence, codesOps, List.append_assoc]

theorem decodeSequence_eq (f : Table Word) (payload : List Byte) : decodeSequence f payload =
    sresetOps ++ loadFreqOps f ++ codesOps ++
      (cmdOps .decStart ++ decodeOps payload ++ cmdOps .decEnd ++ [HostOp.r 0x010]) := by
  simp only [decodeSequence, codesOps, List.append_assoc]

/-- The header gives the table back (R96, R99). -/
theorem header_readBack (f : Table Word) (out : List Byte) :
    tabulate (headerEntry (headerBytes f ++ out)) = f :=
  table_ext fun x => by rw [entry_tabulate, headerEntry_headerBytes]

/-- Settles O58: both sequences build the same codes from the table, or the encode sequence ends in
FAULT; with codes, ENC_OUT holds the codes of the string, which the walk turns back into it. -/
theorem roundTrip : Obligations.RoundTrip := by
  intro xs late late' s hne hcounts hrun herr
  obtain ⟨tree, t, hcodes, ht⟩ :=
    codesOps_do (counts xs) (badSymbol_counts hcounts) (leafSymbols_counts hcounts hne)
  have hbuilt := (loadTable_does (counts xs)).append hcodes
  rw [encodeSequence_eq] at hrun
  rcases ht with hcoded | ⟨hb, hfault⟩
  · obtain ⟨e, pad, hencode, hpad, hout⟩ := encode_does hcounts hcoded
    obtain ⟨r, hrun'⟩ := (hbuilt.append hencode).runListing late rfl rfl
    obtain rfl := Host.Outcome.next.inj (hrun.symm.trans hrun')
    obtain ⟨u, hdecode, hgood⟩ := decode_does hcounts hcoded hpad hout
    obtain ⟨r', hdec⟩ := (hbuilt.append hdecode).runListing late' rfl rfl
    rw [header_readBack, drop_headerBytes, decodeSequence_eq]
    exact ⟨_, hdec, hgood⟩
  · obtain ⟨r, hrun'⟩ :=
      (hbuilt.append (encode_in_fault_does hb hfault xs)).runListing late rfl rfl
    obtain rfl := Host.Outcome.next.inj (hrun.symm.trans hrun')
    exact absurd herr hfault

end Sys2Proof.Machine
end
